-- ==== Sys2Proof/Word.lean ====
section
/-! DEFINITION. The words of HUFC (spec/00_scope.md R8). -/

namespace Sys2Proof

/-- A bus register or command word: 32 bits (R8). -/
abbrev Word := BitVec 32

/-- A byte of INQ, OUTQ, the packer or the unpacker (R38, R39, R43, R44). -/
abbrev Byte := BitVec 8

/-- A 9-bit symbol value (R103). -/
abbrev Symbol := BitVec 9

/-- A 10-bit node index (R8, R37). -/
abbrev NodeIdx := BitVec 10

end Sys2Proof
end

