-- ==== Sys2Proof/Config.lean ====
section
/-! DEFINITION. What an implementation of HUFC fixes: the parameters of spec/00_scope.md R8, and the open parameter HUF_BASE (R61). -/

namespace Sys2Proof

/-- The constant value of the ID register (R21). -/
def Config.idValue : Word := 0x48554601#32

/-- `SYM_COUNT`: entries of CT, symbols 0x000-0x100 (R8). -/
abbrev Config.symCount : Nat := 257

/-- `MAX_CODE_LEN`: the longest code in a CT entry (R8). -/
abbrev Config.maxCodeLen : Nat := 64

/-- `NODE_COUNT`: words of NODE, indices 0-512 (R8). -/
abbrev Config.nodeCount : Nat := 513

/-- `INQ_DEPTH`: bytes INQ can hold (R8, R38). -/
abbrev Config.inqDepth : Nat := 16

/-- `OUTQ_DEPTH`: bytes OUTQ can hold (R8, R39). -/
abbrev Config.outqDepth : Nat := 16

/-- The size of the register window in bytes (R8, R60). -/
abbrev Config.windowSize : Nat := 64

/-- PSEUDO_EOF, the symbol that ends a packed stream (R103). -/
abbrev Config.pseudoEof : Symbol := 0x100#9

/-- INTERNAL, the sentinel the block never stores (R103). -/
def Config.internalSentinel : Symbol := 0x101#9

/-- HUF_BASE divided by 64: the platform's choice, no value known (R61, S19; log entry 4). -/
opaque Config.hufBlock : Nat

/-- HUF_BASE, a multiple of 64 whatever the platform chose (R61). -/
def Config.hufBase : Nat := Config.windowSize * Config.hufBlock

end Sys2Proof
end

