-- ==== Sys2Proof/Syntax.lean ====
section
/-! DEFINITION. What the host can say to HUFC: the ten commands (spec/30_encoding.md R94), why a word is no command (R95), the bus
registers (spec/10_state.md, register map), the bus accesses (R10, R64) and the events of the outside world. -/

namespace Sys2Proof

/-- One constructor per row of the opcode map (R94). -/
inductive Instr where
  | nop
  | clear
  | ldcode (sym : Symbol) (len : BitVec 7)
  | rdcode (sym : Symbol)
  | ldnode (idx : NodeIdx)
  | rdnode (idx : NodeIdx)
  | setroot (idx : NodeIdx)
  | encode
  | decode
  | abort
  deriving DecidableEq, Repr

/-- The four command formats (R91). -/
inductive Format where
  | n
  | s
  | l
  | i
  deriving DecidableEq, Repr

/-- Why a word is BadCmd, in the order the checks are made (R95, R325); every one gives the error code BAD_CMD. -/
inductive Reject where
  /-- OP is 0xA-0xF. -/
  | reservedOpcode
  /-- A reserved bit of the format is 1. -/
  | reservedBit
  /-- SYM is above 0x100. -/
  | symRange
  /-- LEN is above 64. -/
  | lenRange
  /-- IDX is above 512. -/
  | idxRange
  /-- Fewer than the four bytes of a word are there (only the byte form of the decoder meets this). -/
  | tooShort
  deriving DecidableEq, Repr

/-- The sixteen aligned registers of the window (register map of spec/10_state.md). -/
inductive Reg where
  | id
  | ctrl
  | status
  | cmd
  | arg0
  | arg1
  | arg2
  | root
  | inData
  | inEnd
  | outData
  | bitcnt
  | bitsin
  | errinfo
  | reserved38
  | reserved3C
  deriving DecidableEq, Repr

/-- A bus access that the window has been selected for: `MemRead(off, size)` or `MemWrite(off, size, v)` (R10), `off` any byte offset
0x00-0x3F and `size` the width in bytes. Of a write of another width than four bytes nothing is ever used (R64; log entry 13). -/
inductive Access where
  | read (off : BitVec 6) (size : Nat)
  | write (off : BitVec 6) (size : Nat) (v : Word)
  deriving DecidableEq, Repr

/-- What may come next in the one total order of steps (R7, R70): a host access, a turn of the engine, a reset (R360). -/
inductive Event where
  | host (a : Access)
  | engine
  | reset
  deriving DecidableEq, Repr

end Sys2Proof
end

