-- ==== Sys2Proof/WellFormed.lean ====
section
/-! DEFINITION. The operand ranges of a command (spec/30_encoding.md R93). -/

namespace Sys2Proof

/-- Every operand of the command is in its range: SYM <= 0x100, LEN <= 64, IDX <= 512 (R93). -/
def Instr.wellFormed : Instr → Bool
  | .nop => true
  | .clear => true
  | .ldcode sym len => sym.toNat < Config.symCount && len.toNat ≤ Config.maxCodeLen
  | .rdcode sym => sym.toNat < Config.symCount
  | .ldnode idx => idx.toNat < Config.nodeCount
  | .rdnode idx => idx.toNat < Config.nodeCount
  | .setroot idx => idx.toNat < Config.nodeCount
  | .encode => true
  | .decode => true
  | .abort => true

end Sys2Proof
end

