-- ==== Sys2Proof/Decode.lean ====
section
/-! DEFINITION. Command words to commands and back (spec/30_encoding.md R90-R96), the byte lanes of a word (spec/20_memory.md R62), and the
opcode map as a table of rows (R94). -/

namespace Sys2Proof

/-- `v[hi:lo]` of a 32-bit word, given as the low bit and the width (R9). -/
def wordField (v : Word) (lo width : Nat) : BitVec width := v.extractLsb' lo width

/-- SYM <= 0x100 (R93). -/
def symInRange (sym : Symbol) : Bool := sym.toNat < Config.symCount

/-- LEN <= 64 (R93). -/
def lenInRange (len : BitVec 7) : Bool := len.toNat ≤ Config.maxCodeLen

/-- IDX <= 512 (R93). -/
def idxInRange (idx : NodeIdx) : Bool := idx.toNat < Config.nodeCount

/-- OP, bits 31:28 (R90). -/
def opOf (w : Word) : BitVec 4 := wordField w 28 4

/-- SYM, bits 8:0 (R92). -/
def symOf (w : Word) : Symbol := wordField w 0 9

/-- LEN, bits 22:16 (R92). -/
def lenOf (w : Word) : BitVec 7 := wordField w 16 7

/-- IDX, bits 9:0 (R92). -/
def idxOf (w : Word) : NodeIdx := wordField w 0 10

/-- The reserved bits of each format, which must be 0 (R91, R96). -/
def reservedBits : Format → Word
  | .n => 0x0FFFFFFF#32
  | .s => 0x0FFFFE00#32
  | .l => 0x0F80FE00#32
  | .i => 0x0FFFFC00#32

/-- No reserved bit of the format is 1 (R96). -/
def reservedClear (f : Format) (w : Word) : Bool := w &&& reservedBits f == 0#32

/-- Format N: no operand (R91). -/
def decodeN (i : Instr) (w : Word) : Except Reject Instr :=
  if reservedClear .n w then .ok i else .error .reservedBit

/-- Format S: SYM, checked after the reserved bits (R91, R95). -/
def decodeS (mk : Symbol → Instr) (w : Word) : Except Reject Instr :=
  if !reservedClear .s w then .error .reservedBit
  else if !symInRange (symOf w) then .error .symRange
  else .ok (mk (symOf w))

/-- Format L: SYM, then LEN, checked after the reserved bits (R91, R95, R325). -/
def decodeL (mk : Symbol → BitVec 7 → Instr) (w : Word) : Except Reject Instr :=
  if !reservedClear .l w then .error .reservedBit
  else if !symInRange (symOf w) then .error .symRange
  else if !lenInRange (lenOf w) then .error .lenRange
  else .ok (mk (symOf w) (lenOf w))

/-- Format I: IDX, checked after the reserved bits (R91, R95). -/
def decodeI (mk : NodeIdx → Instr) (w : Word) : Except Reject Instr :=
  if !reservedClear .i w then .error .reservedBit
  else if !idxInRange (idxOf w) then .error .idxRange
  else .ok (mk (idxOf w))

/-- DecodeCmd (R95): total on 32-bit words, each refusal by its name. -/
def decodeCmd (w : Word) : Except Reject Instr :=
  match (opOf w).toNat with
  | 0 => decodeN .nop w
  | 1 => decodeN .clear w
  | 2 => decodeL .ldcode w
  | 3 => decodeS .rdcode w
  | 4 => decodeI .ldnode w
  | 5 => decodeI .rdnode w
  | 6 => decodeI .setroot w
  | 7 => decodeN .encode w
  | 8 => decodeN .decode w
  | 9 => decodeN .abort w
  | _ => .error .reservedOpcode

/-- The command word of a command: the words of R91 and R122. -/
def encode : Instr → Word
  | .nop => 0x00000000#32
  | .clear => 0x10000000#32
  | .ldcode sym len => 0x20000000#32 ||| (len.setWidth 32 <<< 16) ||| sym.setWidth 32
  | .rdcode sym => 0x30000000#32 ||| sym.setWidth 32
  | .ldnode idx => 0x40000000#32 ||| idx.setWidth 32
  | .rdnode idx => 0x50000000#32 ||| idx.setWidth 32
  | .setroot idx => 0x60000000#32 ||| idx.setWidth 32
  | .encode => 0x70000000#32
  | .decode => 0x80000000#32
  | .abort => 0x90000000#32

/-- The one word that is accepted while a job runs (R130). -/
def abortWord : Word := 0x90000000#32

/-- The byte of a word at offset +k: little-endian (R62). -/
def byteLane (w : Word) (k : Nat) : Byte := w.extractLsb' (8 * k) 8

/-- A word laid out in its four bytes, lowest offset first (R62; log entry 5). -/
def wordBytes (w : Word) : List Byte := [byteLane w 0, byteLane w 1, byteLane w 2, byteLane w 3]

/-- The word whose bytes at offsets +0 to +3 are these (R62). -/
def wordOfBytes (b0 b1 b2 b3 : Byte) : Word := b3 ++ b2 ++ b1 ++ b0

/-- The decoder on bytes: the first four are a command word, the rest is left over. Total on any list of bytes. -/
def decodeBytes : List Byte → Except Reject (Instr × List Byte)
  | b0 :: b1 :: b2 :: b3 :: rest =>
    match decodeCmd (wordOfBytes b0 b1 b2 b3) with
    | .ok i => .ok (i, rest)
    | .error r => .error r
  | _ => .error .tooShort

/-- The command of a table word of `nbits` bits, every higher bit 0: laid out in its bytes and given to the decoder. -/
def decodeTableWord (nbits w : Nat) : Option Instr :=
  match decodeBytes (wordBytes (BitVec.ofNat 32 (w % 2 ^ nbits))) with
  | .ok (i, _) => some i
  | .error _ => none

/-- A row of the opcode map: a word w selects it when `(w and mask) = pattern` (R94). -/
structure OpcodeRow where
  mnemonic : String
  pattern  : Word
  mask     : Word
  deriving DecidableEq, Repr

/-- The ten rows of the opcode map, in its order (R94). -/
def opcodeMap : List OpcodeRow :=
  [⟨"NOP", 0x00000000#32, 0xFFFFFFFF#32⟩,
   ⟨"CLEAR", 0x10000000#32, 0xFFFFFFFF#32⟩,
   ⟨"LDCODE", 0x20000000#32, 0xFF80FE00#32⟩,
   ⟨"RDCODE", 0x30000000#32, 0xFFFFFE00#32⟩,
   ⟨"LDNODE", 0x40000000#32, 0xFFFFFC00#32⟩,
   ⟨"RDNODE", 0x50000000#32, 0xFFFFFC00#32⟩,
   ⟨"SETROOT", 0x60000000#32, 0xFFFFFC00#32⟩,
   ⟨"ENCODE", 0x70000000#32, 0xFFFFFFFF#32⟩,
   ⟨"DECODE", 0x80000000#32, 0xFFFFFFFF#32⟩,
   ⟨"ABORT", 0x90000000#32, 0xFFFFFFFF#32⟩]

/-- The row of the opcode map that a command belongs to (R94). -/
def Instr.row : Instr → OpcodeRow
  | .nop => ⟨"NOP", 0x00000000#32, 0xFFFFFFFF#32⟩
  | .clear => ⟨"CLEAR", 0x10000000#32, 0xFFFFFFFF#32⟩
  | .ldcode _ _ => ⟨"LDCODE", 0x20000000#32, 0xFF80FE00#32⟩
  | .rdcode _ => ⟨"RDCODE", 0x30000000#32, 0xFFFFFE00#32⟩
  | .ldnode _ => ⟨"LDNODE", 0x40000000#32, 0xFFFFFC00#32⟩
  | .rdnode _ => ⟨"RDNODE", 0x50000000#32, 0xFFFFFC00#32⟩
  | .setroot _ => ⟨"SETROOT", 0x60000000#32, 0xFFFFFC00#32⟩
  | .encode => ⟨"ENCODE", 0x70000000#32, 0xFFFFFFFF#32⟩
  | .decode => ⟨"DECODE", 0x80000000#32, 0xFFFFFFFF#32⟩
  | .abort => ⟨"ABORT", 0x90000000#32, 0xFFFFFFFF#32⟩

/-- The word selects the row (R94). -/
def OpcodeRow.selects (r : OpcodeRow) (w : Word) : Bool := w &&& r.mask == r.pattern

/-- Two rows that no word selects both: they differ in a bit that both fix (R94). -/
def OpcodeRow.disjoint (a b : OpcodeRow) : Bool := (a.pattern ^^^ b.pattern) &&& (a.mask &&& b.mask) != 0#32

end Sys2Proof
end

