-- ==== Sys2Proof/Machine/State.lean ====
section
/-! DEFINITION. The state of HUFC (spec/10_state.md R20-R50), the reasons a step can stop, and the state after reset. -/

namespace Sys2Proof.Machine

/-- PHASE (R40). -/
inductive Phase where
  | idle
  | encFetch
  | encEmit
  | encPad
  | decWalk
  deriving DecidableEq, Repr

/-- STATUS.ERRCODE (R320): the codes 0 to 7 in order; the codes 8-15 are never produced (log entry 15). -/
inductive ErrCode where
  | none
  | encGap
  | truncated
  | badNode
  | badCode
  | badCmd
  | badArg
  | aborted
  deriving DecidableEq, Repr

/-- A CT entry; LEN = 0 means absent (R36, R102). -/
structure CodeEntry where
  len  : BitVec 7
  bits : BitVec 64
  deriving DecidableEq, Repr

/-- A node word read by its KIND (R100). -/
inductive NodeView where
  | empty
  | leaf (sym : Symbol)
  | internal (zero one : NodeIdx)
  | reserved
  deriving DecidableEq, Repr

/-- The state of the block (R20), and after it the model's own two fields. -/
structure State where
  /-- CTRL[2:0]: MSBF, IE_DONE, IE_ERR (R22). -/
  ctrl    : BitVec 3
  /-- STATUS.DONE (R23). -/
  done    : Bool
  /-- STATUS.ERR (R23). -/
  err     : Bool
  /-- STATUS.CMDOVR (R23). -/
  cmdovr  : Bool
  /-- STATUS.INOVR (R23). -/
  inovr   : Bool
  /-- STATUS.IEND (R23). -/
  iend    : Bool
  /-- STATUS.ERRCODE (R23, R320). -/
  errcode : ErrCode
  /-- ARG0 (R25). -/
  arg0    : Word
  /-- ARG1 (R26). -/
  arg1    : Word
  /-- ARG2 (R27). -/
  arg2    : Word
  /-- ROOT[9:0] (R28). -/
  root    : NodeIdx
  /-- BITCNT (R32). -/
  bitcnt  : Word
  /-- BITSIN (R33). -/
  bitsin  : Word
  /-- ERRINFO[9:0], INFO (R34). -/
  errinfo : BitVec 10
  /-- CT: the present entries, keyed by symbol (R36; log entry 6). -/
  ct      : List (Nat × CodeEntry)
  /-- NODE: the words other than EMPTY, keyed by node index (R37; log entry 6). -/
  node    : List (Nat × Word)
  /-- INQ, head first (R38). -/
  inq     : List Byte
  /-- OUTQ, head first (R39). -/
  outq    : List Byte
  /-- PHASE (R40). -/
  phase   : Phase
  /-- MSBF_L (R41). -/
  msbfL   : Bool
  /-- CUR_BITS (R42). -/
  curBits : BitVec 64
  /-- CUR_LEN (R42). -/
  curLen  : BitVec 7
  /-- CUR_POS (R42). -/
  curPos  : BitVec 7
  /-- CUR_LAST (R42). -/
  curLast : Bool
  /-- OACC, the partial output byte (R43). -/
  oacc    : Byte
  /-- OCNT, the bits already placed in OACC (R43). -/
  ocnt    : BitVec 3
  /-- IACC, the current input byte (R44). -/
  iacc    : Byte
  /-- ICNT, the bits of IACC not yet consumed (R44). -/
  icnt    : BitVec 4
  /-- PTR, the traversal pointer (R45). -/
  ptr     : NodeIdx
  /-- The model's own: the coming events in their order (R7, R70; log entry 1). -/
  pending : List Event
  /-- The model's own: the values the host's reads returned, oldest first (log entry 2). -/
  replies : List Word
  deriving DecidableEq, Repr

/-- Why the model stops. The block itself never stops (R64, R322): each of these is raised only in a state that no run from reset reaches
(log entry 7), so stopping there is safe. -/
inductive Fault where
  /-- DECODE and the decoder's walk raise it: ROOT, PTR or the child chosen is above 512, so the spec gives NODE no such word (R37). Safe. -/
  | noSuchNode
  /-- The encoder's emission and the unpacker raise it: CUR_POS >= CUR_LEN, CUR_LEN > 64 or ICNT > 8, so the bit asked for does not exist
  (R42, R44). Safe. -/
  | noSuchBit
  /-- The decoder's walk raises it: a node word of the reserved KIND 11 is stored, which LDNODE refuses (R37, R101). Safe. -/
  | reservedNode
  deriving DecidableEq, Repr

/-- Why an instruction has no meaning. No arm of exec refuses: every command of the opcode map has its meaning. -/
inductive Refusal where
  /-- An arm of exec without a meaning would raise it, by the mnemonic of the opcode table. Safe. -/
  | notModelled (mnemonic : String)
  deriving DecidableEq, Repr

/-- The block right after reset (R50, R360), with no event coming and no reply given (log entries 1, 2, 3). -/
def State.reset : State :=
  { ctrl := 0#3
    done := false
    err := false
    cmdovr := false
    inovr := false
    iend := false
    errcode := .none
    arg0 := 0#32
    arg1 := 0#32
    arg2 := 0#32
    root := 0#10
    bitcnt := 0#32
    bitsin := 0#32
    errinfo := 0#10
    ct := []
    node := []
    inq := []
    outq := []
    phase := .idle
    msbfL := false
    curBits := 0#64
    curLen := 0#7
    curPos := 0#7
    curLast := false
    oacc := 0#8
    ocnt := 0#3
    iacc := 0#8
    icnt := 0#4
    ptr := 0#10
    pending := []
    replies := [] }

end Sys2Proof.Machine
end

