-- ==== Sys2Proof/Machine/Ops.lean ====
section
/-! DEFINITION. The named operations over the memories, the FIFOs and the status flags of HUFC; completion and the error stop are each one
shared operation (spec/60_exceptions.md R321, R322), the host's acknowledgement of an error stands beside them (R328). -/

namespace Sys2Proof.Machine

/-- The answer of a step. -/
abbrev Result := Host.Outcome State Fault Refusal

/-! ### Memories: lists of (index, value) in one canonical form -/

/-- The value at an index; an index that is not listed holds `d`. -/
def tableRead {α : Type} (d : α) : List (Nat × α) → Nat → α
  | [], _ => d
  | (k, v) :: t, q => if k = q then v else tableRead d t q

/-- The list with `v` at `k`, in rising order of index. -/
def tableInsert {α : Type} (k : Nat) (v : α) : List (Nat × α) → List (Nat × α)
  | [] => [(k, v)]
  | (j, w) :: t => if k < j then (k, v) :: (j, w) :: t else if k = j then (k, v) :: t else (j, w) :: tableInsert k v t

/-- The list without an entry at `k`. -/
def tableErase {α : Type} (k : Nat) : List (Nat × α) → List (Nat × α)
  | [] => []
  | (j, w) :: t => if k = j then t else (j, w) :: tableErase k t

/-- The write that keeps the canonical form: writing what an unlisted index holds removes the entry. -/
def tableWrite {α : Type} [DecidableEq α] (d : α) (k : Nat) (v : α) (t : List (Nat × α)) : List (Nat × α) :=
  if v = d then tableErase k t else tableInsert k v t

/-- The indices are at least `lo` and strictly rising. -/
def tableRising {α : Type} (lo : Nat) : List (Nat × α) → Bool
  | [] => true
  | (k, _) :: t => decide (lo ≤ k) && tableRising (k + 1) t

/-- The canonical form: strictly rising indices below the bound, no entry equal to what an unlisted index holds. -/
def tableWf {α : Type} [DecidableEq α] (d : α) (bound : Nat) (t : List (Nat × α)) : Bool :=
  tableRising 0 t && t.all (fun c => decide (c.1 < bound) && decide (c.2 ≠ d))

/-- An absent CT entry (R36, R50; log entry 6). -/
def absentEntry : CodeEntry := { len := 0#7, bits := 0#64 }

/-- An EMPTY node word (R100). -/
def emptyNode : Word := 0x00000000#32

/-- CT[sym] (R36). -/
def codeAt (s : State) (sym : Symbol) : CodeEntry := tableRead absentEntry s.ct sym.toNat

/-- CT[sym] <- e (R164). -/
def setCode (sym : Symbol) (e : CodeEntry) (s : State) : State := { s with ct := tableWrite absentEntry sym.toNat e s.ct }

/-- The word stored at a node index 0-512 (R37). -/
def nodeWord (s : State) (idx : NodeIdx) : Word := tableRead emptyNode s.node idx.toNat

/-- NODE[idx], or none where the spec gives NODE no such index (R37). -/
def nodeAt (s : State) (idx : NodeIdx) : Option Word :=
  if idx.toNat < Config.nodeCount then some (nodeWord s idx) else none

/-- NODE[idx] <- w (R166). -/
def setNode (idx : NodeIdx) (w : Word) (s : State) : State := { s with node := tableWrite emptyNode idx.toNat w s.node }

/-- Both memories are in canonical form (log entry 6). -/
def Memory.wf (s : State) : Bool :=
  tableWf absentEntry Config.symCount s.ct && tableWf emptyNode Config.nodeCount s.node

/-! ### FIFOs (R38, R39; log entry 10) -/

/-- `full(INQ)` (R10). -/
def inqFull (s : State) : Bool := s.inq.length == Config.inqDepth

/-- `full(OUTQ)` (R10). -/
def outqFull (s : State) : Bool := s.outq.length == Config.outqDepth

/-- `push(INQ, b)` (R10). -/
def pushIn (b : Byte) (s : State) : State := { s with inq := s.inq ++ [b] }

/-- `push(OUTQ, b)` (R10). -/
def pushOut (b : Byte) (s : State) : State := { s with outq := s.outq ++ [b] }

/-! ### Completion, the error stop, and what clears them -/

/-- `BUSY = (PHASE != IDLE)` (R23). -/
def busy (s : State) : Bool := decide (s.phase ≠ .idle)

/-- The end of a command that completes in its own step (R162). -/
def complete (s : State) : State := { s with done := true }

/-- Done(): the successful end of a job (R321). -/
def jobDone (s : State) : State := { s with done := true, phase := .idle, iend := false }

/-- The three writes that every error makes (R322). -/
def recordError (code : ErrCode) (info : BitVec 10) (s : State) : State :=
  { s with err := true, errcode := code, errinfo := info }

/-- What an error does besides, when it ends a running job (R322). -/
def endJob (s : State) : State := { s with phase := .idle, iend := false }

/-- `raise Error(code, info)`, the error stop (R322): the one way an error is taken. -/
def raiseError (code : ErrCode) (info : BitVec 10) (s : State) : State :=
  if busy s then endJob (recordError code info s) else recordError code info s

/-- What the acceptance of any command clears (R130). -/
def acceptClear (s : State) : State :=
  { s with done := false, err := false, errcode := .none, errinfo := 0#10 }

/-- STATUS write-1-to-clear, the host's acknowledgement (R134, R328). -/
def statusWrite (v : Word) (s : State) : State :=
  { s with
    done := s.done && !v.getLsbD 1
    err := s.err && !v.getLsbD 2
    errcode := if v.getLsbD 2 then .none else s.errcode
    cmdovr := s.cmdovr && !v.getLsbD 3
    inovr := s.inovr && !v.getLsbD 4 }

/-- CmdDrop (R131). -/
def cmdDrop (s : State) : State := { s with cmdovr := true }

/-! ### Whole-block operations -/

/-- The writes of CLEAR but for its completion (R161). -/
def clearBlock (s : State) : State :=
  { s with
    ct := []
    node := []
    root := 0#10
    ptr := 0#10
    inq := []
    outq := []
    iend := false
    oacc := 0#8
    ocnt := 0#3
    iacc := 0#8
    icnt := 0#4
    curBits := 0#64
    curLen := 0#7
    curPos := 0#7
    curLast := false
    msbfL := false
    bitcnt := 0#32
    bitsin := 0#32
    cmdovr := false
    inovr := false }

/-- The reset event: every piece of the block's state takes its reset value; the coming events and the replies given are not the block's
(R50, R360; log entry 9). -/
def resetBlock (s : State) : State := { State.reset with pending := s.pending, replies := s.replies }

/-- CTRL.MSBF (R22). -/
def ctrlMsbf (s : State) : Bool := s.ctrl.getLsbD 0

/-- The writes of an accepted ENCODE (R201). -/
def startEncode (s : State) : State :=
  { s with
    msbfL := ctrlMsbf s
    oacc := 0#8
    ocnt := 0#3
    bitcnt := 0#32
    curBits := 0#64
    curLen := 0#7
    curPos := 0#7
    curLast := false
    phase := .encFetch }

/-- The writes of an accepted DECODE whose root is not EMPTY (R241). -/
def startDecode (s : State) : State :=
  { s with
    msbfL := ctrlMsbf s
    iacc := 0#8
    icnt := 0#4
    bitsin := 0#32
    ptr := s.root
    phase := .decWalk }

/-! ### The order of events and the replies -/

/-- The state once its first coming event has been taken (log entry 1). -/
def takeEvent (rest : List Event) (s : State) : State := { s with pending := rest }

/-- The state once a host read has been answered with `v` (log entry 2). -/
def reply (v : Word) (s : State) : State := { s with replies := s.replies ++ [v] }

end Sys2Proof.Machine
end

