-- ==== Sys2Proof/Machine/Operands.lean ====
section
/-! DEFINITION. The operands of the commands beside their word (spec/30_encoding.md R92, R100-R102), the order of bits in a byte of the packed
stream (spec/20_memory.md R63), and how a bus offset names a register (spec/20_memory.md R61, R64). -/

namespace Sys2Proof.Machine

/-- CODE = ARG1 : ARG0 (R92). -/
def stagedCode (s : State) : BitVec 64 := s.arg1 ++ s.arg0

/-- CodeLegal(LEN, CODE), the part LDCODE checks: no bit of the code at or above LEN is 1 (R102, R164). -/
def codeLegal (len : BitVec 7) (code : BitVec 64) : Bool := code >>> len.toNat == 0#64

/-- KIND, bits 31:30 of a node word (R100). -/
def nodeKind (w : Word) : BitVec 2 := wordField w 30 2

/-- SYM, bits 8:0 of a LEAF word (R100). -/
def leafSym (w : Word) : Symbol := wordField w 0 9

/-- ZERO, bits 9:0 of an INTERNAL word (R100). -/
def zeroChild (w : Word) : NodeIdx := wordField w 0 10

/-- ONE, bits 19:10 of an INTERNAL word (R100). -/
def oneChild (w : Word) : NodeIdx := wordField w 10 10

/-- A node word by its KIND (R100). -/
def nodeView (w : Word) : NodeView :=
  match (nodeKind w).toNat with
  | 0 => .empty
  | 1 => .leaf (leafSym w)
  | 2 => .internal (zeroChild w) (oneChild w)
  | _ => .reserved

/-- NodeWordLegal(w) (R101). -/
def nodeWordLegal (w : Word) : Bool :=
  match (nodeKind w).toNat with
  | 0 => w == 0x00000000#32
  | 1 => wordField w 9 21 == 0#21 && symInRange (leafSym w)
  | 2 => wordField w 20 10 == 0#10 && idxInRange (zeroChild w) && idxInRange (oneChild w)
  | _ => false

/-- The LEAF word of a symbol (R100). -/
def leafWord (sym : Symbol) : Word := 0x40000000#32 ||| sym.setWidth 32

/-- The INTERNAL word of two children (R100). -/
def internalWord (zero one : NodeIdx) : Word := 0x80000000#32 ||| (one.setWidth 32 <<< 10) ||| zero.setWidth 32

/-- Where bit j of a byte of the stream stands: bit j, or bit 7-j with MSB-first order (R63). -/
def bitPlace (msbf : Bool) (j : Nat) : Nat := if msbf then 7 - j else j

/-- `v[i] <- x` on a byte. -/
def setBit (v : Byte) (i : Nat) (x : Bool) : Byte :=
  if x then v ||| (1#8 <<< i) else v &&& ~~~(1#8 <<< i)

/-- The register at a window offset, when the access is an aligned 32-bit one (R64 and the register map of spec/10_state.md). -/
def regAt (off : BitVec 6) (size : Nat) : Option Reg :=
  if size = 4 then
    match off.toNat with
    | 0x00 => some .id
    | 0x04 => some .ctrl
    | 0x08 => some .status
    | 0x0C => some .cmd
    | 0x10 => some .arg0
    | 0x14 => some .arg1
    | 0x18 => some .arg2
    | 0x1C => some .root
    | 0x20 => some .inData
    | 0x24 => some .inEnd
    | 0x28 => some .outData
    | 0x2C => some .bitcnt
    | 0x30 => some .bitsin
    | 0x34 => some .errinfo
    | 0x38 => some .reserved38
    | 0x3C => some .reserved3C
    | _ => none
  else none

/-- The offset of a register (register map of spec/10_state.md). -/
def regOffset : Reg → BitVec 6
  | .id => 0x00#6
  | .ctrl => 0x04#6
  | .status => 0x08#6
  | .cmd => 0x0C#6
  | .arg0 => 0x10#6
  | .arg1 => 0x14#6
  | .arg2 => 0x18#6
  | .root => 0x1C#6
  | .inData => 0x20#6
  | .inEnd => 0x24#6
  | .outData => 0x28#6
  | .bitcnt => 0x2C#6
  | .bitsin => 0x30#6
  | .errinfo => 0x34#6
  | .reserved38 => 0x38#6
  | .reserved3C => 0x3C#6

/-- The window offset of a bus address, when it is the block's (R61). -/
def windowOffset (a : Nat) : Option (BitVec 6) :=
  if Config.hufBase ≤ a ∧ a - Config.hufBase < Config.windowSize then some (BitVec.ofNat 6 (a - Config.hufBase)) else none

end Sys2Proof.Machine
end

