-- ==== Sys2Proof/Machine/Flags.lean ====
section
/-! DEFINITION. Every flag the block computes: the STATUS word (spec/10_state.md R23), the interrupt output (R48), the holds of the engine
(spec/42_encode.md R207, spec/43_decode.md R242, R247). -/

namespace Sys2Proof.Machine

/-- STATUS.MODE: 00 idle, 01 encode job, 10 decode job (R23). -/
def modeBits : Phase → BitVec 2
  | .idle => 0#2
  | .encFetch => 1#2
  | .encEmit => 1#2
  | .encPad => 1#2
  | .decWalk => 2#2

/-- The number of an error code (R320). -/
def errBits : ErrCode → BitVec 4
  | .none => 0#4
  | .encGap => 1#4
  | .truncated => 2#4
  | .badNode => 3#4
  | .badCode => 4#4
  | .badCmd => 5#4
  | .badArg => 6#4
  | .aborted => 7#4

/-- The STATUS word at the moment of a read, bits 31:26 down to bit 0 (R23, R135). -/
def statusWord (s : State) : Word :=
  0#6 ++ BitVec.ofNat 5 s.outq.length ++ BitVec.ofNat 5 s.inq.length ++ errBits s.errcode ++ modeBits s.phase
    ++ BitVec.ofBool (outqFull s) ++ BitVec.ofBool s.outq.isEmpty ++ BitVec.ofBool (inqFull s) ++ BitVec.ofBool s.inq.isEmpty
    ++ BitVec.ofBool s.iend ++ BitVec.ofBool s.inovr ++ BitVec.ofBool s.cmdovr ++ BitVec.ofBool s.err ++ BitVec.ofBool s.done
    ++ BitVec.ofBool (busy s)

/-- CTRL.IE_DONE (R22). -/
def ieDone (s : State) : Bool := s.ctrl.getLsbD 1

/-- CTRL.IE_ERR (R22). -/
def ieErr (s : State) : Bool := s.ctrl.getLsbD 2

/-- The level output IRQ (R48, R324). -/
def irq (s : State) : Bool := (ieDone s && s.done) || (ieErr s && s.err)

/-- Avail: a bit of the packed stream is there (R242). -/
def avail (s : State) : Bool := decide (0 < s.icnt.toNat) || !s.inq.isEmpty

/-- AtEnd, the source's `atEnd()` for the decoder (R137, R242). -/
def atEnd (s : State) : Bool := !avail s && s.iend

/-- PackBit would push into a full OUTQ: the output hold of the encoder (R204, R207). -/
def packHold (s : State) : Bool := decide (s.ocnt = 7#3) && outqFull s

/-- The encoder waits for input (R203, R207). -/
def encInputHold (s : State) : Bool := s.inq.isEmpty && !s.iend

/-- The decoder waits for input (R242, R247). -/
def decInputHold (s : State) : Bool := !avail s && !s.iend

end Sys2Proof.Machine
end

