-- ==== Sys2Proof/Machine/Decoder.lean ====
section
/-! DEFINITION. DECODE, the decoder's walk and the bit unpacker (spec/43_decode.md R240-R247). -/

namespace Sys2Proof.Machine

/-- DECODE: start a decode job, or BAD_NODE on an EMPTY root (R241). -/
def execDecode (s : State) : Result :=
  match nodeAt s s.root with
  | none => .fault .noSuchNode
  | some w => if nodeView w = .empty then .next (raiseError .badNode s.root s) else .next (startDecode s)

/-- The bit of a byte of which `cnt` bits are left (R242, R243). -/
def unpackedBit (msbf : Bool) (byte : Byte) (cnt : Nat) : Bool :=
  if msbf then byte.getLsbD (cnt - 1) else byte.getLsbD (8 - cnt)

/-- PeekBit(), which requires Avail (R242); without a byte it is used nowhere. -/
def peekBit (s : State) : Bool :=
  if 0 < s.icnt.toNat then unpackedBit s.msbfL s.iacc s.icnt.toNat
  else unpackedBit s.msbfL (s.inq.headD 0#8) 8

/-- The load of the next byte that NextBit makes when the current one is used up (R243). -/
def loadByte (s : State) : State :=
  if s.icnt = 0#4 then { s with iacc := s.inq.headD 0#8, inq := s.inq.tail, icnt := 8#4 } else s

/-- NextBit(), which requires Avail: the bit and the state after it (R243). -/
def nextBit (s : State) : Bool × State :=
  let t := loadByte s
  (unpackedBit t.msbfL t.iacc t.icnt.toNat, { t with icnt := t.icnt - 1#4, bitsin := t.bitsin + 1#32 })

/-- The state after NextBit(). -/
def consumeBit (s : State) : State := (nextBit s).2

/-- The walk reaches node t by the next bit: the second half of DecStep, from `m <- NODE[t]` (R244, R246). -/
def walkTo (t : NodeIdx) (s : State) : Result :=
  match nodeAt s t with
  | none => .fault .noSuchNode
  | some w =>
    match nodeView w with
    | .empty => .next (raiseError .badNode t (consumeBit s))
    | .leaf sym =>
      if sym = Config.pseudoEof then .next (jobDone { consumeBit s with icnt := 0#4 })
      else if outqFull s then .next s
      else .next { pushOut (sym.setWidth 8) (consumeBit s) with ptr := s.root }
    | .internal _ _ => .next { consumeBit s with ptr := t }
    | .reserved => .fault .reservedNode

/-- The walk with a bit there: the first half of DecStep, from `x <- PeekBit()` (R244, R245). -/
def walkBit (s : State) : Result :=
  match nodeAt s s.ptr with
  | none => .fault .noSuchNode
  | some w =>
    match nodeView w with
    | .empty => .next (raiseError .badNode s.ptr (consumeBit s))
    | .leaf _ =>
      if peekBit s then .next (raiseError .badCode s.ptr (consumeBit s)) else walkTo s.ptr s
    | .internal zero one => walkTo (if peekBit s then one else zero) s
    | .reserved => .fault .reservedNode

/-- Step DEC_WALK (R244). More bits left than a byte has is no state of a run (log entry 7). -/
def stepDecWalk (s : State) : Result :=
  if !avail s then
    if s.iend then .next (raiseError .truncated s.ptr s) else .next s
  else if 8 < s.icnt.toNat then .fault .noSuchBit
  else walkBit s

end Sys2Proof.Machine
end

