-- ==== Sys2Proof/Machine/Encoder.lean ====
section
/-! DEFINITION. ENCODE, the encoder's steps and the bit packer (spec/42_encode.md R200-R207). -/

namespace Sys2Proof.Machine

/-- ENCODE: start an encode job (R201). -/
def execEncode (s : State) : Result := .next (startEncode s)

/-- PackBit(x), once its enabling condition holds (R204). -/
def packBit (x : Bool) (s : State) : State :=
  let acc := setBit s.oacc (bitPlace s.msbfL s.ocnt.toNat) x
  if s.ocnt = 7#3 then { pushOut acc s with oacc := 0#8, ocnt := 0#3 }
  else { s with oacc := acc, ocnt := s.ocnt + 1#3 }

/-- The code of a symbol becomes the current code; an absent one is the encode gap (R202, R203). -/
def fetchCode (sym : Symbol) (last : Bool) (s : State) : State :=
  let e := codeAt s sym
  if e.len = 0#7 then raiseError .encGap (sym.setWidth 10) s
  else { s with curBits := e.bits, curLen := e.len, curPos := 0#7, curLast := last, phase := .encEmit }

/-- Step ENC_FETCH: an input byte (R202), else the end of input or a hold (R203). -/
def stepEncFetch (s : State) : Result :=
  match s.inq with
  | b :: rest => .next (fetchCode (b.setWidth 9) false { s with inq := rest })
  | [] => if s.iend then .next (fetchCode Config.pseudoEof true s) else .next s

/-- The next bit of the current code, `CUR_BITS[CUR_LEN - 1 - CUR_POS]` (R205). -/
def nextCodeBit (s : State) : Bool := s.curBits.getLsbD (s.curLen.toNat - 1 - s.curPos.toNat)

/-- The phase after the bit at CUR_POS (R205). -/
def phaseAfterBit (s : State) : Phase :=
  if s.curPos + 1#7 = s.curLen then (if s.curLast then .encPad else .encFetch) else .encEmit

/-- The writes of ENC_EMIT when it does not hold (R205). -/
def emitBit (s : State) : State :=
  { packBit (nextCodeBit s) s with
    bitcnt := s.bitcnt + 1#32
    curPos := s.curPos + 1#7
    phase := phaseAfterBit s }

/-- Step ENC_EMIT (R205). A position without a bit is no state of a run (log entry 7). -/
def stepEncEmit (s : State) : Result :=
  if packHold s then .next s
  else if s.curPos.toNat < s.curLen.toNat ∧ s.curLen.toNat ≤ Config.maxCodeLen then .next (emitBit s)
  else .fault .noSuchBit

/-- Step ENC_PAD (R206). -/
def stepEncPad (s : State) : Result :=
  if s.ocnt = 0#3 then .next (jobDone s)
  else if packHold s then .next s
  else .next (packBit false s)

end Sys2Proof.Machine
end

