-- ==== Sys2Proof/Machine/TableCommands.lean ====
section
/-! DEFINITION. The table and control commands (spec/41_table_commands.md R160-R169). Each meaning is the command's own rule, run in the step
of its acceptance after R130 has cleared DONE, ERR, ERRCODE and ERRINFO. An operand out of range, which the decoder never hands over, fails
with BAD_CMD here as well (R93; log entry 8). -/

namespace Sys2Proof.Machine

/-- A command that fails with BAD_CMD (R93, R130). -/
def badCommand (s : State) : State := raiseError .badCmd 0#10 s

/-- NOP (R160). -/
def execNop (s : State) : Result := .next (complete s)

/-- CLEAR (R161). -/
def execClear (s : State) : Result := .next (complete (clearBlock s))

/-- LDCODE sym, len (R164). -/
def execLdcode (sym : Symbol) (len : BitVec 7) (s : State) : Result :=
  if !(symInRange sym && lenInRange len) then .next (badCommand s)
  else if !codeLegal len (stagedCode s) then .next (raiseError .badArg (sym.setWidth 10) s)
  else .next (complete (setCode sym { len := len, bits := stagedCode s } s))

/-- ARG0, ARG1, ARG2 take what RDCODE reads of an entry (R165). -/
def reportCode (e : CodeEntry) (s : State) : State :=
  if e.len = 0#7 then { s with arg0 := 0#32, arg1 := 0#32, arg2 := 0#32 }
  else { s with arg0 := e.bits.extractLsb' 0 32, arg1 := e.bits.extractLsb' 32 32, arg2 := e.len.setWidth 32 }

/-- RDCODE sym (R165). -/
def execRdcode (sym : Symbol) (s : State) : Result :=
  if !symInRange sym then .next (badCommand s)
  else .next (complete (reportCode (codeAt s sym) s))

/-- LDNODE idx (R166). -/
def execLdnode (idx : NodeIdx) (s : State) : Result :=
  if !idxInRange idx then .next (badCommand s)
  else if !nodeWordLegal s.arg0 then .next (raiseError .badArg idx s)
  else .next (complete (setNode idx s.arg0 s))

/-- RDNODE idx (R167). -/
def execRdnode (idx : NodeIdx) (s : State) : Result :=
  if !idxInRange idx then .next (badCommand s)
  else .next (complete { s with arg0 := nodeWord s idx })

/-- SETROOT idx (R168). -/
def execSetroot (idx : NodeIdx) (s : State) : Result :=
  if !idxInRange idx then .next (badCommand s)
  else .next (complete { s with root := idx })

/-- ABORT (R169). -/
def execAbort (s : State) : Result :=
  if busy s then .next (raiseError .aborted 0#10 s) else .next (complete s)

end Sys2Proof.Machine
end

