-- ==== Sys2Proof/Machine/Dispatch.lean ====
section
/-! DEFINITION. The meaning of each command, one arm per constructor (spec/30_encoding.md R94). -/

namespace Sys2Proof.Machine

def exec (i : Instr) (s : State) : Host.Outcome State Fault Refusal :=
  match i with
  | .nop => Sys2Proof.Machine.execNop s
  | .clear => Sys2Proof.Machine.execClear s
  | .ldcode sym len => Sys2Proof.Machine.execLdcode sym len s
  | .rdcode sym => Sys2Proof.Machine.execRdcode sym s
  | .ldnode idx => Sys2Proof.Machine.execLdnode idx s
  | .rdnode idx => Sys2Proof.Machine.execRdnode idx s
  | .setroot idx => Sys2Proof.Machine.execSetroot idx s
  | .encode => Sys2Proof.Machine.execEncode s
  | .decode => Sys2Proof.Machine.execDecode s
  | .abort => Sys2Proof.Machine.execAbort s

end Sys2Proof.Machine
end

