-- ==== Sys2Proof/Machine/Engine.lean ====
section
/-! DEFINITION. One turn of the engine (spec/00_scope.md R7, R11): the step of the phase it is in. A held or idle engine has no step, and
its turn leaves the state as it is (log entry 11). -/

namespace Sys2Proof.Machine

/-- The engine's turn (R40, R202-R206, R244). -/
def engineStep (s : State) : Result :=
  match s.phase with
  | .idle => .next s
  | .encFetch => stepEncFetch s
  | .encEmit => stepEncEmit s
  | .encPad => stepEncPad s
  | .decWalk => stepDecWalk s

/-- The next bit would emit the symbol of a leaf other than PSEUDO_EOF (R244, R247). -/
def nextBitEmits (s : State) : Bool :=
  match nodeView (nodeWord s s.ptr) with
  | .leaf sym => !peekBit s && decide (sym ≠ Config.pseudoEof)
  | .internal zero one =>
    match nodeView (nodeWord s (if peekBit s then one else zero)) with
    | .leaf sym => decide (sym ≠ Config.pseudoEof)
    | _ => false
  | _ => false

/-- The engine has no enabled step: it is idle or one of the holds of R207 and R247 holds. -/
def engineHeld (s : State) : Bool :=
  match s.phase with
  | .idle => true
  | .encFetch => encInputHold s
  | .encEmit => packHold s
  | .encPad => packHold s
  | .decWalk => decInputHold s || (avail s && nextBitEmits s && outqFull s)

end Sys2Proof.Machine
end

