-- ==== Sys2Proof/Machine/Bus.lean ====
section
/-! DEFINITION. The host's register accesses and the acceptance of commands (spec/40_host_access.md R130-R140). -/

namespace Sys2Proof.Machine

/-- The accepted word is decoded and runs; a word that is no command fails with BAD_CMD (R130). -/
def runCommand (w : Word) (s : State) : Result :=
  match decodeCmd w with
  | .ok i => exec i s
  | .error _ => .next (badCommand s)

/-- CmdWrite: acceptance, or the drop while a job runs (R130, R131). -/
def cmdWrite (w : Word) (s : State) : Result :=
  if busy s && w != abortWord then .next (cmdDrop s) else runCommand w (acceptClear s)

/-- InWrite: push an input byte, or drop it (R136). -/
def inWrite (v : Word) (s : State) : State :=
  if inqFull s then { s with inovr := true } else pushIn (v.setWidth 8) s

/-- INEND write (R137). -/
def inendWrite (v : Word) (s : State) : State := { s with iend := s.iend || v.getLsbD 0 }

/-- OutRead: the word read and the state after the pop (R138). -/
def outRead (s : State) : Word × State :=
  match s.outq with
  | [] => (0x00000000#32, s)
  | b :: rest => (0x80000000#32 ||| b.setWidth 32, { s with outq := rest })

/-- A read of a register: the value and the state after it (R132-R140). -/
def readReg (r : Reg) (s : State) : Word × State :=
  match r with
  | .id => (Config.idValue, s)
  | .ctrl => (s.ctrl.setWidth 32, s)
  | .status => (statusWord s, s)
  | .cmd => (0#32, s)
  | .arg0 => (s.arg0, s)
  | .arg1 => (s.arg1, s)
  | .arg2 => (s.arg2, s)
  | .root => (s.root.setWidth 32, s)
  | .inData => (0#32, s)
  | .inEnd => (0#32, s)
  | .outData => outRead s
  | .bitcnt => (s.bitcnt, s)
  | .bitsin => (s.bitsin, s)
  | .errinfo => (s.errinfo.setWidth 32, s)
  | .reserved38 => (0#32, s)
  | .reserved3C => (0#32, s)

/-- A write of a register (R130-R140). -/
def writeReg (r : Reg) (v : Word) (s : State) : Result :=
  match r with
  | .id => .next s
  | .ctrl => .next { s with ctrl := v.setWidth 3 }
  | .status => .next (statusWrite v s)
  | .cmd => cmdWrite v s
  | .arg0 => .next { s with arg0 := v }
  | .arg1 => .next { s with arg1 := v }
  | .arg2 => .next { s with arg2 := v }
  | .root => .next s
  | .inData => .next (inWrite v s)
  | .inEnd => .next (inendWrite v s)
  | .outData => .next s
  | .bitcnt => .next s
  | .bitsin => .next s
  | .errinfo => .next s
  | .reserved38 => .next s
  | .reserved3C => .next s

/-- A bus read: the register's value, or 0 without any effect where the access is no aligned 32-bit one (R64). -/
def busRead (off : BitVec 6) (size : Nat) (s : State) : State :=
  match regAt off size with
  | some r => reply (readReg r s).1 (readReg r s).2
  | none => reply 0#32 s

/-- A bus write: the register's effect, or none where the access is no aligned 32-bit one (R64). -/
def busWrite (off : BitVec 6) (size : Nat) (v : Word) (s : State) : Result :=
  match regAt off size with
  | some r => writeReg r v s
  | none => .next s

/-- One host step (R7). -/
def hostStep (a : Access) (s : State) : Result :=
  match a with
  | .read off size => .next (busRead off size s)
  | .write off size v => busWrite off size v s

/-- `rd REG` (R121). -/
def rd (r : Reg) : Access := .read (regOffset r) 4

/-- `wr REG, v` (R121). -/
def wr (r : Reg) (v : Word) : Access := .write (regOffset r) 4 v

/-- The event taken (R7, R360). -/
def eventStep (e : Event) (s : State) : Result :=
  match e with
  | .host a => hostStep a s
  | .engine => engineStep s
  | .reset => .next (resetBlock s)

/-- The host issues a bus access at bus address `a`, to come after the events already pending: an access outside the window is not the
block's (R61). -/
def issueRead (a size : Nat) (s : State) : State :=
  match windowOffset a with
  | some off => { s with pending := s.pending ++ [.host (.read off size)] }
  | none => s

/-- The host issues a bus write at bus address `a` (R61). -/
def issueWrite (a size : Nat) (v : Word) (s : State) : State :=
  match windowOffset a with
  | some off => { s with pending := s.pending ++ [.host (.write off size v)] }
  | none => s

end Sys2Proof.Machine
end

