-- ==== Sys2Proof/Machine/Step.lean ====
section
/-! DEFINITION. One step of the machine: the first coming event is taken; with none coming, the engine moves (spec/20_memory.md R70;
log entries 1, 12). -/

namespace Sys2Proof.Machine

/-- One atomic step (R7, R11, R70). -/
def step (s : State) : Host.Outcome State Fault Refusal :=
  match s.pending with
  | [] => engineStep s
  | e :: rest => eventStep e (takeEvent rest s)

/-- The command word `w` of `nbits` bits, every higher bit 0, as the very next event: the host's write of it to CMD (R90; log entry 3). -/
def State.withFetchWord (s : State) (nbits w : Nat) : State :=
  takeEvent (.host (wr .cmd (BitVec.ofNat 32 (w % 2 ^ nbits))) :: s.pending) s

end Sys2Proof.Machine
end

