-- ==== Sys2Proof/Safety.lean ====
section
/-! DEFINITION. The terms the statements use: the invariant of every reachable state (spec/10_state.md R49), the end of a job
(spec/40_host_access.md R141), and the packed stream as a sequence of bits (spec/20_memory.md R63, spec/10_state.md R36). -/

namespace Sys2Proof.Machine

/-! ### The packed stream -/

/-- The eight bits a byte carries, in the order of the stream (R63). -/
def byteBits (msbf : Bool) (b : Byte) : List Bool := (List.range 8).map (fun j => b.getLsbD (bitPlace msbf j))

/-- The bits of a sequence of bytes, in the order of the stream (R63). -/
def streamBits (msbf : Bool) (bytes : List Byte) : List Bool := bytes.flatMap (byteBits msbf)

/-- The bits the packer holds of its partial byte (R43). -/
def partialBits (s : State) : List Bool := (byteBits s.msbfL s.oacc).take s.ocnt.toNat

/-- Every bit packed and not yet popped by the host: OUTQ, then the partial byte. -/
def packedBits (s : State) : List Bool := streamBits s.msbfL s.outq ++ partialBits s

/-- The bits of IACC not yet consumed (R44). -/
def heldBits (s : State) : List Bool := (byteBits s.msbfL s.iacc).drop (8 - s.icnt.toNat)

/-- Every bit of the packed stream that the unpacker can still consume: IACC, then INQ. -/
def inputBits (s : State) : List Bool := heldBits s ++ streamBits s.msbfL s.inq

/-- The code of an entry in emission order, `BITS[LEN-1], ..., BITS[0]` (R36). -/
def codeBits (e : CodeEntry) : List Bool := (List.range e.len.toNat).map (fun i => e.bits.getLsbD (e.len.toNat - 1 - i))

/-- The bits of the current code not yet emitted (R42). -/
def restOfCode (s : State) : List Bool := (codeBits { len := s.curLen, bits := s.curBits }).drop s.curPos.toNat

/-! ### The invariant -/

/-- A present CT entry is legal: 1 <= LEN <= 64 and no bit at or above LEN (R36). -/
def entryLegal (e : CodeEntry) : Bool := decide (0 < e.len.toNat) && lenInRange e.len && codeLegal e.len e.bits

/-- The node word is INTERNAL (R100). -/
def isInternal (w : Word) : Bool := nodeKind w == 2#2

/-- The node word is a LEAF (R100). -/
def isLeaf (w : Word) : Bool := nodeKind w == 1#2

/-- What holds in every reachable state (R49 with R23, R36, R37, R42, R45). -/
structure StateInv (s : State) : Prop where
  /-- Both memories are in canonical form (the model's; log entry 6). -/
  memories   : Memory.wf s = true
  /-- Every present CT entry is one LDCODE accepts (R36). -/
  codesLegal : ∀ c ∈ s.ct, entryLegal c.2 = true
  /-- Every stored node word is one LDNODE accepts (R37). -/
  nodesLegal : ∀ c ∈ s.node, nodeWordLegal c.2 = true
  /-- |INQ| <= 16 (R49). -/
  inqBound   : s.inq.length ≤ Config.inqDepth
  /-- |OUTQ| <= 16 (R49). -/
  outqBound  : s.outq.length ≤ Config.outqDepth
  /-- ICNT <= 8 (R49). -/
  icntBound  : s.icnt.toNat ≤ 8
  /-- ROOT is a node index (R28). -/
  rootBound  : s.root.toNat < Config.nodeCount
  /-- PTR is a node index (R45). -/
  ptrBound   : s.ptr.toNat < Config.nodeCount
  /-- CUR_LEN <= 64 and CUR_POS <= CUR_LEN (R42). -/
  codeBound  : s.curPos.toNat ≤ s.curLen.toNat ∧ s.curLen.toNat ≤ Config.maxCodeLen
  /-- While a code is emitted a bit of it is left (R49). -/
  emitting   : s.phase = .encEmit → s.curPos.toNat < s.curLen.toNat
  /-- While the tree is walked the walk stands at an INTERNAL node, or at the root that is a LEAF (R49). -/
  walking    : s.phase = .decWalk →
                 isInternal (nodeWord s s.ptr) = true ∨ (s.ptr = s.root ∧ isLeaf (nodeWord s s.root) = true)
  /-- While the tree is walked its root is not EMPTY (R241, R74). -/
  rooted     : s.phase = .decWalk → isInternal (nodeWord s s.root) = true ∨ isLeaf (nodeWord s s.root) = true
  /-- DONE and ERR are never both 1 (R23). -/
  oneOutcome : ¬(s.done = true ∧ s.err = true)
  /-- ERRCODE is 0 exactly when ERR = 0 (R23, R320). -/
  codeOfErr  : s.err = false ↔ s.errcode = .none
  /-- DONE and ERR stay 0 while a job runs (R201, R241). -/
  undecided  : busy s = true → s.done = false ∧ s.err = false

/-! ### The end of a job -/

/-- The job has ended well (R141). -/
def endedWell (s : State) : Bool := !busy s && s.done

/-- The job has ended with an error (R141). -/
def endedInError (s : State) : Bool := !busy s && s.err

/-- `n` steps of the machine, stopping at the first fault or refusal; where no event is to come they are the engine's alone (R11, R70). -/
def engineRun : Nat → State → Result
  | 0, s => .next s
  | n + 1, s =>
    match step s with
    | .next t => engineRun n t
    | .fault r => .fault r
    | .refused r => .refused r

end Sys2Proof.Machine
end

