-- ==== Sys2Proof/Machine/HostReference.lean ====
section
/-! DEFINITION. The host's side of the spec as pure functions: the host-script notation (spec/30_encoding.md R120-R123) and the reference
procedure (spec/44_host_reference.md R281-R301). None of it is state or a step of the block (R6, R20, R280; log entry 14). -/

namespace Sys2Proof.Machine

/-! ### Host scripts: lists of bus accesses -/

/-- A command mnemonic: one write of its word to CMD (R122). -/
def command (i : Instr) : Access := wr .cmd (encode i)

/-- A code string read as a binary numeral, first bit most significant (R123, R288). -/
def codeNumeral (p : List Bool) : BitVec 64 := BitVec.ofNat 64 (p.foldl (fun n b => 2 * n + b.toNat) 0)

/-- The word `LDCODE sym, n`, whatever n is: a length above 64 makes a word the block refuses (R122, R288). -/
def ldcodeWord (sym : Symbol) (n : Nat) : Word := 0x20000000#32 ||| (BitVec.ofNat 32 n <<< 16) ||| sym.setWidth 32

/-- `code sym, "b1...bn"` (R123). -/
def codeScript (sym : Symbol) (p : List Bool) : List Access :=
  [wr .arg0 ((codeNumeral p).extractLsb' 0 32), wr .arg1 ((codeNumeral p).extractLsb' 32 32), wr .cmd (ldcodeWord sym p.length)]

/-- `nocode sym` (R123). -/
def nocodeScript (sym : Symbol) : List Access := [wr .arg0 0#32, wr .arg1 0#32, command (.ldcode sym 0#7)]

/-- `leaf idx, sym` (R123). -/
def leafScript (idx : NodeIdx) (sym : Symbol) : List Access := [wr .arg0 (leafWord sym), command (.ldnode idx)]

/-- `inner idx, z, o` (R123). -/
def innerScript (idx zero one : NodeIdx) : List Access := [wr .arg0 (internalWord zero one), command (.ldnode idx)]

/-- `push b` (R123). -/
def pushScript (b : Byte) : List Access := [wr .inData (b.setWidth 32)]

/-- `end` (R123). -/
def endScript : List Access := [wr .inEnd 1#32]

/-- `pop` and `popnone`, whose expected value is a check of the script (R121, R123). -/
def popScript : List Access := [rd .outData]

/-- `ack` (R123). -/
def ackScript : List Access := [wr .status 0x1E#32]

/-- One round of `wait`; the host repeats it while bit 0 of the reply is 1 (R123). -/
def waitRound : List Access := [rd .status]

/-- The state whose coming events are the accesses of the script, after those already pending. -/
def issueScript (script : List Access) (s : State) : State :=
  { s with pending := s.pending ++ script.map Event.host }

/-! ### FrequencyCounter and TreeBuilder -/

/-- FrequencyCount(M): ascending symbols, PSEUDO_EOF last (R281). -/
def frequencyCount (m : List Byte) : List (Symbol × Nat) :=
  ((List.range 256).filterMap (fun b =>
    let n := m.count (BitVec.ofNat 8 b)
    if n = 0 then none else some (BitVec.ofNat 9 b, n))) ++ [(Config.pseudoEof, 1)]

/-- The list stands for a frequency map: ascending symbols, none twice. That a map is such a list is the model's DESIGN CHOICE (log entry 17);
the spec walks the map "in ascending s" (R282). -/
def IsFrequencyMap (freq : List (Symbol × Nat)) : Prop := (freq.map (fun c => c.1.toNat)).Pairwise (· < ·)

/-- A code tree with its weights; `node` is the source's INTERNAL sentinel (R282, R285). -/
inductive CodeTree where
  | leaf (sym : Symbol) (weight : Nat)
  | node (weight : Nat) (zero one : CodeTree)
  deriving DecidableEq, Repr

/-- The weight of a tree is its root's (R282). -/
def CodeTree.weight : CodeTree → Nat
  | .leaf _ weight => weight
  | .node weight _ _ => weight

/-- A tree in the builder's queue, with its sequence number (R283). -/
structure Queued where
  seq  : Nat
  tree : CodeTree
  deriving DecidableEq, Repr

/-- The first part of the key (R283). -/
def Queued.weight (x : Queued) : Nat := x.tree.weight

/-- The internal node over the two first of the queue: the first is the zero child, and the weights add up (R282, R283). -/
def CodeTree.merge (x y : CodeTree) : CodeTree := .node (x.weight + y.weight) x y

/-- The key (weight, seq), compared lexicographically (R283). -/
def Queued.before (x y : Queued) : Bool := decide (x.weight < y.weight) || (decide (x.weight = y.weight) && decide (x.seq < y.seq))

/-- Insertion in key order (R282). -/
def queueInsert (x : Queued) : List Queued → List Queued
  | [] => [x]
  | y :: q => if x.before y then x :: y :: q else y :: queueInsert x q

/-- The leaves, numbered in ascending order of symbol (R282, R283). -/
def queueLeaves : List (Symbol × Nat) → Nat → List Queued
  | [], _ => []
  | (s, f) :: rest, seq => queueInsert ⟨seq, .leaf s f⟩ (queueLeaves rest (seq + 1))

/-- The merges, each of the two first of the queue (R282, R283). `fuel` is at least the queue's length. -/
def mergeQueue : Nat → Nat → List Queued → Option CodeTree
  | _, _, [] => none
  | _, _, [x] => some x.tree
  | 0, _, _ :: _ :: _ => none
  | fuel + 1, seq, x :: y :: q =>
    mergeQueue fuel (seq + 1) (queueInsert ⟨seq, x.tree.merge y.tree⟩ q)

/-- BuildTree(freq); none is BuildPrecondition, on an empty map (R282, R284). The leaves are numbered in the list's order, which is the ascending
order of R283 when the list is a frequency map (`IsFrequencyMap`, log entry 17). -/
def buildTree (freq : List (Symbol × Nat)) : Option CodeTree :=
  mergeQueue freq.length freq.length (queueLeaves freq 0)

/-- The leaves of a tree with their weights (R285). -/
def CodeTree.leafWeights : CodeTree → List (Symbol × Nat)
  | .leaf sym weight => [(sym, weight)]
  | .node _ zero one => zero.leafWeights ++ one.leafWeights

/-- Every internal node's weight is the sum of its two children's (R285). -/
def CodeTree.weightsAddUp : CodeTree → Prop
  | .leaf _ _ => True
  | .node weight zero one => weight = zero.weight + one.weight ∧ zero.weightsAddUp ∧ one.weightsAddUp

/-! ### CodeTableBuilder -/

/-- The leaves under a node with their paths from it (R286). -/
def CodeTree.paths : CodeTree → List (Symbol × List Bool)
  | .leaf sym _ => [(sym, [])]
  | .node _ zero one => zero.paths.map (fun c => (c.1, false :: c.2)) ++ one.paths.map (fun c => (c.1, true :: c.2))

/-- BuildCodes(T): the paths, or the one-bit code "0" of a tree that is one leaf (R286, R293). -/
def CodeTree.codes : CodeTree → List (Symbol × List Bool)
  | .leaf sym _ => [(sym, [false])]
  | .node weight zero one => (CodeTree.node weight zero one).paths

/-! ### Loading the block -/

/-- The number of nodes of a tree. -/
def CodeTree.size : CodeTree → Nat
  | .leaf _ _ => 1
  | .node _ zero one => 1 + zero.size + one.size

/-- The node words in pre-order, the root at index i; weights are not loaded (R289). -/
def CodeTree.words : CodeTree → Nat → List (Nat × Word)
  | .leaf sym _, i => [(i, leafWord sym)]
  | .node _ zero one, i =>
    (i, internalWord (BitVec.ofNat 10 (i + 1)) (BitVec.ofNat 10 (i + 1 + zero.size)))
      :: (zero.words (i + 1) ++ one.words (i + 1 + zero.size))

/-- Tree load: LDNODE each node in pre-order from 0, then SETROOT 0 (R289). -/
def treeScript (t : CodeTree) : List Access :=
  (t.words 0).flatMap (fun c => [wr .arg0 c.2, command (.ldnode (BitVec.ofNat 10 c.1))]) ++ [command (.setroot 0#10)]

/-- Code table load: `code s, "p"` for each code, in ascending symbol (R288). -/
def tableScript (codes : List (Symbol × List Bool)) : List Access :=
  (List.range Config.symCount).flatMap (fun n =>
    match codes.lookup (BitVec.ofNat 9 n) with
    | some p => codeScript (BitVec.ofNat 9 n) p
    | none => [])

/-! ### What the block needs of any host (R290) -/

/-- The tree, whatever its weights, is the one the node memory holds at an index (R290). -/
def HoldsTree (s : State) : CodeTree → NodeIdx → Prop
  | .leaf sym _, i => i.toNat < Config.nodeCount ∧ nodeView (nodeWord s i) = .leaf sym
  | .node _ zero one, i =>
    i.toNat < Config.nodeCount ∧
      ∃ z o, nodeView (nodeWord s i) = .internal z o ∧ HoldsTree s zero z ∧ HoldsTree s one o

/-- The indices the tree at an index takes up, one for each of its nodes. -/
def treeIndices (s : State) : CodeTree → NodeIdx → List NodeIdx
  | .leaf _ _, i => [i]
  | .node _ zero one, i => i :: (treeIndices s zero (zeroChild (nodeWord s i)) ++ treeIndices s one (oneChild (nodeWord s i)))

/-- The symbols at the leaves of a tree. -/
def CodeTree.symbols (t : CodeTree) : List Symbol := t.paths.map Prod.fst

/-- WFTree: the node memory holds the tree at ROOT, no node twice, no symbol at two leaves, PSEUDO_EOF at one (R290). -/
def WFTree (s : State) (t : CodeTree) : Prop :=
  HoldsTree s t s.root ∧ (treeIndices s t s.root).Nodup ∧ t.symbols.Nodup ∧ Config.pseudoEof ∈ t.symbols

/-- WFTable for an input: CT holds the tree's codes, and a symbol outside the tree is absent or does not occur (R290). -/
def WFTable (s : State) (t : CodeTree) (m : List Byte) : Prop :=
  (∀ c ∈ t.codes, c.2.length ≤ Config.maxCodeLen ∧ codeBits (codeAt s c.1) = c.2) ∧
    ∀ sym : Symbol, sym ∉ t.symbols → (codeAt s sym).len = 0#7 ∨ ∀ b ∈ m, b.setWidth 9 ≠ sym

/-- The encode-only condition: the input's bytes and PSEUDO_EOF have a present entry (R290). -/
def InputCovered (s : State) (m : List Byte) : Prop :=
  (∀ b ∈ m, (codeAt s (b.setWidth 9)).len ≠ 0#7) ∧ (codeAt s Config.pseudoEof).len ≠ 0#7

/-- CT holds what the code table load of a tree leaves there (R288). -/
def TableLoaded (s : State) (t : CodeTree) : Prop :=
  ∀ c ∈ t.codes, c.2.length ≤ Config.maxCodeLen ∧ codeAt s c.1 = { len := BitVec.ofNat 7 c.2.length, bits := codeNumeral c.2 }

/-- NODE holds what the load of a tree from index i leaves there (R289). -/
def TreeLoaded (s : State) (t : CodeTree) (i : Nat) : Prop :=
  ∀ w ∈ t.words i, nodeWord s (BitVec.ofNat 10 w.1) = w.2

/-- The bits an encode job emits for an input (R208). -/
def encodedBits (s : State) (m : List Byte) : List Bool :=
  m.flatMap (fun b => codeBits (codeAt s (b.setWidth 9))) ++ codeBits (codeAt s Config.pseudoEof)

/-- The pad bits after a stream of n bits (R206, R208). -/
def padBits (n : Nat) : List Bool := List.replicate ((8 - n % 8) % 8) false

/-! ### After a job -/

/-- The diagnostic bit string of an encode job from its bytes, its MSBF and its BITCNT (R209, R300). DESIGN CHOICE (log entry 16): after
ENC_GAP or ABORTED BITCNT also counts the bits of the partial byte that is never pushed; R300's formula then names a byte that does not
exist, the spec states no value, and the model gives such a bit none. -/
def diagnosticBits (m : Bool) (n : Nat) (bytes : List Byte) : List (Option Bool) :=
  (List.range n).map (fun j => bytes[j / 8]?.map (fun y => y.getLsbD (bitPlace m (j % 8))))

/-- The payload of an encode job in bytes (R301). -/
def payloadBytes (bitcnt : Word) : Nat := (bitcnt.toNat + 7) / 8

end Sys2Proof.Machine
end

