-- ==== Sys2Proof/Certificates/Slice0/Obligations.lean ====
section
/-! DEFINITION. The statements for the provers. Each docstring names the rule of spec/ it rests on. A frame is said by naming the whole next
state: every field that is not listed keeps its value, the memories among them. -/

open Sys2Proof Sys2Proof.Machine

/-! ### Reset and the invariant -/

/-- R360 with R50: the reset event, taken in any state, gives every piece of state its reset value and abandons a running job. That the
coming events and the replies given stay is the model's choice (log entry 9), no rule's. -/
def Obligations.ResetEventRestoresEveryResetValue : Prop :=
  ∀ (s : State) (rest : List Event), s.pending = .reset :: rest →
    ∃ t, step s = .next t ∧
      (statusWord t = 0x00000140#32 ∧ t.ctrl = 0#3 ∧ irq t = false ∧ t.errcode = .none ∧ t.errinfo = 0#10) ∧
      (t.arg0 = 0#32 ∧ t.arg1 = 0#32 ∧ t.arg2 = 0#32 ∧ t.root = 0#10 ∧ t.bitcnt = 0#32 ∧ t.bitsin = 0#32) ∧
      (∀ sym, (codeAt t sym).len = 0#7) ∧ (∀ idx, nodeWord t idx = 0#32) ∧
      (t.inq = [] ∧ t.outq = [] ∧ t.phase = .idle ∧ t.msbfL = false) ∧
      (t.curBits = 0#64 ∧ t.curLen = 0#7 ∧ t.curPos = 0#7 ∧ t.curLast = false) ∧
      (t.oacc = 0#8 ∧ t.ocnt = 0#3 ∧ t.iacc = 0#8 ∧ t.icnt = 0#4 ∧ t.ptr = 0#10) ∧
      t.pending = rest ∧ t.replies = s.replies

/-- R49 at reset: the invariant holds in the reset state. -/
def Obligations.ResetStateMeetsTheInvariant : Prop := StateInv State.reset

/-- R49: from every state that meets the invariant, whatever event comes next, the machine answers a next state, and the invariant holds
in it. The model's three faults are among what this rules out. -/
def Obligations.EveryStepGoesOnAndKeepsTheInvariant : Prop :=
  ∀ s, StateInv s → ∃ t, step s = .next t ∧ StateInv t

/-- R49 and R74: CT, NODE and ROOT do not change while a job runs, but by reset. -/
def Obligations.TablesStayFixedWhileAJobRuns : Prop :=
  ∀ s t, busy s = true → (∀ rest, s.pending ≠ .reset :: rest) → step s = .next t →
    t.ct = s.ct ∧ t.node = s.node ∧ t.root = s.root

/-- R141 with R321, R322: a step that takes a running job to IDLE, but by reset, leaves exactly one of DONE and ERR set, and IEND clear. -/
def Obligations.AJobEndsWithExactlyOneOutcome : Prop :=
  ∀ s t, StateInv s → busy s = true → (∀ rest, s.pending ≠ .reset :: rest) → step s = .next t → busy t = false →
    t.iend = false ∧ ((t.done = true ∧ t.err = false) ∨ (t.done = false ∧ t.err = true))

/-! ### Decoding and encoding -/

/-- R91, R95: decoding the word of a well-formed command gives the command back, every operand at every value. -/
def Obligations.DecodeOfEncodeIsTheCommand : Prop :=
  ∀ i : Instr, i.wellFormed = true → decodeCmd (encode i) = .ok i

/-- R95, R96: each word that decodes is the one word of a well-formed command. -/
def Obligations.ADecodedWordIsTheCommandsWord : Prop :=
  ∀ (w : Word) (i : Instr), decodeCmd w = .ok i → i.wellFormed = true ∧ encode i = w

/-- R124 and the vectors CV3, CV10: words written out from the encodings decode to their commands. -/
def Obligations.KnownWordsDecode : Prop :=
  decodeCmd 0x00000000#32 = .ok .nop ∧ decodeCmd 0x10000000#32 = .ok .clear ∧
    decodeCmd 0x20030063#32 = .ok (.ldcode 0x063#9 3#7) ∧ decodeCmd 0x20400061#32 = .ok (.ldcode 0x061#9 64#7) ∧
    decodeCmd 0x30000100#32 = .ok (.rdcode 0x100#9) ∧ decodeCmd 0x40000200#32 = .ok (.ldnode 512#10) ∧
    decodeCmd 0x50000006#32 = .ok (.rdnode 6#10) ∧ decodeCmd 0x60000007#32 = .ok (.setroot 7#10) ∧
    decodeCmd 0x70000000#32 = .ok .encode ∧ decodeCmd 0x80000000#32 = .ok .decode ∧ decodeCmd 0x90000000#32 = .ok .abort

/-- R93: with no job running, a word whose SYM, LEN or IDX is out of range fails with BAD_CMD, and so does a word that selects no row of
the opcode map (R96); nothing changes but DONE, ERR, ERRCODE and ERRINFO. -/
def Obligations.OutOfRangeWordsFailWithBadCmd : Prop :=
  ∀ (s : State) (w : Word) (rest : List Event), busy s = false → s.pending = .host (wr .cmd w) :: rest →
    ((∀ r ∈ opcodeMap, r.selects w = false) ∨
      ((opOf w = 2#4 ∨ opOf w = 3#4) ∧ 0x100 < (symOf w).toNat) ∨
      (opOf w = 2#4 ∧ 64 < (lenOf w).toNat) ∨
      ((opOf w = 4#4 ∨ opOf w = 5#4 ∨ opOf w = 6#4) ∧ 512 < (idxOf w).toNat)) →
    step s = .next { s with pending := rest, done := false, err := true, errcode := .badCmd, errinfo := 0#10 }

/-! ### Acceptance of commands -/

/-- R130, R70: a step that takes a host write of a decodable word to CMD, with no job running or the word ABORT, is exec of the command, run
after the event is taken and DONE, ERR, ERRCODE, ERRINFO are cleared; where an engine turn is the first event the step is the engine's. That
the order of events is a list, and that with none coming the engine moves, is the model's choice (log entries 1 and 12), no rule's. -/
def Obligations.StepRunsTheDecodedCommand : Prop :=
  (∀ (s : State) (w : Word) (i : Instr) (rest : List Event), decodeCmd w = .ok i → (busy s = false ∨ w = 0x90000000#32) →
    s.pending = .host (.write 0x0C#6 4 w) :: rest →
    step s = exec i { s with pending := rest, done := false, err := false, errcode := .none, errinfo := 0#10 }) ∧
  (∀ s : State, s.pending = [] → step s = engineStep s) ∧
  (∀ (s : State) (rest : List Event), s.pending = .engine :: rest → step s = engineStep { s with pending := rest })

/-- R131: a word other than ABORT written to CMD while a job runs sets CMDOVR and changes nothing else. -/
def Obligations.CommandWhileBusyIsDropped : Prop :=
  ∀ (s : State) (w : Word) (rest : List Event), busy s = true → w ≠ 0x90000000#32 → s.pending = .host (wr .cmd w) :: rest →
    step s = .next { s with pending := rest, cmdovr := true }

/-- R130, R169: ABORT is accepted while a job runs, and ends it with ABORTED; all else stays. -/
def Obligations.AbortEndsARunningJob : Prop :=
  ∀ (s : State) (rest : List Event), busy s = true → s.pending = .host (wr .cmd 0x90000000#32) :: rest →
    step s = .next { s with
      pending := rest
      done := false
      err := true
      errcode := .aborted
      errinfo := 0#10
      phase := .idle
      iend := false }

/-! ### Table and control commands -/

/-- R160, R169: NOP and an idle ABORT do nothing but complete; ABORT with a job running is the error stop with ABORTED. -/
def Obligations.NopAndAbortComplete : Prop :=
  ∀ s : State,
    exec .nop s = .next { s with done := true } ∧
    (s.phase = .idle → exec .abort s = .next { s with done := true }) ∧
    (s.phase ≠ .idle →
      exec .abort s = .next { s with err := true, errcode := .aborted, errinfo := 0#10, phase := .idle, iend := false })

/-- R161: CLEAR completes, and with no job running the state after its acceptance is the reset state but for CTRL, ARG0-ARG2 and
DONE = 1. (The BITS of absent entries are 0 in the model's reset state by its own choice, log entry 6.) -/
def Obligations.ClearIsResetButForControlAndArgs : Prop :=
  ∀ s : State,
    exec .clear s = .next { State.reset with
      ctrl := s.ctrl, arg0 := s.arg0, arg1 := s.arg1, arg2 := s.arg2, done := true
      err := s.err, errcode := s.errcode, errinfo := s.errinfo, phase := s.phase
      pending := s.pending, replies := s.replies } ∧
    (busy s = false → cmdWrite 0x10000000#32 s = .next { State.reset with
      ctrl := s.ctrl, arg0 := s.arg0, arg1 := s.arg1, arg2 := s.arg2, done := true
      pending := s.pending, replies := s.replies })

/-- R164: LDCODE with a legal code completes, writes {LEN, ARG1:ARG0} at its symbol, and leaves every other entry and all else alone. -/
def Obligations.LdcodeStoresTheStagedCode : Prop :=
  ∀ (sym : Symbol) (len : BitVec 7) (s : State), Memory.wf s = true → sym.toNat ≤ 0x100 → len.toNat ≤ 64 →
    (∀ i, len.toNat ≤ i → (s.arg1 ++ s.arg0).getLsbD i = false) →
    ∃ t, exec (.ldcode sym len) s = .next t ∧ t = { s with done := true, ct := t.ct } ∧
      codeAt t sym = { len := len, bits := s.arg1 ++ s.arg0 } ∧ ∀ q, q ≠ sym → codeAt t q = codeAt s q

/-- R164: LDCODE with a code bit at or above LEN is BAD_ARG with ERRINFO = SYM, and CT is unchanged; an operand out of range is BAD_CMD. -/
def Obligations.LdcodeRefusesABadCode : Prop :=
  ∀ (sym : Symbol) (len : BitVec 7) (s : State),
    (sym.toNat ≤ 0x100 → len.toNat ≤ 64 → (∃ i, len.toNat ≤ i ∧ (s.arg1 ++ s.arg0).getLsbD i = true) →
      exec (.ldcode sym len) s = .next { s with
        err := true, errcode := .badArg, errinfo := sym.setWidth 10
        phase := .idle, iend := if s.phase = .idle then s.iend else false }) ∧
    (0x100 < sym.toNat ∨ 64 < len.toNat →
      exec (.ldcode sym len) s = .next { s with
        err := true, errcode := .badCmd, errinfo := 0#10
        phase := .idle, iend := if s.phase = .idle then s.iend else false })

/-- R165: RDCODE completes with the entry in ARG0-ARG2, zeros for an absent one, and changes nothing else. -/
def Obligations.RdcodeReportsTheEntry : Prop :=
  ∀ (sym : Symbol) (s : State), sym.toNat ≤ 0x100 →
    ((codeAt s sym).len = 0#7 →
      exec (.rdcode sym) s = .next { s with done := true, arg0 := 0#32, arg1 := 0#32, arg2 := 0#32 }) ∧
    ((codeAt s sym).len ≠ 0#7 →
      ∃ t, exec (.rdcode sym) s = .next t ∧
        t = { s with done := true, arg0 := t.arg0, arg1 := t.arg1, arg2 := t.arg2 } ∧
        t.arg1 ++ t.arg0 = (codeAt s sym).bits ∧ t.arg2.toNat = (codeAt s sym).len.toNat)

/-- R166: LDNODE with a legal node word completes, writes ARG0 at its index, and leaves every other word and all else alone. -/
def Obligations.LdnodeStoresTheNodeWord : Prop :=
  ∀ (idx : NodeIdx) (s : State), Memory.wf s = true → idx.toNat ≤ 512 → nodeWordLegal s.arg0 = true →
    ∃ t, exec (.ldnode idx) s = .next t ∧ t = { s with done := true, node := t.node } ∧
      nodeWord t idx = s.arg0 ∧ ∀ j, j ≠ idx → nodeWord t j = nodeWord s j

/-- R166: LDNODE with an illegal node word is BAD_ARG with ERRINFO = IDX, and NODE is unchanged; an index out of range is BAD_CMD,
checked first (R325). -/
def Obligations.LdnodeRefusesABadWord : Prop :=
  ∀ (idx : NodeIdx) (s : State),
    (idx.toNat ≤ 512 → nodeWordLegal s.arg0 = false →
      exec (.ldnode idx) s = .next { s with
        err := true, errcode := .badArg, errinfo := idx
        phase := .idle, iend := if s.phase = .idle then s.iend else false }) ∧
    (512 < idx.toNat →
      exec (.ldnode idx) s = .next { s with
        err := true, errcode := .badCmd, errinfo := 0#10
        phase := .idle, iend := if s.phase = .idle then s.iend else false })

/-- R100, R101: a word is legal exactly as its bits say: KIND 31:30, a LEAF's SYM 8:0, an INTERNAL's ZERO 9:0 and ONE 19:10, every other bit 0;
a word is read by those bits. So the legal words are the EMPTY word, the LEAF words of the symbols up to 0x100 and the INTERNAL words of two
indices up to 512, and nothing else; each reads back as what it was made of. -/
def Obligations.LegalNodeWordsAreTheThreeKinds : Prop :=
  (∀ w : Word, nodeWordLegal w = true ↔
    w = 0x00000000#32 ∨
      (w.extractLsb' 30 2 = 0b01#2 ∧ w.extractLsb' 9 21 = 0#21 ∧ (w.extractLsb' 0 9).toNat ≤ 0x100) ∨
      (w.extractLsb' 30 2 = 0b10#2 ∧ w.extractLsb' 20 10 = 0#10 ∧ (w.extractLsb' 0 10).toNat ≤ 512 ∧ (w.extractLsb' 10 10).toNat ≤ 512)) ∧
  (∀ w : Word,
    (w.extractLsb' 30 2 = 0b00#2 → nodeView w = .empty) ∧
    (w.extractLsb' 30 2 = 0b01#2 → nodeView w = .leaf (w.extractLsb' 0 9)) ∧
    (w.extractLsb' 30 2 = 0b10#2 → nodeView w = .internal (w.extractLsb' 0 10) (w.extractLsb' 10 10))) ∧
  (∀ w : Word, nodeWordLegal w = true ↔
    w = 0#32 ∨ (∃ sym : Symbol, sym.toNat ≤ 0x100 ∧ w = leafWord sym) ∨
      ∃ z o : NodeIdx, z.toNat ≤ 512 ∧ o.toNat ≤ 512 ∧ w = internalWord z o) ∧
  nodeView 0#32 = .empty ∧ (∀ sym, nodeView (leafWord sym) = .leaf sym) ∧ ∀ z o, nodeView (internalWord z o) = .internal z o

/-- R167, R168: RDNODE completes with the word in ARG0, SETROOT with its index in ROOT; nothing else changes. -/
def Obligations.RdnodeAndSetrootComplete : Prop :=
  ∀ (idx : NodeIdx) (s : State), idx.toNat ≤ 512 →
    exec (.rdnode idx) s = .next { s with done := true, arg0 := nodeWord s idx } ∧
    exec (.setroot idx) s = .next { s with done := true, root := idx }

/-! ### The start of a job -/

/-- R201: ENCODE, once accepted, starts an encode job; STATUS then shows BUSY and MODE = 01; FIFOs, IEND, CT, NODE, ROOT stay. While a job runs
R131 drops the command before its meaning; that the meaning says the same of such a state is the model's reading (log entry 8). -/
def Obligations.EncodeStartsAJob : Prop :=
  ∀ s : State, ∃ t, exec .encode s = .next t ∧
    t = { s with
      msbfL := s.ctrl.getLsbD 0, oacc := 0#8, ocnt := 0#3, bitcnt := 0#32
      curBits := 0#64, curLen := 0#7, curPos := 0#7, curLast := false, phase := .encFetch } ∧
    (statusWord t).getLsbD 0 = true ∧ (statusWord t).extractLsb' 10 2 = 1#2

/-- R241: DECODE starts a decode job at ROOT when that node is not EMPTY, and is BAD_NODE with ERRINFO = ROOT when it is. -/
def Obligations.DecodeStartsAJobUnlessTheRootIsEmpty : Prop :=
  ∀ s : State, s.root.toNat ≤ 512 →
    (nodeKind (nodeWord s s.root) ≠ 0#2 →
      ∃ t, exec .decode s = .next t ∧
        t = { s with
          msbfL := s.ctrl.getLsbD 0, iacc := 0#8, icnt := 0#4, bitsin := 0#32, ptr := s.root, phase := .decWalk } ∧
        (statusWord t).getLsbD 0 = true ∧ (statusWord t).extractLsb' 10 2 = 2#2) ∧
    (nodeKind (nodeWord s s.root) = 0#2 →
      exec .decode s = .next { s with
        err := true, errcode := .badNode, errinfo := s.root
        phase := .idle, iend := if s.phase = .idle then s.iend else false })

/-- Log entry 7, the model's choice: in a state no run reaches, with ROOT above 512, DECODE stops by name, since the spec gives NODE no such
word (R28, R37). -/
def Obligations.DecodeStopsOnARootThatIsNoNode : Prop :=
  ∀ s : State, 512 < s.root.toNat → exec .decode s = .fault .noSuchNode

/-! ### Register accesses -/

/-- R64: an access that is no aligned 32-bit one reads 0 or is ignored, and has no effect beside; it does not trap. -/
def Obligations.OtherAccessesAreInert : Prop :=
  ∀ (s : State) (off : BitVec 6) (size : Nat) (v : Word) (rest : List Event), ¬(off.toNat % 4 = 0 ∧ size = 4) →
    (s.pending = .host (.read off size) :: rest →
      step s = .next { s with pending := rest, replies := s.replies ++ [0#32] }) ∧
    (s.pending = .host (.write off size v) :: rest → step s = .next { s with pending := rest })

/-- R133: a CTRL write stores bits 2:0 alone, in any state, and a CTRL read returns them zero-extended; a running job keeps its MSBF_L, and
IRQ follows the enables at once. -/
def Obligations.CtrlHoldsItsThreeBits : Prop :=
  ∀ (s : State) (v : Word) (rest : List Event),
    (s.pending = .host (wr .ctrl v) :: rest →
      ∃ t, step s = .next t ∧ t = { s with pending := rest, ctrl := t.ctrl } ∧ (∀ i, i < 3 → t.ctrl.getLsbD i = v.getLsbD i) ∧
        irq t = ((v.getLsbD 1 && s.done) || (v.getLsbD 2 && s.err))) ∧
    (s.pending = .host (rd .ctrl) :: rest →
      ∃ r : Word, step s = .next { s with pending := rest, replies := s.replies ++ [r] } ∧
        ∀ i, r.getLsbD i = (decide (i < 3) && s.ctrl.getLsbD i))

/-- R134: a STATUS write clears the flags of its 1 bits among bits 4:1, ERRCODE with ERR, and nothing else. -/
def Obligations.StatusWriteClearsTheNamedFlags : Prop :=
  ∀ (s : State) (v : Word) (rest : List Event), s.pending = .host (wr .status v) :: rest →
    step s = .next { s with
      pending := rest
      done := if v.getLsbD 1 then false else s.done
      err := if v.getLsbD 2 then false else s.err
      errcode := if v.getLsbD 2 then .none else s.errcode
      cmdovr := if v.getLsbD 3 then false else s.cmdovr
      inovr := if v.getLsbD 4 then false else s.inovr }

/-- R23, R135: the STATUS word has each field in its place, ERRCODE with the numbers of R320, and reading it has no effect. -/
def Obligations.StatusReadsItsFields : Prop :=
  ∀ (s : State) (rest : List Event), s.inq.length ≤ 16 → s.outq.length ≤ 16 → s.pending = .host (rd .status) :: rest →
    ∃ r : Word, step s = .next { s with pending := rest, replies := s.replies ++ [r] } ∧
      (r.getLsbD 0 = true ↔ s.phase ≠ .idle) ∧ r.getLsbD 1 = s.done ∧ r.getLsbD 2 = s.err ∧ r.getLsbD 3 = s.cmdovr ∧
      r.getLsbD 4 = s.inovr ∧ r.getLsbD 5 = s.iend ∧
      (r.getLsbD 6 = true ↔ s.inq.length = 0) ∧ (r.getLsbD 7 = true ↔ s.inq.length = 16) ∧
      (r.getLsbD 8 = true ↔ s.outq.length = 0) ∧ (r.getLsbD 9 = true ↔ s.outq.length = 16) ∧
      (r.extractLsb' 10 2 = 0#2 ↔ s.phase = .idle) ∧ (r.extractLsb' 10 2 = 2#2 ↔ s.phase = .decWalk) ∧
      (r.extractLsb' 10 2 = 1#2 ↔ s.phase = .encFetch ∨ s.phase = .encEmit ∨ s.phase = .encPad) ∧ r.extractLsb' 10 2 ≠ 3#2 ∧
      r.extractLsb' 12 4 = (match s.errcode with
        | .none => 0#4
        | .encGap => 1#4
        | .truncated => 2#4
        | .badNode => 3#4
        | .badCode => 4#4
        | .badCmd => 5#4
        | .badArg => 6#4
        | .aborted => 7#4) ∧
      (r.extractLsb' 16 5).toNat = s.inq.length ∧ (r.extractLsb' 21 5).toNat = s.outq.length ∧ r.extractLsb' 26 6 = 0#6

/-- R136: an IN_DATA write pushes bits 7:0 at the tail of INQ, or, INQ full, drops the byte and sets INOVR; in any state. -/
def Obligations.InDataPushesOrDrops : Prop :=
  ∀ (s : State) (v : Word) (rest : List Event), s.pending = .host (wr .inData v) :: rest →
    (s.inq.length ≠ 16 → step s = .next { s with pending := rest, inq := s.inq ++ [v.extractLsb' 0 8] }) ∧
    (s.inq.length = 16 → step s = .next { s with pending := rest, inovr := true })

/-- R137: an INEND write with bit 0 set marks the end of input, and one with bit 0 clear does nothing. -/
def Obligations.InendMarksTheEnd : Prop :=
  ∀ (s : State) (v : Word) (rest : List Event), s.pending = .host (wr .inEnd v) :: rest →
    (v.getLsbD 0 = true → step s = .next { s with pending := rest, iend := true }) ∧
    (v.getLsbD 0 = false → step s = .next { s with pending := rest })

/-- R138: an OUT_DATA read pops the head of OUTQ with VALID set, or returns 0; a pop from a full OUTQ lifts the output hold. -/
def Obligations.OutDataPopsTheHead : Prop :=
  ∀ (s : State) (rest : List Event), s.pending = .host (rd .outData) :: rest →
    (s.outq = [] → step s = .next { s with pending := rest, replies := s.replies ++ [0#32] }) ∧
    (∀ (b : Byte) (q : List Byte), s.outq = b :: q →
      ∃ (t : State) (r : Word), step s = .next t ∧ t = { s with pending := rest, outq := q, replies := s.replies ++ [r] } ∧
        r.getLsbD 31 = true ∧ r.extractLsb' 0 8 = b ∧ r.extractLsb' 8 23 = 0#23 ∧
        (s.outq.length = 16 → outqFull t = false ∧ packHold t = false))

/-- R139, R140, at the offsets of the register map of 10_state.md: ARG0-ARG2 take and give all 32 bits; a write to a read-only or reserved
register is ignored; a read of a write-only or reserved one is 0. Every register of the map but CMD, CTRL, STATUS, IN_DATA, INEND and OUT_DATA's
read is here. -/
def Obligations.PlainRegistersReadAndWrite : Prop :=
  ∀ (s : State) (v : Word) (rest : List Event),
    (s.pending = .host (.write 0x10#6 4 v) :: rest → step s = .next { s with pending := rest, arg0 := v }) ∧
    (s.pending = .host (.write 0x14#6 4 v) :: rest → step s = .next { s with pending := rest, arg1 := v }) ∧
    (s.pending = .host (.write 0x18#6 4 v) :: rest → step s = .next { s with pending := rest, arg2 := v }) ∧
    (∀ off ∈ [0x00#6, 0x1C#6, 0x28#6, 0x2C#6, 0x30#6, 0x34#6, 0x38#6, 0x3C#6],
      s.pending = .host (.write off 4 v) :: rest → step s = .next { s with pending := rest }) ∧
    (∀ p ∈ [(0x00#6, 0x48554601#32), (0x10#6, s.arg0), (0x14#6, s.arg1), (0x18#6, s.arg2), (0x1C#6, s.root.setWidth 32),
        (0x2C#6, s.bitcnt), (0x30#6, s.bitsin), (0x34#6, s.errinfo.setWidth 32), (0x0C#6, 0#32), (0x20#6, 0#32), (0x24#6, 0#32),
        (0x38#6, 0#32), (0x3C#6, 0#32)],
      s.pending = .host (.read p.1 4) :: rest → step s = .next { s with pending := rest, replies := s.replies ++ [p.2] })

/-- R61: HUF_BASE is a multiple of 64; a bus address is the block's exactly when it lies in the 64 bytes from HUF_BASE, at the offset
`a - HUF_BASE`; an access there adds exactly that access to what comes, and an access elsewhere adds nothing. -/
def Obligations.OnlyTheWindowIsTheBlocks : Prop :=
  Config.hufBase % 64 = 0 ∧
  (∀ a off, windowOffset a = some off ↔ Config.hufBase ≤ a ∧ a - Config.hufBase ≤ 0x3F ∧ off.toNat = a - Config.hufBase) ∧
  ∀ (a size : Nat) (v : Word) (s : State),
    (Config.hufBase ≤ a ∧ a - Config.hufBase ≤ 0x3F →
      issueRead a size s = { s with pending := s.pending ++ [.host (.read (BitVec.ofNat 6 (a - Config.hufBase)) size)] } ∧
      issueWrite a size v s = { s with pending := s.pending ++ [.host (.write (BitVec.ofNat 6 (a - Config.hufBase)) size v)] }) ∧
    (¬(Config.hufBase ≤ a ∧ a - Config.hufBase ≤ 0x3F) → issueRead a size s = s ∧ issueWrite a size v s = s)

/-- R48, R324: under the invariant IRQ is asserted by exactly one enabled flag; acknowledging both flags drops it. -/
def Obligations.IrqIsOneEnabledFlag : Prop :=
  ∀ s : State, StateInv s →
    (irq s = true ↔
      (s.ctrl.getLsbD 1 = true ∧ s.done = true ∧ s.err = false) ∨ (s.ctrl.getLsbD 2 = true ∧ s.err = true ∧ s.done = false)) ∧
    ∀ v : Word, v.getLsbD 1 = true → v.getLsbD 2 = true → irq (statusWrite v s) = false

/-! ### Who may change what -/

/-- R28, R36, R37, R60: CT changes only by reset or an accepted LDCODE or CLEAR, NODE by LDNODE or CLEAR, ROOT by SETROOT or CLEAR. -/
def Obligations.TablesChangeOnlyByTheirCommands : Prop :=
  ∀ s t, step s = .next t → (∀ rest, s.pending ≠ .reset :: rest) →
    (t.ct ≠ s.ct → ∃ w rest, s.pending = .host (wr .cmd w) :: rest ∧ busy s = false ∧
      (decodeCmd w = .ok .clear ∨ ∃ sym len, decodeCmd w = .ok (.ldcode sym len))) ∧
    (t.node ≠ s.node → ∃ w rest, s.pending = .host (wr .cmd w) :: rest ∧ busy s = false ∧
      (decodeCmd w = .ok .clear ∨ ∃ idx, decodeCmd w = .ok (.ldnode idx))) ∧
    (t.root ≠ s.root → ∃ w rest, s.pending = .host (wr .cmd w) :: rest ∧ busy s = false ∧
      (decodeCmd w = .ok .clear ∨ ∃ idx, decodeCmd w = .ok (.setroot idx)))

/-- R22, R46: CTRL changes only by reset or a host write of it; ARG0 only by reset, a host write of it, RDCODE or RDNODE; ARG1 and ARG2 only by
reset, a host write of them or RDCODE. -/
def Obligations.ControlAndOperandsChangeOnlyAsStated : Prop :=
  ∀ s t, step s = .next t → (∀ rest, s.pending ≠ .reset :: rest) →
    (t.ctrl ≠ s.ctrl → ∃ v rest, s.pending = .host (wr .ctrl v) :: rest) ∧
    (t.arg0 ≠ s.arg0 → ∃ v rest, s.pending = .host (wr .arg0 v) :: rest ∨
      (s.pending = .host (wr .cmd v) :: rest ∧
        ((∃ sym, decodeCmd v = .ok (.rdcode sym)) ∨ ∃ idx, decodeCmd v = .ok (.rdnode idx)))) ∧
    (t.arg1 ≠ s.arg1 → ∃ v rest, s.pending = .host (wr .arg1 v) :: rest ∨
      (s.pending = .host (wr .cmd v) :: rest ∧ ∃ sym, decodeCmd v = .ok (.rdcode sym))) ∧
    (t.arg2 ≠ s.arg2 → ∃ v rest, s.pending = .host (wr .arg2 v) :: rest ∨
      (s.pending = .host (wr .cmd v) :: rest ∧ ∃ sym, decodeCmd v = .ok (.rdcode sym)))

/-! ### The encoder's steps -/

/-- R202, R203: ENC_FETCH takes the next byte's code, or at the end of input the PSEUDO_EOF code; an absent code is ENC_GAP; with no byte and
no end marked the engine holds. -/
def Obligations.EncoderFetchesACode : Prop :=
  ∀ s : State, s.phase = .encFetch →
    (∀ (b : Byte) (rest : List Byte), s.inq = b :: rest → (codeAt s (b.setWidth 9)).len ≠ 0#7 →
      engineStep s = .next { s with
        inq := rest, curBits := (codeAt s (b.setWidth 9)).bits, curLen := (codeAt s (b.setWidth 9)).len
        curPos := 0#7, curLast := false, phase := .encEmit }) ∧
    (∀ (b : Byte) (rest : List Byte), s.inq = b :: rest → (codeAt s (b.setWidth 9)).len = 0#7 →
      engineStep s = .next { s with
        inq := rest, err := true, errcode := .encGap, errinfo := b.setWidth 10, phase := .idle, iend := false }) ∧
    (s.inq = [] → s.iend = true → (codeAt s 0x100#9).len ≠ 0#7 →
      engineStep s = .next { s with
        curBits := (codeAt s 0x100#9).bits, curLen := (codeAt s 0x100#9).len, curPos := 0#7, curLast := true, phase := .encEmit }) ∧
    (s.inq = [] → s.iend = true → (codeAt s 0x100#9).len = 0#7 →
      engineStep s = .next { s with err := true, errcode := .encGap, errinfo := 0x100#10, phase := .idle, iend := false }) ∧
    (s.inq = [] → s.iend = false → engineStep s = .next s)

/-- R204, R205: ENC_EMIT appends the next bit of the code, its MSB first, to the packed stream in the order of R63, counts it, and goes on to
the next bit, the next fetch or the padding; it holds only when the bit would push into a full OUTQ. -/
def Obligations.EncoderEmitsTheNextBit : Prop :=
  ∀ s : State, s.phase = .encEmit → s.curPos.toNat < s.curLen.toNat → s.curLen.toNat ≤ 64 →
    (s.ocnt = 7#3 ∧ s.outq.length = 16 → engineStep s = .next s) ∧
    (¬(s.ocnt = 7#3 ∧ s.outq.length = 16) →
      ∃ t, engineStep s = .next t ∧
        t = { s with outq := t.outq, oacc := t.oacc, ocnt := t.ocnt, bitcnt := s.bitcnt + 1#32, curPos := t.curPos, phase := t.phase } ∧
        packedBits t = packedBits s ++ [s.curBits.getLsbD (s.curLen.toNat - 1 - s.curPos.toNat)] ∧
        s.outq <+: t.outq ∧ t.curPos.toNat = s.curPos.toNat + 1 ∧
        t.phase = (if s.curPos.toNat + 1 = s.curLen.toNat then (if s.curLast then .encPad else .encFetch) else .encEmit))

/-- R206: ENC_PAD completes at a byte boundary, and else appends one 0 bit that BITCNT does not count, or holds. -/
def Obligations.EncoderPadsThenCompletes : Prop :=
  ∀ s : State, s.phase = .encPad →
    (s.ocnt = 0#3 → engineStep s = .next { s with done := true, phase := .idle, iend := false }) ∧
    (s.ocnt = 7#3 ∧ s.outq.length = 16 → engineStep s = .next s) ∧
    (s.ocnt ≠ 0#3 → ¬(s.ocnt = 7#3 ∧ s.outq.length = 16) →
      ∃ t, engineStep s = .next t ∧ t = { s with outq := t.outq, oacc := t.oacc, ocnt := t.ocnt } ∧
        packedBits t = packedBits s ++ [false] ∧ s.outq <+: t.outq)

/-- R208, first part, with the bound of R374: from the start of an encode job whose input is all in INQ, with IEND set, every code present and
room in OUTQ for the whole output, the engine alone completes it; the bytes pushed carry the codes of the input, the PSEUDO_EOF code and the
pad bits, and BITCNT counts the code bits. -/
def Obligations.EncodeJobPacksTheWholeInput : Prop :=
  ∀ s : State, s.phase = .encFetch → s.ocnt = 0#3 → s.pending = [] → s.iend = true →
    (∀ c ∈ s.ct, entryLegal c.2 = true) → InputCovered s s.inq →
    s.outq.length + ((encodedBits s s.inq).length + 7) / 8 ≤ 16 →
    ∃ n t ys, n ≤ s.inq.length + 1 + (encodedBits s s.inq).length + 7 + 1 ∧ engineRun n s = .next t ∧
      t.phase = .idle ∧ t.done = true ∧ t.err = s.err ∧ t.iend = false ∧ t.inq = [] ∧
      t.outq = s.outq ++ ys ∧ ys.length = ((encodedBits s s.inq).length + 7) / 8 ∧
      streamBits s.msbfL ys = encodedBits s s.inq ++ padBits (encodedBits s s.inq).length ∧
      t.bitcnt = s.bitcnt + BitVec.ofNat 32 (encodedBits s s.inq).length

/-- R208, second and third part: the first byte without a code, or the end of input without a PSEUDO_EOF code, ends the job with ENC_GAP after
the codes before it have been packed; the bytes after it stay in INQ, and the partial byte is not flushed. -/
def Obligations.EncodeGapStopsAtTheByte : Prop :=
  ∀ (s : State) (pre post : List Byte), s.phase = .encFetch → s.pending = [] →
    (∀ c ∈ s.ct, entryLegal c.2 = true) → (∀ c ∈ pre, (codeAt s (c.setWidth 9)).len ≠ 0#7) →
    8 * s.outq.length + s.ocnt.toNat + (pre.flatMap (fun c => codeBits (codeAt s (c.setWidth 9)))).length < 136 →
    ∀ sym : Symbol,
      ((∃ b : Byte, s.inq = pre ++ b :: post ∧ sym = b.setWidth 9) ∨
        (s.inq = pre ∧ post = [] ∧ s.iend = true ∧ sym = 0x100#9)) →
      (codeAt s sym).len = 0#7 →
      ∃ n t, engineRun n s = .next t ∧ t.phase = .idle ∧ t.err = true ∧ t.errcode = .encGap ∧ t.errinfo = sym.setWidth 10 ∧
        t.done = s.done ∧ t.iend = false ∧ t.inq = post ∧
        packedBits t = packedBits s ++ pre.flatMap (fun c => codeBits (codeAt s (c.setWidth 9))) ∧
        t.bitcnt = s.bitcnt + BitVec.ofNat 32 (pre.flatMap (fun c => codeBits (codeAt s (c.setWidth 9)))).length

/-! ### The decoder's steps -/

/-- R242, R243: where a bit is available, PeekBit shows and NextBit returns the first bit of the packed stream still to consume, in the order
of R63; NextBit counts it and leaves the rest. With MSBF_L = 0 the bit is bit 0 of a fresh byte and bit 8 - ICNT of a held one, with
MSBF_L = 1 bit 7 and bit ICNT - 1. -/
def Obligations.UnpackerTakesTheFirstBit : Prop :=
  ∀ s : State, avail s = true → s.icnt.toNat ≤ 8 →
    ∃ b tl, inputBits s = b :: tl ∧ peekBit s = b ∧ (nextBit s).1 = b ∧ inputBits (nextBit s).2 = tl ∧
      (nextBit s).2.icnt.toNat ≤ 7 ∧
      (nextBit s).2 = { s with
        inq := (nextBit s).2.inq, iacc := (nextBit s).2.iacc, icnt := (nextBit s).2.icnt, bitsin := s.bitsin + 1#32 } ∧
      (s.icnt ≠ 0#4 → b = if s.msbfL then s.iacc.getLsbD (s.icnt.toNat - 1) else s.iacc.getLsbD (8 - s.icnt.toNat)) ∧
      (s.icnt = 0#4 → ∀ (x : Byte) (rest : List Byte), s.inq = x :: rest → b = if s.msbfL then x.getLsbD 7 else x.getLsbD 0)

/-- R244: at an INTERNAL node the bit chooses the child: an INTERNAL child moves PTR, a byte leaf is pushed and PTR returns to ROOT, the
PSEUDO_EOF leaf completes the job and discards the byte's other bits, an EMPTY child is BAD_NODE at its index. -/
def Obligations.DecoderStepFollowsTheBit : Prop :=
  ∀ (s : State) (z o : NodeIdx), s.phase = .decWalk → avail s = true → s.icnt.toNat ≤ 8 → s.ptr.toNat ≤ 512 →
    nodeView (nodeWord s s.ptr) = .internal z o → z.toNat ≤ 512 → o.toNat ≤ 512 →
    (∀ z' o', nodeView (nodeWord s (if peekBit s then o else z)) = .internal z' o' →
      engineStep s = .next { consumeBit s with ptr := if peekBit s then o else z }) ∧
    (∀ sym, nodeView (nodeWord s (if peekBit s then o else z)) = .leaf sym → sym ≠ 0x100#9 → s.outq.length ≠ 16 →
      engineStep s = .next { consumeBit s with outq := s.outq ++ [sym.extractLsb' 0 8], ptr := s.root }) ∧
    (nodeView (nodeWord s (if peekBit s then o else z)) = .leaf 0x100#9 →
      engineStep s = .next { consumeBit s with icnt := 0#4, done := true, phase := .idle, iend := false }) ∧
    (nodeView (nodeWord s (if peekBit s then o else z)) = .empty →
      engineStep s = .next { consumeBit s with
        err := true, errcode := .badNode, errinfo := if peekBit s then o else z, phase := .idle, iend := false })

/-- R245: with a LEAF at the root, bit 0 is the code of that leaf and bit 1 is BAD_CODE with ERRINFO = ROOT, the bit consumed. -/
def Obligations.SingleLeafTreeHasTheCodeZero : Prop :=
  ∀ (s : State) (sym : Symbol), s.phase = .decWalk → avail s = true → s.icnt.toNat ≤ 8 → s.root.toNat ≤ 512 → s.ptr = s.root →
    nodeView (nodeWord s s.root) = .leaf sym →
    (peekBit s = true → engineStep s = .next { consumeBit s with
      err := true, errcode := .badCode, errinfo := s.root, phase := .idle, iend := false }) ∧
    (peekBit s = false → sym ≠ 0x100#9 → s.outq.length ≠ 16 →
      engineStep s = .next { consumeBit s with outq := s.outq ++ [sym.extractLsb' 0 8] }) ∧
    (peekBit s = false → sym = 0x100#9 →
      engineStep s = .next { consumeBit s with icnt := 0#4, done := true, phase := .idle, iend := false })

/-- R244, R320: a bit needed at the end of the source is TRUNCATED with ERRINFO = PTR and no bit consumed; without the end marked the engine
holds. -/
def Obligations.DecoderTruncatesAtTheEnd : Prop :=
  ∀ s : State, s.phase = .decWalk → s.icnt = 0#4 → s.inq = [] →
    (s.iend = true → engineStep s = .next { s with
      err := true, errcode := .truncated, errinfo := s.ptr, phase := .idle, iend := false }) ∧
    (s.iend = false → engineStep s = .next s)

/-- R248: under the invariant each step of the walk that is no hold stops the job or consumes exactly one bit of what is left. -/
def Obligations.EachWalkStepStopsOrConsumesABit : Prop :=
  ∀ s : State, StateInv s → s.phase = .decWalk → engineHeld s = false →
    ∃ t, engineStep s = .next t ∧
      (t.phase = .idle ∨
        (t.phase = .decWalk ∧ (inputBits t).length + 1 = (inputBits s).length ∧ t.bitsin = s.bitsin + 1#32))

/-- R248: with the end marked and nothing coming, within ICNT + 8 * |INQ| + 1 steps a decode job has ended or the engine is held on a full
OUTQ, whatever NODE holds; with room in OUTQ for a byte for each bit it has ended. -/
def Obligations.DecodeJobEndsInTime : Prop :=
  ∀ s : State, StateInv s → s.phase = .decWalk → s.pending = [] → s.iend = true →
    ∃ n t, n ≤ s.icnt.toNat + 8 * s.inq.length + 1 ∧ engineRun n s = .next t ∧
      ((busy t = false ∧ (t.done = true ∨ t.err = true)) ∨
        (t.phase = .decWalk ∧ t.outq.length = 16 ∧ avail t = true ∧ engineHeld t = true ∧ engineStep t = .next t)) ∧
      (s.outq.length + (s.icnt.toNat + 8 * s.inq.length) ≤ 16 → busy t = false)

/-- R249, one symbol: from the root, the bits of a leaf's path take the walk to the leaf, whose byte is pushed; the walk is back at the root
and the rest of the stream is left. -/
def Obligations.DecoderWalksAPathToItsSymbol : Prop :=
  ∀ (s : State) (tree : CodeTree) (sym : Symbol) (p rest : List Bool),
    s.phase = .decWalk → s.pending = [] → s.ptr = s.root → s.icnt.toNat ≤ 8 → HoldsTree s tree s.root →
    (sym, p) ∈ tree.codes → sym ≠ 0x100#9 → inputBits s = p ++ rest → s.outq.length < 16 →
    ∃ t, engineRun p.length s = .next t ∧ inputBits t = rest ∧ t.icnt.toNat ≤ 8 ∧
      t = { s with
        outq := s.outq ++ [sym.extractLsb' 0 8], bitsin := s.bitsin + BitVec.ofNat 32 p.length
        inq := t.inq, iacc := t.iacc, icnt := t.icnt }

/-- R249, first part: a stream of leaf paths that ends with the PSEUDO_EOF path decodes to the symbols of those leaves and completes; what
follows in the stream is not decoded: the rest of the byte that holds the last bit is discarded, and every later byte of INQ remains. -/
def Obligations.DecodeJobEmitsTheSymbols : Prop :=
  ∀ (s : State) (tree : CodeTree) (parsed : List (Symbol × List Bool)) (eofPath rest : List Bool),
    s.phase = .decWalk → s.pending = [] → s.ptr = s.root → s.icnt.toNat ≤ 8 → HoldsTree s tree s.root →
    (∀ c ∈ parsed, c ∈ tree.codes ∧ c.1 ≠ 0x100#9) → (0x100#9, eofPath) ∈ tree.codes →
    inputBits s = parsed.flatMap Prod.snd ++ eofPath ++ rest → s.outq.length + parsed.length ≤ 16 →
    ∃ t, engineRun ((parsed.flatMap Prod.snd).length + eofPath.length) s = .next t ∧
      t.phase = .idle ∧ t.done = true ∧ t.err = s.err ∧ t.iend = false ∧ t.icnt = 0#4 ∧
      t.inq = s.inq.drop (((parsed.flatMap Prod.snd).length + eofPath.length - s.icnt.toNat + 7) / 8) ∧
      t.outq = s.outq ++ parsed.map (fun c => c.1.extractLsb' 0 8) ∧
      t.bitsin = s.bitsin + BitVec.ofNat 32 ((parsed.flatMap Prod.snd).length + eofPath.length)

/-- R249, second part: a stream of leaf paths that ends, with the end marked, inside or just before another path is TRUNCATED after the
symbols of every complete path; every bit is counted. -/
def Obligations.DecodeJobTruncatesAnUnfinishedStream : Prop :=
  ∀ (s : State) (tree : CodeTree) (parsed : List (Symbol × List Bool)) (tail unread : List Bool) (last : Symbol),
    s.phase = .decWalk → s.pending = [] → s.ptr = s.root → s.icnt.toNat ≤ 8 → s.iend = true → HoldsTree s tree s.root →
    (∀ c ∈ parsed, c ∈ tree.codes ∧ c.1 ≠ 0x100#9) → (last, tail ++ unread) ∈ tree.codes → unread ≠ [] →
    inputBits s = parsed.flatMap Prod.snd ++ tail → s.outq.length + parsed.length ≤ 16 →
    ∃ t, engineRun ((inputBits s).length + 1) s = .next t ∧
      t.phase = .idle ∧ t.err = true ∧ t.errcode = .truncated ∧ t.done = s.done ∧ t.iend = false ∧ t.inq = [] ∧
      t.outq = s.outq ++ parsed.map (fun c => c.1.extractLsb' 0 8) ∧
      t.bitsin = s.bitsin + BitVec.ofNat 32 (inputBits s).length

/-! ### Holds, errors, and the round trip -/

/-- R207, R247: under the invariant a running engine's turn changes nothing exactly when one of the four holds of the tables stands. The case
of the idle engine, whose turn is a step without effect, is the model's choice (log entry 11), no rule's. -/
def Obligations.EngineHoldsExactlyAsTheTablesSay : Prop :=
  ∀ s : State, StateInv s → (engineStep s = .next s ↔ engineHeld s = true)

/-- R322, R323: an engine step that ends the job in error leaves OUTQ, BITCNT, the packer, CT, NODE and ROOT as they were, names one of the four
engine errors, and has consumed the failing byte (ENC_GAP of a byte), the failing bit (BAD_NODE, BAD_CODE) or nothing (TRUNCATED, ENC_GAP of
PSEUDO_EOF). -/
def Obligations.EngineErrorsArePrecise : Prop :=
  ∀ s t, StateInv s → busy s = true → engineStep s = .next t → t.err = true →
    (t.phase = .idle ∧ t.iend = false ∧ t.done = false) ∧
    (t.outq = s.outq ∧ t.bitcnt = s.bitcnt ∧ t.oacc = s.oacc ∧ t.ocnt = s.ocnt ∧ t.ct = s.ct ∧ t.node = s.node ∧ t.root = s.root) ∧
    ((t.errcode = .encGap ∧ t.bitsin = s.bitsin ∧ t.inq = s.inq.tail) ∨
      (t.errcode = .truncated ∧ t.bitsin = s.bitsin ∧ t.inq = s.inq ∧ t.errinfo = s.ptr) ∨
      ((t.errcode = .badNode ∨ t.errcode = .badCode) ∧ t.bitsin = s.bitsin + 1#32 ∧
        (inputBits t).length + 1 = (inputBits s).length))

/-- R287: no code of a tree is a prefix of another of its codes. -/
def Obligations.CodesOfATreeArePrefixFree : Prop :=
  ∀ tree : CodeTree, tree.codes.Pairwise (fun c d => ¬c.2 <+: d.2 ∧ ¬d.2 <+: c.2)

/-- R123, R288: the numeral of a code string of at most 64 bits, as the CT entry it loads, spells the string in emission order; its bits at or
above its length are 0. -/
def Obligations.ALoadedCodeSpellsItsString : Prop :=
  ∀ p : List Bool, p.length ≤ 64 →
    codeBits { len := BitVec.ofNat 7 p.length, bits := codeNumeral p } = p ∧ codeLegal (BitVec.ofNat 7 p.length) (codeNumeral p) = true

/-- R282, R284, R285: BuildTree fails on the empty frequency map alone; in the tree it builds each symbol of the map is at exactly one leaf,
whose weight is its frequency, and every internal node's weight is the sum of its two children's. -/
def Obligations.BuiltTreeHoldsEachSymbolOnce : Prop :=
  ∀ freq : List (Symbol × Nat),
    (buildTree freq = none ↔ freq = []) ∧ ∀ tree, buildTree freq = some tree →
      tree.symbols.Perm (freq.map Prod.fst) ∧ tree.leafWeights.Perm freq ∧ tree.weightsAddUp

/-- R289: NODE loaded with a tree in pre-order from 0 holds that tree at 0, its nodes at the indices 0, 1, 2, ... each once. -/
def Obligations.TreeLoadMakesTheTree : Prop :=
  ∀ (s : State) (tree : CodeTree), tree.size ≤ 513 → TreeLoaded s tree 0 →
    HoldsTree s tree 0#10 ∧ treeIndices s tree 0#10 = (List.range tree.size).map (BitVec.ofNat 10)

/-- R290, R299 at the block, for inputs and streams that fit the FIFOs: an encode job and a decode job with the same bit order, over a table
and a tree that meet R290, give the input back. -/
def Obligations.DecodingTheEncodedInputGivesItBack : Prop :=
  ∀ (e d : State) (tree : CodeTree),
    WFTable e tree e.inq → (∀ c ∈ e.ct, entryLegal c.2 = true) → InputCovered e e.inq → WFTree d tree →
    e.phase = .encFetch → e.ocnt = 0#3 → e.pending = [] → e.iend = true → e.outq = [] → e.inq.length ≤ 16 →
    (encodedBits e e.inq).length ≤ 128 →
    d.phase = .decWalk → d.ptr = d.root → d.icnt = 0#4 → d.pending = [] → d.outq = [] → d.msbfL = e.msbfL →
    ∃ n t, engineRun n e = .next t ∧ endedWell t = true ∧
      (d.inq = t.outq → ∃ m u, engineRun m d = .next u ∧ endedWell u = true ∧ u.outq = e.inq)

/-- R299 with the reference procedure: with CT and NODE loaded from the tree built of the input's own frequencies, decoding the encoded input
gives it back, for inputs and streams that fit the FIFOs. -/
def Obligations.TheReferenceProcedureRoundTrips : Prop :=
  ∀ (e d : State) (tree : CodeTree),
    buildTree (frequencyCount e.inq) = some tree → TableLoaded e tree → (∀ c ∈ e.ct, entryLegal c.2 = true) →
    TreeLoaded d tree 0 → d.root = 0#10 →
    e.phase = .encFetch → e.ocnt = 0#3 → e.pending = [] → e.iend = true → e.outq = [] → e.inq.length ≤ 16 →
    (encodedBits e e.inq).length ≤ 128 →
    d.phase = .decWalk → d.ptr = 0#10 → d.icnt = 0#4 → d.pending = [] → d.outq = [] → d.msbfL = e.msbfL →
    ∃ n t, engineRun n e = .next t ∧ endedWell t = true ∧
      (d.inq = t.outq → ∃ m u, engineRun m d = .next u ∧ endedWell u = true ∧ u.outq = e.inq)

/-! ### The register map and the order of bits, written out -/

/-- The register map of 10_state.md: the sixteen registers at their offsets; `rd` and `wr` of a register are the aligned 32-bit accesses at
its offset, and the access at an offset reaches its register. -/
def Obligations.TheRegisterMapIsAtItsOffsets : Prop :=
  ∀ p ∈ [(Reg.id, 0x00#6), (.ctrl, 0x04#6), (.status, 0x08#6), (.cmd, 0x0C#6), (.arg0, 0x10#6), (.arg1, 0x14#6), (.arg2, 0x18#6),
      (.root, 0x1C#6), (.inData, 0x20#6), (.inEnd, 0x24#6), (.outData, 0x28#6), (.bitcnt, 0x2C#6), (.bitsin, 0x30#6), (.errinfo, 0x34#6),
      (.reserved38, 0x38#6), (.reserved3C, 0x3C#6)],
    ∀ (v : Word) (s : State),
      rd p.1 = .read p.2 4 ∧ wr p.1 v = .write p.2 4 v ∧
      hostStep (.read p.2 4) s =
        .next { (readReg p.1 s).2 with replies := (readReg p.1 s).2.replies ++ [(readReg p.1 s).1] } ∧
      hostStep (.write p.2 4 v) s = writeReg p.1 v s

/-- R63: with MSBF_L = 0 bit 8k+j of the packed stream is bit j of byte k, with MSBF_L = 1 bit 7-j; the bits packed and not yet popped are
those of OUTQ and then the first OCNT of OACC, the bits still to consume are the last ICNT of IACC and then those of INQ. -/
def Obligations.TheStreamCarriesItsBitsInOrder : Prop :=
  (∀ (bytes : List Byte) (k j : Nat) (b : Byte), bytes[k]? = some b → j < 8 →
    (streamBits false bytes)[8 * k + j]? = some (b.getLsbD j) ∧ (streamBits true bytes)[8 * k + j]? = some (b.getLsbD (7 - j))) ∧
  ∀ s : State, s.icnt.toNat ≤ 8 →
    (∀ i, i < 8 * s.outq.length → (packedBits s)[i]? = (streamBits s.msbfL s.outq)[i]?) ∧
    (∀ j, j < s.ocnt.toNat →
      (packedBits s)[8 * s.outq.length + j]? = some (s.oacc.getLsbD (if s.msbfL then 7 - j else j))) ∧
    (packedBits s).length = 8 * s.outq.length + s.ocnt.toNat ∧
    (∀ j, j < s.icnt.toNat →
      (inputBits s)[j]? = some (s.iacc.getLsbD (if s.msbfL then s.icnt.toNat - 1 - j else 8 - s.icnt.toNat + j))) ∧
    (∀ i, i < 8 * s.inq.length → (inputBits s)[s.icnt.toNat + i]? = (streamBits s.msbfL s.inq)[i]?) ∧
    (inputBits s).length = s.icnt.toNat + 8 * s.inq.length
end

