-- ==== Sys2Proof/Laws/Decode.lean ====
section
/-! SUPPORT. The laws of the decoder: rows of the opcode map never overlap, byte lanes give the word back, and each format's decoder
says once when it accepts (spec/30_encoding.md R94-R96, spec/20_memory.md R62). -/

namespace Sys2Proof

/-- No word selects two rows of the opcode map: any two rows differ in a bit both fix (R94). -/
theorem opcodeMap_disjoint : opcodeMap.Pairwise (fun a b => a.disjoint b = true) := by decide

/-- A bit that two rows both fix, and fix differently, keeps a word from selecting both. -/
theorem not_selects_both (a b : OpcodeRow) (h : a.disjoint b = true) (w : Word) :
    ¬(a.selects w = true ∧ b.selects w = true) := by
  simp only [OpcodeRow.disjoint, OpcodeRow.selects, bne_iff_ne, ne_eq, beq_iff_eq] at h ⊢
  rintro ⟨ha, hb⟩
  apply h
  rw [← ha, ← hb]
  ext i hi
  simp only [BitVec.getElem_and, BitVec.getElem_xor, BitVec.getElem_zero]
  cases w[i] <;> cases a.mask[i] <;> cases b.mask[i] <;> rfl

/-- Every command's row stands in the opcode map (R94). -/
theorem row_mem_opcodeMap (i : Instr) : i.row ∈ opcodeMap := by
  cases i <;> simp [Instr.row, opcodeMap]

/-- The four byte lanes of a word make the word (R62). -/
theorem wordOfBytes_byteLane (w : Word) :
    wordOfBytes (byteLane w 0) (byteLane w 1) (byteLane w 2) (byteLane w 3) = w := by
  apply BitVec.eq_of_getLsbD_eq
  intro i hi
  simp only [wordOfBytes, byteLane, BitVec.getLsbD_append, BitVec.getLsbD_extractLsb']
  interval_cases i <;> rfl

/-- On the bytes of a word the decoder does what it does on the word. -/
theorem decodeBytes_wordBytes (w : Word) (rest : List Byte) :
    decodeBytes (wordBytes w ++ rest) = (decodeCmd w).map (fun i => (i, rest)) := by
  simp only [wordBytes, List.cons_append, List.nil_append, decodeBytes, wordOfBytes_byteLane]
  cases decodeCmd w <;> rfl

/-- Format N accepts exactly the words whose reserved bits are clear (R95). -/
theorem decodeN_eq_ok_iff (mk i : Instr) (w : Word) : decodeN mk w = .ok i ↔ reservedClear .n w = true ∧ mk = i := by
  unfold decodeN
  split <;> simp_all

/-- Format S accepts exactly the words with clear reserved bits and SYM in range (R95). -/
theorem decodeS_eq_ok_iff (mk : Symbol → Instr) (i : Instr) (w : Word) :
    decodeS mk w = .ok i ↔ reservedClear .s w = true ∧ symInRange (symOf w) = true ∧ mk (symOf w) = i := by
  unfold decodeS
  split
  · simp_all
  · split <;> simp_all

/-- Format L accepts exactly the words with clear reserved bits, SYM and LEN in range (R95). -/
theorem decodeL_eq_ok_iff (mk : Symbol → BitVec 7 → Instr) (i : Instr) (w : Word) :
    decodeL mk w = .ok i ↔
      reservedClear .l w = true ∧ symInRange (symOf w) = true ∧ lenInRange (lenOf w) = true ∧ mk (symOf w) (lenOf w) = i := by
  unfold decodeL
  split
  · simp_all
  · split
    · simp_all
    · split <;> simp_all

/-- Format I accepts exactly the words with clear reserved bits, IDX in range (R95). -/
theorem decodeI_eq_ok_iff (mk : NodeIdx → Instr) (i : Instr) (w : Word) :
    decodeI mk w = .ok i ↔ reservedClear .i w = true ∧ idxInRange (idxOf w) = true ∧ mk (idxOf w) = i := by
  unfold decodeI
  split
  · simp_all
  · split <;> simp_all

end Sys2Proof
end

