-- ==== Sys2Proof/Laws/State.lean ====
section
/-! SUPPORT. What each named update of the state leaves in each field: one lemma per field per update, true by rfl. -/

namespace Sys2Proof.Machine

/-! ### complete -/

@[simp] theorem complete_ctrl (s : State) : (complete s).ctrl = s.ctrl := rfl
@[simp] theorem complete_done (s : State) : (complete s).done = true := rfl
@[simp] theorem complete_err (s : State) : (complete s).err = s.err := rfl
@[simp] theorem complete_cmdovr (s : State) : (complete s).cmdovr = s.cmdovr := rfl
@[simp] theorem complete_inovr (s : State) : (complete s).inovr = s.inovr := rfl
@[simp] theorem complete_iend (s : State) : (complete s).iend = s.iend := rfl
@[simp] theorem complete_errcode (s : State) : (complete s).errcode = s.errcode := rfl
@[simp] theorem complete_arg0 (s : State) : (complete s).arg0 = s.arg0 := rfl
@[simp] theorem complete_arg1 (s : State) : (complete s).arg1 = s.arg1 := rfl
@[simp] theorem complete_arg2 (s : State) : (complete s).arg2 = s.arg2 := rfl
@[simp] theorem complete_root (s : State) : (complete s).root = s.root := rfl
@[simp] theorem complete_bitcnt (s : State) : (complete s).bitcnt = s.bitcnt := rfl
@[simp] theorem complete_bitsin (s : State) : (complete s).bitsin = s.bitsin := rfl
@[simp] theorem complete_errinfo (s : State) : (complete s).errinfo = s.errinfo := rfl
@[simp] theorem complete_ct (s : State) : (complete s).ct = s.ct := rfl
@[simp] theorem complete_node (s : State) : (complete s).node = s.node := rfl
@[simp] theorem complete_inq (s : State) : (complete s).inq = s.inq := rfl
@[simp] theorem complete_outq (s : State) : (complete s).outq = s.outq := rfl
@[simp] theorem complete_phase (s : State) : (complete s).phase = s.phase := rfl
@[simp] theorem complete_msbfL (s : State) : (complete s).msbfL = s.msbfL := rfl
@[simp] theorem complete_curBits (s : State) : (complete s).curBits = s.curBits := rfl
@[simp] theorem complete_curLen (s : State) : (complete s).curLen = s.curLen := rfl
@[simp] theorem complete_curPos (s : State) : (complete s).curPos = s.curPos := rfl
@[simp] theorem complete_curLast (s : State) : (complete s).curLast = s.curLast := rfl
@[simp] theorem complete_oacc (s : State) : (complete s).oacc = s.oacc := rfl
@[simp] theorem complete_ocnt (s : State) : (complete s).ocnt = s.ocnt := rfl
@[simp] theorem complete_iacc (s : State) : (complete s).iacc = s.iacc := rfl
@[simp] theorem complete_icnt (s : State) : (complete s).icnt = s.icnt := rfl
@[simp] theorem complete_ptr (s : State) : (complete s).ptr = s.ptr := rfl
@[simp] theorem complete_pending (s : State) : (complete s).pending = s.pending := rfl
@[simp] theorem complete_replies (s : State) : (complete s).replies = s.replies := rfl

/-! ### jobDone -/

@[simp] theorem jobDone_ctrl (s : State) : (jobDone s).ctrl = s.ctrl := rfl
@[simp] theorem jobDone_done (s : State) : (jobDone s).done = true := rfl
@[simp] theorem jobDone_err (s : State) : (jobDone s).err = s.err := rfl
@[simp] theorem jobDone_cmdovr (s : State) : (jobDone s).cmdovr = s.cmdovr := rfl
@[simp] theorem jobDone_inovr (s : State) : (jobDone s).inovr = s.inovr := rfl
@[simp] theorem jobDone_iend (s : State) : (jobDone s).iend = false := rfl
@[simp] theorem jobDone_errcode (s : State) : (jobDone s).errcode = s.errcode := rfl
@[simp] theorem jobDone_arg0 (s : State) : (jobDone s).arg0 = s.arg0 := rfl
@[simp] theorem jobDone_arg1 (s : State) : (jobDone s).arg1 = s.arg1 := rfl
@[simp] theorem jobDone_arg2 (s : State) : (jobDone s).arg2 = s.arg2 := rfl
@[simp] theorem jobDone_root (s : State) : (jobDone s).root = s.root := rfl
@[simp] theorem jobDone_bitcnt (s : State) : (jobDone s).bitcnt = s.bitcnt := rfl
@[simp] theorem jobDone_bitsin (s : State) : (jobDone s).bitsin = s.bitsin := rfl
@[simp] theorem jobDone_errinfo (s : State) : (jobDone s).errinfo = s.errinfo := rfl
@[simp] theorem jobDone_ct (s : State) : (jobDone s).ct = s.ct := rfl
@[simp] theorem jobDone_node (s : State) : (jobDone s).node = s.node := rfl
@[simp] theorem jobDone_inq (s : State) : (jobDone s).inq = s.inq := rfl
@[simp] theorem jobDone_outq (s : State) : (jobDone s).outq = s.outq := rfl
@[simp] theorem jobDone_phase (s : State) : (jobDone s).phase = .idle := rfl
@[simp] theorem jobDone_msbfL (s : State) : (jobDone s).msbfL = s.msbfL := rfl
@[simp] theorem jobDone_curBits (s : State) : (jobDone s).curBits = s.curBits := rfl
@[simp] theorem jobDone_curLen (s : State) : (jobDone s).curLen = s.curLen := rfl
@[simp] theorem jobDone_curPos (s : State) : (jobDone s).curPos = s.curPos := rfl
@[simp] theorem jobDone_curLast (s : State) : (jobDone s).curLast = s.curLast := rfl
@[simp] theorem jobDone_oacc (s : State) : (jobDone s).oacc = s.oacc := rfl
@[simp] theorem jobDone_ocnt (s : State) : (jobDone s).ocnt = s.ocnt := rfl
@[simp] theorem jobDone_iacc (s : State) : (jobDone s).iacc = s.iacc := rfl
@[simp] theorem jobDone_icnt (s : State) : (jobDone s).icnt = s.icnt := rfl
@[simp] theorem jobDone_ptr (s : State) : (jobDone s).ptr = s.ptr := rfl
@[simp] theorem jobDone_pending (s : State) : (jobDone s).pending = s.pending := rfl
@[simp] theorem jobDone_replies (s : State) : (jobDone s).replies = s.replies := rfl

/-! ### recordError -/

@[simp] theorem recordError_ctrl (code : ErrCode) (info : BitVec 10) (s : State) : (recordError code info s).ctrl = s.ctrl := rfl
@[simp] theorem recordError_done (code : ErrCode) (info : BitVec 10) (s : State) : (recordError code info s).done = s.done := rfl
@[simp] theorem recordError_err (code : ErrCode) (info : BitVec 10) (s : State) : (recordError code info s).err = true := rfl
@[simp] theorem recordError_cmdovr (code : ErrCode) (info : BitVec 10) (s : State) : (recordError code info s).cmdovr = s.cmdovr := rfl
@[simp] theorem recordError_inovr (code : ErrCode) (info : BitVec 10) (s : State) : (recordError code info s).inovr = s.inovr := rfl
@[simp] theorem recordError_iend (code : ErrCode) (info : BitVec 10) (s : State) : (recordError code info s).iend = s.iend := rfl
@[simp] theorem recordError_errcode (code : ErrCode) (info : BitVec 10) (s : State) : (recordError code info s).errcode = code := rfl
@[simp] theorem recordError_arg0 (code : ErrCode) (info : BitVec 10) (s : State) : (recordError code info s).arg0 = s.arg0 := rfl
@[simp] theorem recordError_arg1 (code : ErrCode) (info : BitVec 10) (s : State) : (recordError code info s).arg1 = s.arg1 := rfl
@[simp] theorem recordError_arg2 (code : ErrCode) (info : BitVec 10) (s : State) : (recordError code info s).arg2 = s.arg2 := rfl
@[simp] theorem recordError_root (code : ErrCode) (info : BitVec 10) (s : State) : (recordError code info s).root = s.root := rfl
@[simp] theorem recordError_bitcnt (code : ErrCode) (info : BitVec 10) (s : State) : (recordError code info s).bitcnt = s.bitcnt := rfl
@[simp] theorem recordError_bitsin (code : ErrCode) (info : BitVec 10) (s : State) : (recordError code info s).bitsin = s.bitsin := rfl
@[simp] theorem recordError_errinfo (code : ErrCode) (info : BitVec 10) (s : State) : (recordError code info s).errinfo = info := rfl
@[simp] theorem recordError_ct (code : ErrCode) (info : BitVec 10) (s : State) : (recordError code info s).ct = s.ct := rfl
@[simp] theorem recordError_node (code : ErrCode) (info : BitVec 10) (s : State) : (recordError code info s).node = s.node := rfl
@[simp] theorem recordError_inq (code : ErrCode) (info : BitVec 10) (s : State) : (recordError code info s).inq = s.inq := rfl
@[simp] theorem recordError_outq (code : ErrCode) (info : BitVec 10) (s : State) : (recordError code info s).outq = s.outq := rfl
@[simp] theorem recordError_phase (code : ErrCode) (info : BitVec 10) (s : State) : (recordError code info s).phase = s.phase := rfl
@[simp] theorem recordError_msbfL (code : ErrCode) (info : BitVec 10) (s : State) : (recordError code info s).msbfL = s.msbfL := rfl
@[simp] theorem recordError_curBits (code : ErrCode) (info : BitVec 10) (s : State) : (recordError code info s).curBits = s.curBits := rfl
@[simp] theorem recordError_curLen (code : ErrCode) (info : BitVec 10) (s : State) : (recordError code info s).curLen = s.curLen := rfl
@[simp] theorem recordError_curPos (code : ErrCode) (info : BitVec 10) (s : State) : (recordError code info s).curPos = s.curPos := rfl
@[simp] theorem recordError_curLast (code : ErrCode) (info : BitVec 10) (s : State) : (recordError code info s).curLast = s.curLast := rfl
@[simp] theorem recordError_oacc (code : ErrCode) (info : BitVec 10) (s : State) : (recordError code info s).oacc = s.oacc := rfl
@[simp] theorem recordError_ocnt (code : ErrCode) (info : BitVec 10) (s : State) : (recordError code info s).ocnt = s.ocnt := rfl
@[simp] theorem recordError_iacc (code : ErrCode) (info : BitVec 10) (s : State) : (recordError code info s).iacc = s.iacc := rfl
@[simp] theorem recordError_icnt (code : ErrCode) (info : BitVec 10) (s : State) : (recordError code info s).icnt = s.icnt := rfl
@[simp] theorem recordError_ptr (code : ErrCode) (info : BitVec 10) (s : State) : (recordError code info s).ptr = s.ptr := rfl
@[simp] theorem recordError_pending (code : ErrCode) (info : BitVec 10) (s : State) : (recordError code info s).pending = s.pending := rfl
@[simp] theorem recordError_replies (code : ErrCode) (info : BitVec 10) (s : State) : (recordError code info s).replies = s.replies := rfl

/-! ### endJob -/

@[simp] theorem endJob_ctrl (s : State) : (endJob s).ctrl = s.ctrl := rfl
@[simp] theorem endJob_done (s : State) : (endJob s).done = s.done := rfl
@[simp] theorem endJob_err (s : State) : (endJob s).err = s.err := rfl
@[simp] theorem endJob_cmdovr (s : State) : (endJob s).cmdovr = s.cmdovr := rfl
@[simp] theorem endJob_inovr (s : State) : (endJob s).inovr = s.inovr := rfl
@[simp] theorem endJob_iend (s : State) : (endJob s).iend = false := rfl
@[simp] theorem endJob_errcode (s : State) : (endJob s).errcode = s.errcode := rfl
@[simp] theorem endJob_arg0 (s : State) : (endJob s).arg0 = s.arg0 := rfl
@[simp] theorem endJob_arg1 (s : State) : (endJob s).arg1 = s.arg1 := rfl
@[simp] theorem endJob_arg2 (s : State) : (endJob s).arg2 = s.arg2 := rfl
@[simp] theorem endJob_root (s : State) : (endJob s).root = s.root := rfl
@[simp] theorem endJob_bitcnt (s : State) : (endJob s).bitcnt = s.bitcnt := rfl
@[simp] theorem endJob_bitsin (s : State) : (endJob s).bitsin = s.bitsin := rfl
@[simp] theorem endJob_errinfo (s : State) : (endJob s).errinfo = s.errinfo := rfl
@[simp] theorem endJob_ct (s : State) : (endJob s).ct = s.ct := rfl
@[simp] theorem endJob_node (s : State) : (endJob s).node = s.node := rfl
@[simp] theorem endJob_inq (s : State) : (endJob s).inq = s.inq := rfl
@[simp] theorem endJob_outq (s : State) : (endJob s).outq = s.outq := rfl
@[simp] theorem endJob_phase (s : State) : (endJob s).phase = .idle := rfl
@[simp] theorem endJob_msbfL (s : State) : (endJob s).msbfL = s.msbfL := rfl
@[simp] theorem endJob_curBits (s : State) : (endJob s).curBits = s.curBits := rfl
@[simp] theorem endJob_curLen (s : State) : (endJob s).curLen = s.curLen := rfl
@[simp] theorem endJob_curPos (s : State) : (endJob s).curPos = s.curPos := rfl
@[simp] theorem endJob_curLast (s : State) : (endJob s).curLast = s.curLast := rfl
@[simp] theorem endJob_oacc (s : State) : (endJob s).oacc = s.oacc := rfl
@[simp] theorem endJob_ocnt (s : State) : (endJob s).ocnt = s.ocnt := rfl
@[simp] theorem endJob_iacc (s : State) : (endJob s).iacc = s.iacc := rfl
@[simp] theorem endJob_icnt (s : State) : (endJob s).icnt = s.icnt := rfl
@[simp] theorem endJob_ptr (s : State) : (endJob s).ptr = s.ptr := rfl
@[simp] theorem endJob_pending (s : State) : (endJob s).pending = s.pending := rfl
@[simp] theorem endJob_replies (s : State) : (endJob s).replies = s.replies := rfl

/-! ### acceptClear -/

@[simp] theorem acceptClear_ctrl (s : State) : (acceptClear s).ctrl = s.ctrl := rfl
@[simp] theorem acceptClear_done (s : State) : (acceptClear s).done = false := rfl
@[simp] theorem acceptClear_err (s : State) : (acceptClear s).err = false := rfl
@[simp] theorem acceptClear_cmdovr (s : State) : (acceptClear s).cmdovr = s.cmdovr := rfl
@[simp] theorem acceptClear_inovr (s : State) : (acceptClear s).inovr = s.inovr := rfl
@[simp] theorem acceptClear_iend (s : State) : (acceptClear s).iend = s.iend := rfl
@[simp] theorem acceptClear_errcode (s : State) : (acceptClear s).errcode = .none := rfl
@[simp] theorem acceptClear_arg0 (s : State) : (acceptClear s).arg0 = s.arg0 := rfl
@[simp] theorem acceptClear_arg1 (s : State) : (acceptClear s).arg1 = s.arg1 := rfl
@[simp] theorem acceptClear_arg2 (s : State) : (acceptClear s).arg2 = s.arg2 := rfl
@[simp] theorem acceptClear_root (s : State) : (acceptClear s).root = s.root := rfl
@[simp] theorem acceptClear_bitcnt (s : State) : (acceptClear s).bitcnt = s.bitcnt := rfl
@[simp] theorem acceptClear_bitsin (s : State) : (acceptClear s).bitsin = s.bitsin := rfl
@[simp] theorem acceptClear_errinfo (s : State) : (acceptClear s).errinfo = 0#10 := rfl
@[simp] theorem acceptClear_ct (s : State) : (acceptClear s).ct = s.ct := rfl
@[simp] theorem acceptClear_node (s : State) : (acceptClear s).node = s.node := rfl
@[simp] theorem acceptClear_inq (s : State) : (acceptClear s).inq = s.inq := rfl
@[simp] theorem acceptClear_outq (s : State) : (acceptClear s).outq = s.outq := rfl
@[simp] theorem acceptClear_phase (s : State) : (acceptClear s).phase = s.phase := rfl
@[simp] theorem acceptClear_msbfL (s : State) : (acceptClear s).msbfL = s.msbfL := rfl
@[simp] theorem acceptClear_curBits (s : State) : (acceptClear s).curBits = s.curBits := rfl
@[simp] theorem acceptClear_curLen (s : State) : (acceptClear s).curLen = s.curLen := rfl
@[simp] theorem acceptClear_curPos (s : State) : (acceptClear s).curPos = s.curPos := rfl
@[simp] theorem acceptClear_curLast (s : State) : (acceptClear s).curLast = s.curLast := rfl
@[simp] theorem acceptClear_oacc (s : State) : (acceptClear s).oacc = s.oacc := rfl
@[simp] theorem acceptClear_ocnt (s : State) : (acceptClear s).ocnt = s.ocnt := rfl
@[simp] theorem acceptClear_iacc (s : State) : (acceptClear s).iacc = s.iacc := rfl
@[simp] theorem acceptClear_icnt (s : State) : (acceptClear s).icnt = s.icnt := rfl
@[simp] theorem acceptClear_ptr (s : State) : (acceptClear s).ptr = s.ptr := rfl
@[simp] theorem acceptClear_pending (s : State) : (acceptClear s).pending = s.pending := rfl
@[simp] theorem acceptClear_replies (s : State) : (acceptClear s).replies = s.replies := rfl

/-! ### statusWrite -/

@[simp] theorem statusWrite_ctrl (v : Word) (s : State) : (statusWrite v s).ctrl = s.ctrl := rfl
@[simp] theorem statusWrite_done (v : Word) (s : State) : (statusWrite v s).done = (s.done && !v.getLsbD 1) := rfl
@[simp] theorem statusWrite_err (v : Word) (s : State) : (statusWrite v s).err = (s.err && !v.getLsbD 2) := rfl
@[simp] theorem statusWrite_cmdovr (v : Word) (s : State) : (statusWrite v s).cmdovr = (s.cmdovr && !v.getLsbD 3) := rfl
@[simp] theorem statusWrite_inovr (v : Word) (s : State) : (statusWrite v s).inovr = (s.inovr && !v.getLsbD 4) := rfl
@[simp] theorem statusWrite_iend (v : Word) (s : State) : (statusWrite v s).iend = s.iend := rfl
@[simp] theorem statusWrite_errcode (v : Word) (s : State) : (statusWrite v s).errcode = if v.getLsbD 2 then .none else s.errcode := rfl
@[simp] theorem statusWrite_arg0 (v : Word) (s : State) : (statusWrite v s).arg0 = s.arg0 := rfl
@[simp] theorem statusWrite_arg1 (v : Word) (s : State) : (statusWrite v s).arg1 = s.arg1 := rfl
@[simp] theorem statusWrite_arg2 (v : Word) (s : State) : (statusWrite v s).arg2 = s.arg2 := rfl
@[simp] theorem statusWrite_root (v : Word) (s : State) : (statusWrite v s).root = s.root := rfl
@[simp] theorem statusWrite_bitcnt (v : Word) (s : State) : (statusWrite v s).bitcnt = s.bitcnt := rfl
@[simp] theorem statusWrite_bitsin (v : Word) (s : State) : (statusWrite v s).bitsin = s.bitsin := rfl
@[simp] theorem statusWrite_errinfo (v : Word) (s : State) : (statusWrite v s).errinfo = s.errinfo := rfl
@[simp] theorem statusWrite_ct (v : Word) (s : State) : (statusWrite v s).ct = s.ct := rfl
@[simp] theorem statusWrite_node (v : Word) (s : State) : (statusWrite v s).node = s.node := rfl
@[simp] theorem statusWrite_inq (v : Word) (s : State) : (statusWrite v s).inq = s.inq := rfl
@[simp] theorem statusWrite_outq (v : Word) (s : State) : (statusWrite v s).outq = s.outq := rfl
@[simp] theorem statusWrite_phase (v : Word) (s : State) : (statusWrite v s).phase = s.phase := rfl
@[simp] theorem statusWrite_msbfL (v : Word) (s : State) : (statusWrite v s).msbfL = s.msbfL := rfl
@[simp] theorem statusWrite_curBits (v : Word) (s : State) : (statusWrite v s).curBits = s.curBits := rfl
@[simp] theorem statusWrite_curLen (v : Word) (s : State) : (statusWrite v s).curLen = s.curLen := rfl
@[simp] theorem statusWrite_curPos (v : Word) (s : State) : (statusWrite v s).curPos = s.curPos := rfl
@[simp] theorem statusWrite_curLast (v : Word) (s : State) : (statusWrite v s).curLast = s.curLast := rfl
@[simp] theorem statusWrite_oacc (v : Word) (s : State) : (statusWrite v s).oacc = s.oacc := rfl
@[simp] theorem statusWrite_ocnt (v : Word) (s : State) : (statusWrite v s).ocnt = s.ocnt := rfl
@[simp] theorem statusWrite_iacc (v : Word) (s : State) : (statusWrite v s).iacc = s.iacc := rfl
@[simp] theorem statusWrite_icnt (v : Word) (s : State) : (statusWrite v s).icnt = s.icnt := rfl
@[simp] theorem statusWrite_ptr (v : Word) (s : State) : (statusWrite v s).ptr = s.ptr := rfl
@[simp] theorem statusWrite_pending (v : Word) (s : State) : (statusWrite v s).pending = s.pending := rfl
@[simp] theorem statusWrite_replies (v : Word) (s : State) : (statusWrite v s).replies = s.replies := rfl

/-! ### cmdDrop -/

@[simp] theorem cmdDrop_ctrl (s : State) : (cmdDrop s).ctrl = s.ctrl := rfl
@[simp] theorem cmdDrop_done (s : State) : (cmdDrop s).done = s.done := rfl
@[simp] theorem cmdDrop_err (s : State) : (cmdDrop s).err = s.err := rfl
@[simp] theorem cmdDrop_cmdovr (s : State) : (cmdDrop s).cmdovr = true := rfl
@[simp] theorem cmdDrop_inovr (s : State) : (cmdDrop s).inovr = s.inovr := rfl
@[simp] theorem cmdDrop_iend (s : State) : (cmdDrop s).iend = s.iend := rfl
@[simp] theorem cmdDrop_errcode (s : State) : (cmdDrop s).errcode = s.errcode := rfl
@[simp] theorem cmdDrop_arg0 (s : State) : (cmdDrop s).arg0 = s.arg0 := rfl
@[simp] theorem cmdDrop_arg1 (s : State) : (cmdDrop s).arg1 = s.arg1 := rfl
@[simp] theorem cmdDrop_arg2 (s : State) : (cmdDrop s).arg2 = s.arg2 := rfl
@[simp] theorem cmdDrop_root (s : State) : (cmdDrop s).root = s.root := rfl
@[simp] theorem cmdDrop_bitcnt (s : State) : (cmdDrop s).bitcnt = s.bitcnt := rfl
@[simp] theorem cmdDrop_bitsin (s : State) : (cmdDrop s).bitsin = s.bitsin := rfl
@[simp] theorem cmdDrop_errinfo (s : State) : (cmdDrop s).errinfo = s.errinfo := rfl
@[simp] theorem cmdDrop_ct (s : State) : (cmdDrop s).ct = s.ct := rfl
@[simp] theorem cmdDrop_node (s : State) : (cmdDrop s).node = s.node := rfl
@[simp] theorem cmdDrop_inq (s : State) : (cmdDrop s).inq = s.inq := rfl
@[simp] theorem cmdDrop_outq (s : State) : (cmdDrop s).outq = s.outq := rfl
@[simp] theorem cmdDrop_phase (s : State) : (cmdDrop s).phase = s.phase := rfl
@[simp] theorem cmdDrop_msbfL (s : State) : (cmdDrop s).msbfL = s.msbfL := rfl
@[simp] theorem cmdDrop_curBits (s : State) : (cmdDrop s).curBits = s.curBits := rfl
@[simp] theorem cmdDrop_curLen (s : State) : (cmdDrop s).curLen = s.curLen := rfl
@[simp] theorem cmdDrop_curPos (s : State) : (cmdDrop s).curPos = s.curPos := rfl
@[simp] theorem cmdDrop_curLast (s : State) : (cmdDrop s).curLast = s.curLast := rfl
@[simp] theorem cmdDrop_oacc (s : State) : (cmdDrop s).oacc = s.oacc := rfl
@[simp] theorem cmdDrop_ocnt (s : State) : (cmdDrop s).ocnt = s.ocnt := rfl
@[simp] theorem cmdDrop_iacc (s : State) : (cmdDrop s).iacc = s.iacc := rfl
@[simp] theorem cmdDrop_icnt (s : State) : (cmdDrop s).icnt = s.icnt := rfl
@[simp] theorem cmdDrop_ptr (s : State) : (cmdDrop s).ptr = s.ptr := rfl
@[simp] theorem cmdDrop_pending (s : State) : (cmdDrop s).pending = s.pending := rfl
@[simp] theorem cmdDrop_replies (s : State) : (cmdDrop s).replies = s.replies := rfl

/-! ### setCode -/

@[simp] theorem setCode_ctrl (sym : Symbol) (e : CodeEntry) (s : State) : (setCode sym e s).ctrl = s.ctrl := rfl
@[simp] theorem setCode_done (sym : Symbol) (e : CodeEntry) (s : State) : (setCode sym e s).done = s.done := rfl
@[simp] theorem setCode_err (sym : Symbol) (e : CodeEntry) (s : State) : (setCode sym e s).err = s.err := rfl
@[simp] theorem setCode_cmdovr (sym : Symbol) (e : CodeEntry) (s : State) : (setCode sym e s).cmdovr = s.cmdovr := rfl
@[simp] theorem setCode_inovr (sym : Symbol) (e : CodeEntry) (s : State) : (setCode sym e s).inovr = s.inovr := rfl
@[simp] theorem setCode_iend (sym : Symbol) (e : CodeEntry) (s : State) : (setCode sym e s).iend = s.iend := rfl
@[simp] theorem setCode_errcode (sym : Symbol) (e : CodeEntry) (s : State) : (setCode sym e s).errcode = s.errcode := rfl
@[simp] theorem setCode_arg0 (sym : Symbol) (e : CodeEntry) (s : State) : (setCode sym e s).arg0 = s.arg0 := rfl
@[simp] theorem setCode_arg1 (sym : Symbol) (e : CodeEntry) (s : State) : (setCode sym e s).arg1 = s.arg1 := rfl
@[simp] theorem setCode_arg2 (sym : Symbol) (e : CodeEntry) (s : State) : (setCode sym e s).arg2 = s.arg2 := rfl
@[simp] theorem setCode_root (sym : Symbol) (e : CodeEntry) (s : State) : (setCode sym e s).root = s.root := rfl
@[simp] theorem setCode_bitcnt (sym : Symbol) (e : CodeEntry) (s : State) : (setCode sym e s).bitcnt = s.bitcnt := rfl
@[simp] theorem setCode_bitsin (sym : Symbol) (e : CodeEntry) (s : State) : (setCode sym e s).bitsin = s.bitsin := rfl
@[simp] theorem setCode_errinfo (sym : Symbol) (e : CodeEntry) (s : State) : (setCode sym e s).errinfo = s.errinfo := rfl
@[simp] theorem setCode_ct (sym : Symbol) (e : CodeEntry) (s : State) : (setCode sym e s).ct = tableWrite absentEntry sym.toNat e s.ct := rfl
@[simp] theorem setCode_node (sym : Symbol) (e : CodeEntry) (s : State) : (setCode sym e s).node = s.node := rfl
@[simp] theorem setCode_inq (sym : Symbol) (e : CodeEntry) (s : State) : (setCode sym e s).inq = s.inq := rfl
@[simp] theorem setCode_outq (sym : Symbol) (e : CodeEntry) (s : State) : (setCode sym e s).outq = s.outq := rfl
@[simp] theorem setCode_phase (sym : Symbol) (e : CodeEntry) (s : State) : (setCode sym e s).phase = s.phase := rfl
@[simp] theorem setCode_msbfL (sym : Symbol) (e : CodeEntry) (s : State) : (setCode sym e s).msbfL = s.msbfL := rfl
@[simp] theorem setCode_curBits (sym : Symbol) (e : CodeEntry) (s : State) : (setCode sym e s).curBits = s.curBits := rfl
@[simp] theorem setCode_curLen (sym : Symbol) (e : CodeEntry) (s : State) : (setCode sym e s).curLen = s.curLen := rfl
@[simp] theorem setCode_curPos (sym : Symbol) (e : CodeEntry) (s : State) : (setCode sym e s).curPos = s.curPos := rfl
@[simp] theorem setCode_curLast (sym : Symbol) (e : CodeEntry) (s : State) : (setCode sym e s).curLast = s.curLast := rfl
@[simp] theorem setCode_oacc (sym : Symbol) (e : CodeEntry) (s : State) : (setCode sym e s).oacc = s.oacc := rfl
@[simp] theorem setCode_ocnt (sym : Symbol) (e : CodeEntry) (s : State) : (setCode sym e s).ocnt = s.ocnt := rfl
@[simp] theorem setCode_iacc (sym : Symbol) (e : CodeEntry) (s : State) : (setCode sym e s).iacc = s.iacc := rfl
@[simp] theorem setCode_icnt (sym : Symbol) (e : CodeEntry) (s : State) : (setCode sym e s).icnt = s.icnt := rfl
@[simp] theorem setCode_ptr (sym : Symbol) (e : CodeEntry) (s : State) : (setCode sym e s).ptr = s.ptr := rfl
@[simp] theorem setCode_pending (sym : Symbol) (e : CodeEntry) (s : State) : (setCode sym e s).pending = s.pending := rfl
@[simp] theorem setCode_replies (sym : Symbol) (e : CodeEntry) (s : State) : (setCode sym e s).replies = s.replies := rfl

/-! ### setNode -/

@[simp] theorem setNode_ctrl (idx : NodeIdx) (w : Word) (s : State) : (setNode idx w s).ctrl = s.ctrl := rfl
@[simp] theorem setNode_done (idx : NodeIdx) (w : Word) (s : State) : (setNode idx w s).done = s.done := rfl
@[simp] theorem setNode_err (idx : NodeIdx) (w : Word) (s : State) : (setNode idx w s).err = s.err := rfl
@[simp] theorem setNode_cmdovr (idx : NodeIdx) (w : Word) (s : State) : (setNode idx w s).cmdovr = s.cmdovr := rfl
@[simp] theorem setNode_inovr (idx : NodeIdx) (w : Word) (s : State) : (setNode idx w s).inovr = s.inovr := rfl
@[simp] theorem setNode_iend (idx : NodeIdx) (w : Word) (s : State) : (setNode idx w s).iend = s.iend := rfl
@[simp] theorem setNode_errcode (idx : NodeIdx) (w : Word) (s : State) : (setNode idx w s).errcode = s.errcode := rfl
@[simp] theorem setNode_arg0 (idx : NodeIdx) (w : Word) (s : State) : (setNode idx w s).arg0 = s.arg0 := rfl
@[simp] theorem setNode_arg1 (idx : NodeIdx) (w : Word) (s : State) : (setNode idx w s).arg1 = s.arg1 := rfl
@[simp] theorem setNode_arg2 (idx : NodeIdx) (w : Word) (s : State) : (setNode idx w s).arg2 = s.arg2 := rfl
@[simp] theorem setNode_root (idx : NodeIdx) (w : Word) (s : State) : (setNode idx w s).root = s.root := rfl
@[simp] theorem setNode_bitcnt (idx : NodeIdx) (w : Word) (s : State) : (setNode idx w s).bitcnt = s.bitcnt := rfl
@[simp] theorem setNode_bitsin (idx : NodeIdx) (w : Word) (s : State) : (setNode idx w s).bitsin = s.bitsin := rfl
@[simp] theorem setNode_errinfo (idx : NodeIdx) (w : Word) (s : State) : (setNode idx w s).errinfo = s.errinfo := rfl
@[simp] theorem setNode_ct (idx : NodeIdx) (w : Word) (s : State) : (setNode idx w s).ct = s.ct := rfl
@[simp] theorem setNode_node (idx : NodeIdx) (w : Word) (s : State) : (setNode idx w s).node = tableWrite emptyNode idx.toNat w s.node := rfl
@[simp] theorem setNode_inq (idx : NodeIdx) (w : Word) (s : State) : (setNode idx w s).inq = s.inq := rfl
@[simp] theorem setNode_outq (idx : NodeIdx) (w : Word) (s : State) : (setNode idx w s).outq = s.outq := rfl
@[simp] theorem setNode_phase (idx : NodeIdx) (w : Word) (s : State) : (setNode idx w s).phase = s.phase := rfl
@[simp] theorem setNode_msbfL (idx : NodeIdx) (w : Word) (s : State) : (setNode idx w s).msbfL = s.msbfL := rfl
@[simp] theorem setNode_curBits (idx : NodeIdx) (w : Word) (s : State) : (setNode idx w s).curBits = s.curBits := rfl
@[simp] theorem setNode_curLen (idx : NodeIdx) (w : Word) (s : State) : (setNode idx w s).curLen = s.curLen := rfl
@[simp] theorem setNode_curPos (idx : NodeIdx) (w : Word) (s : State) : (setNode idx w s).curPos = s.curPos := rfl
@[simp] theorem setNode_curLast (idx : NodeIdx) (w : Word) (s : State) : (setNode idx w s).curLast = s.curLast := rfl
@[simp] theorem setNode_oacc (idx : NodeIdx) (w : Word) (s : State) : (setNode idx w s).oacc = s.oacc := rfl
@[simp] theorem setNode_ocnt (idx : NodeIdx) (w : Word) (s : State) : (setNode idx w s).ocnt = s.ocnt := rfl
@[simp] theorem setNode_iacc (idx : NodeIdx) (w : Word) (s : State) : (setNode idx w s).iacc = s.iacc := rfl
@[simp] theorem setNode_icnt (idx : NodeIdx) (w : Word) (s : State) : (setNode idx w s).icnt = s.icnt := rfl
@[simp] theorem setNode_ptr (idx : NodeIdx) (w : Word) (s : State) : (setNode idx w s).ptr = s.ptr := rfl
@[simp] theorem setNode_pending (idx : NodeIdx) (w : Word) (s : State) : (setNode idx w s).pending = s.pending := rfl
@[simp] theorem setNode_replies (idx : NodeIdx) (w : Word) (s : State) : (setNode idx w s).replies = s.replies := rfl

/-! ### pushIn -/

@[simp] theorem pushIn_ctrl (b : Byte) (s : State) : (pushIn b s).ctrl = s.ctrl := rfl
@[simp] theorem pushIn_done (b : Byte) (s : State) : (pushIn b s).done = s.done := rfl
@[simp] theorem pushIn_err (b : Byte) (s : State) : (pushIn b s).err = s.err := rfl
@[simp] theorem pushIn_cmdovr (b : Byte) (s : State) : (pushIn b s).cmdovr = s.cmdovr := rfl
@[simp] theorem pushIn_inovr (b : Byte) (s : State) : (pushIn b s).inovr = s.inovr := rfl
@[simp] theorem pushIn_iend (b : Byte) (s : State) : (pushIn b s).iend = s.iend := rfl
@[simp] theorem pushIn_errcode (b : Byte) (s : State) : (pushIn b s).errcode = s.errcode := rfl
@[simp] theorem pushIn_arg0 (b : Byte) (s : State) : (pushIn b s).arg0 = s.arg0 := rfl
@[simp] theorem pushIn_arg1 (b : Byte) (s : State) : (pushIn b s).arg1 = s.arg1 := rfl
@[simp] theorem pushIn_arg2 (b : Byte) (s : State) : (pushIn b s).arg2 = s.arg2 := rfl
@[simp] theorem pushIn_root (b : Byte) (s : State) : (pushIn b s).root = s.root := rfl
@[simp] theorem pushIn_bitcnt (b : Byte) (s : State) : (pushIn b s).bitcnt = s.bitcnt := rfl
@[simp] theorem pushIn_bitsin (b : Byte) (s : State) : (pushIn b s).bitsin = s.bitsin := rfl
@[simp] theorem pushIn_errinfo (b : Byte) (s : State) : (pushIn b s).errinfo = s.errinfo := rfl
@[simp] theorem pushIn_ct (b : Byte) (s : State) : (pushIn b s).ct = s.ct := rfl
@[simp] theorem pushIn_node (b : Byte) (s : State) : (pushIn b s).node = s.node := rfl
@[simp] theorem pushIn_inq (b : Byte) (s : State) : (pushIn b s).inq = s.inq ++ [b] := rfl
@[simp] theorem pushIn_outq (b : Byte) (s : State) : (pushIn b s).outq = s.outq := rfl
@[simp] theorem pushIn_phase (b : Byte) (s : State) : (pushIn b s).phase = s.phase := rfl
@[simp] theorem pushIn_msbfL (b : Byte) (s : State) : (pushIn b s).msbfL = s.msbfL := rfl
@[simp] theorem pushIn_curBits (b : Byte) (s : State) : (pushIn b s).curBits = s.curBits := rfl
@[simp] theorem pushIn_curLen (b : Byte) (s : State) : (pushIn b s).curLen = s.curLen := rfl
@[simp] theorem pushIn_curPos (b : Byte) (s : State) : (pushIn b s).curPos = s.curPos := rfl
@[simp] theorem pushIn_curLast (b : Byte) (s : State) : (pushIn b s).curLast = s.curLast := rfl
@[simp] theorem pushIn_oacc (b : Byte) (s : State) : (pushIn b s).oacc = s.oacc := rfl
@[simp] theorem pushIn_ocnt (b : Byte) (s : State) : (pushIn b s).ocnt = s.ocnt := rfl
@[simp] theorem pushIn_iacc (b : Byte) (s : State) : (pushIn b s).iacc = s.iacc := rfl
@[simp] theorem pushIn_icnt (b : Byte) (s : State) : (pushIn b s).icnt = s.icnt := rfl
@[simp] theorem pushIn_ptr (b : Byte) (s : State) : (pushIn b s).ptr = s.ptr := rfl
@[simp] theorem pushIn_pending (b : Byte) (s : State) : (pushIn b s).pending = s.pending := rfl
@[simp] theorem pushIn_replies (b : Byte) (s : State) : (pushIn b s).replies = s.replies := rfl

/-! ### pushOut -/

@[simp] theorem pushOut_ctrl (b : Byte) (s : State) : (pushOut b s).ctrl = s.ctrl := rfl
@[simp] theorem pushOut_done (b : Byte) (s : State) : (pushOut b s).done = s.done := rfl
@[simp] theorem pushOut_err (b : Byte) (s : State) : (pushOut b s).err = s.err := rfl
@[simp] theorem pushOut_cmdovr (b : Byte) (s : State) : (pushOut b s).cmdovr = s.cmdovr := rfl
@[simp] theorem pushOut_inovr (b : Byte) (s : State) : (pushOut b s).inovr = s.inovr := rfl
@[simp] theorem pushOut_iend (b : Byte) (s : State) : (pushOut b s).iend = s.iend := rfl
@[simp] theorem pushOut_errcode (b : Byte) (s : State) : (pushOut b s).errcode = s.errcode := rfl
@[simp] theorem pushOut_arg0 (b : Byte) (s : State) : (pushOut b s).arg0 = s.arg0 := rfl
@[simp] theorem pushOut_arg1 (b : Byte) (s : State) : (pushOut b s).arg1 = s.arg1 := rfl
@[simp] theorem pushOut_arg2 (b : Byte) (s : State) : (pushOut b s).arg2 = s.arg2 := rfl
@[simp] theorem pushOut_root (b : Byte) (s : State) : (pushOut b s).root = s.root := rfl
@[simp] theorem pushOut_bitcnt (b : Byte) (s : State) : (pushOut b s).bitcnt = s.bitcnt := rfl
@[simp] theorem pushOut_bitsin (b : Byte) (s : State) : (pushOut b s).bitsin = s.bitsin := rfl
@[simp] theorem pushOut_errinfo (b : Byte) (s : State) : (pushOut b s).errinfo = s.errinfo := rfl
@[simp] theorem pushOut_ct (b : Byte) (s : State) : (pushOut b s).ct = s.ct := rfl
@[simp] theorem pushOut_node (b : Byte) (s : State) : (pushOut b s).node = s.node := rfl
@[simp] theorem pushOut_inq (b : Byte) (s : State) : (pushOut b s).inq = s.inq := rfl
@[simp] theorem pushOut_outq (b : Byte) (s : State) : (pushOut b s).outq = s.outq ++ [b] := rfl
@[simp] theorem pushOut_phase (b : Byte) (s : State) : (pushOut b s).phase = s.phase := rfl
@[simp] theorem pushOut_msbfL (b : Byte) (s : State) : (pushOut b s).msbfL = s.msbfL := rfl
@[simp] theorem pushOut_curBits (b : Byte) (s : State) : (pushOut b s).curBits = s.curBits := rfl
@[simp] theorem pushOut_curLen (b : Byte) (s : State) : (pushOut b s).curLen = s.curLen := rfl
@[simp] theorem pushOut_curPos (b : Byte) (s : State) : (pushOut b s).curPos = s.curPos := rfl
@[simp] theorem pushOut_curLast (b : Byte) (s : State) : (pushOut b s).curLast = s.curLast := rfl
@[simp] theorem pushOut_oacc (b : Byte) (s : State) : (pushOut b s).oacc = s.oacc := rfl
@[simp] theorem pushOut_ocnt (b : Byte) (s : State) : (pushOut b s).ocnt = s.ocnt := rfl
@[simp] theorem pushOut_iacc (b : Byte) (s : State) : (pushOut b s).iacc = s.iacc := rfl
@[simp] theorem pushOut_icnt (b : Byte) (s : State) : (pushOut b s).icnt = s.icnt := rfl
@[simp] theorem pushOut_ptr (b : Byte) (s : State) : (pushOut b s).ptr = s.ptr := rfl
@[simp] theorem pushOut_pending (b : Byte) (s : State) : (pushOut b s).pending = s.pending := rfl
@[simp] theorem pushOut_replies (b : Byte) (s : State) : (pushOut b s).replies = s.replies := rfl

/-! ### clearBlock -/

@[simp] theorem clearBlock_ctrl (s : State) : (clearBlock s).ctrl = s.ctrl := rfl
@[simp] theorem clearBlock_done (s : State) : (clearBlock s).done = s.done := rfl
@[simp] theorem clearBlock_err (s : State) : (clearBlock s).err = s.err := rfl
@[simp] theorem clearBlock_cmdovr (s : State) : (clearBlock s).cmdovr = false := rfl
@[simp] theorem clearBlock_inovr (s : State) : (clearBlock s).inovr = false := rfl
@[simp] theorem clearBlock_iend (s : State) : (clearBlock s).iend = false := rfl
@[simp] theorem clearBlock_errcode (s : State) : (clearBlock s).errcode = s.errcode := rfl
@[simp] theorem clearBlock_arg0 (s : State) : (clearBlock s).arg0 = s.arg0 := rfl
@[simp] theorem clearBlock_arg1 (s : State) : (clearBlock s).arg1 = s.arg1 := rfl
@[simp] theorem clearBlock_arg2 (s : State) : (clearBlock s).arg2 = s.arg2 := rfl
@[simp] theorem clearBlock_root (s : State) : (clearBlock s).root = 0#10 := rfl
@[simp] theorem clearBlock_bitcnt (s : State) : (clearBlock s).bitcnt = 0#32 := rfl
@[simp] theorem clearBlock_bitsin (s : State) : (clearBlock s).bitsin = 0#32 := rfl
@[simp] theorem clearBlock_errinfo (s : State) : (clearBlock s).errinfo = s.errinfo := rfl
@[simp] theorem clearBlock_ct (s : State) : (clearBlock s).ct = [] := rfl
@[simp] theorem clearBlock_node (s : State) : (clearBlock s).node = [] := rfl
@[simp] theorem clearBlock_inq (s : State) : (clearBlock s).inq = [] := rfl
@[simp] theorem clearBlock_outq (s : State) : (clearBlock s).outq = [] := rfl
@[simp] theorem clearBlock_phase (s : State) : (clearBlock s).phase = s.phase := rfl
@[simp] theorem clearBlock_msbfL (s : State) : (clearBlock s).msbfL = false := rfl
@[simp] theorem clearBlock_curBits (s : State) : (clearBlock s).curBits = 0#64 := rfl
@[simp] theorem clearBlock_curLen (s : State) : (clearBlock s).curLen = 0#7 := rfl
@[simp] theorem clearBlock_curPos (s : State) : (clearBlock s).curPos = 0#7 := rfl
@[simp] theorem clearBlock_curLast (s : State) : (clearBlock s).curLast = false := rfl
@[simp] theorem clearBlock_oacc (s : State) : (clearBlock s).oacc = 0#8 := rfl
@[simp] theorem clearBlock_ocnt (s : State) : (clearBlock s).ocnt = 0#3 := rfl
@[simp] theorem clearBlock_iacc (s : State) : (clearBlock s).iacc = 0#8 := rfl
@[simp] theorem clearBlock_icnt (s : State) : (clearBlock s).icnt = 0#4 := rfl
@[simp] theorem clearBlock_ptr (s : State) : (clearBlock s).ptr = 0#10 := rfl
@[simp] theorem clearBlock_pending (s : State) : (clearBlock s).pending = s.pending := rfl
@[simp] theorem clearBlock_replies (s : State) : (clearBlock s).replies = s.replies := rfl

/-! ### startEncode -/

@[simp] theorem startEncode_ctrl (s : State) : (startEncode s).ctrl = s.ctrl := rfl
@[simp] theorem startEncode_done (s : State) : (startEncode s).done = s.done := rfl
@[simp] theorem startEncode_err (s : State) : (startEncode s).err = s.err := rfl
@[simp] theorem startEncode_cmdovr (s : State) : (startEncode s).cmdovr = s.cmdovr := rfl
@[simp] theorem startEncode_inovr (s : State) : (startEncode s).inovr = s.inovr := rfl
@[simp] theorem startEncode_iend (s : State) : (startEncode s).iend = s.iend := rfl
@[simp] theorem startEncode_errcode (s : State) : (startEncode s).errcode = s.errcode := rfl
@[simp] theorem startEncode_arg0 (s : State) : (startEncode s).arg0 = s.arg0 := rfl
@[simp] theorem startEncode_arg1 (s : State) : (startEncode s).arg1 = s.arg1 := rfl
@[simp] theorem startEncode_arg2 (s : State) : (startEncode s).arg2 = s.arg2 := rfl
@[simp] theorem startEncode_root (s : State) : (startEncode s).root = s.root := rfl
@[simp] theorem startEncode_bitcnt (s : State) : (startEncode s).bitcnt = 0#32 := rfl
@[simp] theorem startEncode_bitsin (s : State) : (startEncode s).bitsin = s.bitsin := rfl
@[simp] theorem startEncode_errinfo (s : State) : (startEncode s).errinfo = s.errinfo := rfl
@[simp] theorem startEncode_ct (s : State) : (startEncode s).ct = s.ct := rfl
@[simp] theorem startEncode_node (s : State) : (startEncode s).node = s.node := rfl
@[simp] theorem startEncode_inq (s : State) : (startEncode s).inq = s.inq := rfl
@[simp] theorem startEncode_outq (s : State) : (startEncode s).outq = s.outq := rfl
@[simp] theorem startEncode_phase (s : State) : (startEncode s).phase = .encFetch := rfl
@[simp] theorem startEncode_msbfL (s : State) : (startEncode s).msbfL = ctrlMsbf s := rfl
@[simp] theorem startEncode_curBits (s : State) : (startEncode s).curBits = 0#64 := rfl
@[simp] theorem startEncode_curLen (s : State) : (startEncode s).curLen = 0#7 := rfl
@[simp] theorem startEncode_curPos (s : State) : (startEncode s).curPos = 0#7 := rfl
@[simp] theorem startEncode_curLast (s : State) : (startEncode s).curLast = false := rfl
@[simp] theorem startEncode_oacc (s : State) : (startEncode s).oacc = 0#8 := rfl
@[simp] theorem startEncode_ocnt (s : State) : (startEncode s).ocnt = 0#3 := rfl
@[simp] theorem startEncode_iacc (s : State) : (startEncode s).iacc = s.iacc := rfl
@[simp] theorem startEncode_icnt (s : State) : (startEncode s).icnt = s.icnt := rfl
@[simp] theorem startEncode_ptr (s : State) : (startEncode s).ptr = s.ptr := rfl
@[simp] theorem startEncode_pending (s : State) : (startEncode s).pending = s.pending := rfl
@[simp] theorem startEncode_replies (s : State) : (startEncode s).replies = s.replies := rfl

/-! ### startDecode -/

@[simp] theorem startDecode_ctrl (s : State) : (startDecode s).ctrl = s.ctrl := rfl
@[simp] theorem startDecode_done (s : State) : (startDecode s).done = s.done := rfl
@[simp] theorem startDecode_err (s : State) : (startDecode s).err = s.err := rfl
@[simp] theorem startDecode_cmdovr (s : State) : (startDecode s).cmdovr = s.cmdovr := rfl
@[simp] theorem startDecode_inovr (s : State) : (startDecode s).inovr = s.inovr := rfl
@[simp] theorem startDecode_iend (s : State) : (startDecode s).iend = s.iend := rfl
@[simp] theorem startDecode_errcode (s : State) : (startDecode s).errcode = s.errcode := rfl
@[simp] theorem startDecode_arg0 (s : State) : (startDecode s).arg0 = s.arg0 := rfl
@[simp] theorem startDecode_arg1 (s : State) : (startDecode s).arg1 = s.arg1 := rfl
@[simp] theorem startDecode_arg2 (s : State) : (startDecode s).arg2 = s.arg2 := rfl
@[simp] theorem startDecode_root (s : State) : (startDecode s).root = s.root := rfl
@[simp] theorem startDecode_bitcnt (s : State) : (startDecode s).bitcnt = s.bitcnt := rfl
@[simp] theorem startDecode_bitsin (s : State) : (startDecode s).bitsin = 0#32 := rfl
@[simp] theorem startDecode_errinfo (s : State) : (startDecode s).errinfo = s.errinfo := rfl
@[simp] theorem startDecode_ct (s : State) : (startDecode s).ct = s.ct := rfl
@[simp] theorem startDecode_node (s : State) : (startDecode s).node = s.node := rfl
@[simp] theorem startDecode_inq (s : State) : (startDecode s).inq = s.inq := rfl
@[simp] theorem startDecode_outq (s : State) : (startDecode s).outq = s.outq := rfl
@[simp] theorem startDecode_phase (s : State) : (startDecode s).phase = .decWalk := rfl
@[simp] theorem startDecode_msbfL (s : State) : (startDecode s).msbfL = ctrlMsbf s := rfl
@[simp] theorem startDecode_curBits (s : State) : (startDecode s).curBits = s.curBits := rfl
@[simp] theorem startDecode_curLen (s : State) : (startDecode s).curLen = s.curLen := rfl
@[simp] theorem startDecode_curPos (s : State) : (startDecode s).curPos = s.curPos := rfl
@[simp] theorem startDecode_curLast (s : State) : (startDecode s).curLast = s.curLast := rfl
@[simp] theorem startDecode_oacc (s : State) : (startDecode s).oacc = s.oacc := rfl
@[simp] theorem startDecode_ocnt (s : State) : (startDecode s).ocnt = s.ocnt := rfl
@[simp] theorem startDecode_iacc (s : State) : (startDecode s).iacc = 0#8 := rfl
@[simp] theorem startDecode_icnt (s : State) : (startDecode s).icnt = 0#4 := rfl
@[simp] theorem startDecode_ptr (s : State) : (startDecode s).ptr = s.root := rfl
@[simp] theorem startDecode_pending (s : State) : (startDecode s).pending = s.pending := rfl
@[simp] theorem startDecode_replies (s : State) : (startDecode s).replies = s.replies := rfl

/-! ### takeEvent -/

@[simp] theorem takeEvent_ctrl (rest : List Event) (s : State) : (takeEvent rest s).ctrl = s.ctrl := rfl
@[simp] theorem takeEvent_done (rest : List Event) (s : State) : (takeEvent rest s).done = s.done := rfl
@[simp] theorem takeEvent_err (rest : List Event) (s : State) : (takeEvent rest s).err = s.err := rfl
@[simp] theorem takeEvent_cmdovr (rest : List Event) (s : State) : (takeEvent rest s).cmdovr = s.cmdovr := rfl
@[simp] theorem takeEvent_inovr (rest : List Event) (s : State) : (takeEvent rest s).inovr = s.inovr := rfl
@[simp] theorem takeEvent_iend (rest : List Event) (s : State) : (takeEvent rest s).iend = s.iend := rfl
@[simp] theorem takeEvent_errcode (rest : List Event) (s : State) : (takeEvent rest s).errcode = s.errcode := rfl
@[simp] theorem takeEvent_arg0 (rest : List Event) (s : State) : (takeEvent rest s).arg0 = s.arg0 := rfl
@[simp] theorem takeEvent_arg1 (rest : List Event) (s : State) : (takeEvent rest s).arg1 = s.arg1 := rfl
@[simp] theorem takeEvent_arg2 (rest : List Event) (s : State) : (takeEvent rest s).arg2 = s.arg2 := rfl
@[simp] theorem takeEvent_root (rest : List Event) (s : State) : (takeEvent rest s).root = s.root := rfl
@[simp] theorem takeEvent_bitcnt (rest : List Event) (s : State) : (takeEvent rest s).bitcnt = s.bitcnt := rfl
@[simp] theorem takeEvent_bitsin (rest : List Event) (s : State) : (takeEvent rest s).bitsin = s.bitsin := rfl
@[simp] theorem takeEvent_errinfo (rest : List Event) (s : State) : (takeEvent rest s).errinfo = s.errinfo := rfl
@[simp] theorem takeEvent_ct (rest : List Event) (s : State) : (takeEvent rest s).ct = s.ct := rfl
@[simp] theorem takeEvent_node (rest : List Event) (s : State) : (takeEvent rest s).node = s.node := rfl
@[simp] theorem takeEvent_inq (rest : List Event) (s : State) : (takeEvent rest s).inq = s.inq := rfl
@[simp] theorem takeEvent_outq (rest : List Event) (s : State) : (takeEvent rest s).outq = s.outq := rfl
@[simp] theorem takeEvent_phase (rest : List Event) (s : State) : (takeEvent rest s).phase = s.phase := rfl
@[simp] theorem takeEvent_msbfL (rest : List Event) (s : State) : (takeEvent rest s).msbfL = s.msbfL := rfl
@[simp] theorem takeEvent_curBits (rest : List Event) (s : State) : (takeEvent rest s).curBits = s.curBits := rfl
@[simp] theorem takeEvent_curLen (rest : List Event) (s : State) : (takeEvent rest s).curLen = s.curLen := rfl
@[simp] theorem takeEvent_curPos (rest : List Event) (s : State) : (takeEvent rest s).curPos = s.curPos := rfl
@[simp] theorem takeEvent_curLast (rest : List Event) (s : State) : (takeEvent rest s).curLast = s.curLast := rfl
@[simp] theorem takeEvent_oacc (rest : List Event) (s : State) : (takeEvent rest s).oacc = s.oacc := rfl
@[simp] theorem takeEvent_ocnt (rest : List Event) (s : State) : (takeEvent rest s).ocnt = s.ocnt := rfl
@[simp] theorem takeEvent_iacc (rest : List Event) (s : State) : (takeEvent rest s).iacc = s.iacc := rfl
@[simp] theorem takeEvent_icnt (rest : List Event) (s : State) : (takeEvent rest s).icnt = s.icnt := rfl
@[simp] theorem takeEvent_ptr (rest : List Event) (s : State) : (takeEvent rest s).ptr = s.ptr := rfl
@[simp] theorem takeEvent_pending (rest : List Event) (s : State) : (takeEvent rest s).pending = rest := rfl
@[simp] theorem takeEvent_replies (rest : List Event) (s : State) : (takeEvent rest s).replies = s.replies := rfl

/-! ### reply -/

@[simp] theorem reply_ctrl (v : Word) (s : State) : (reply v s).ctrl = s.ctrl := rfl
@[simp] theorem reply_done (v : Word) (s : State) : (reply v s).done = s.done := rfl
@[simp] theorem reply_err (v : Word) (s : State) : (reply v s).err = s.err := rfl
@[simp] theorem reply_cmdovr (v : Word) (s : State) : (reply v s).cmdovr = s.cmdovr := rfl
@[simp] theorem reply_inovr (v : Word) (s : State) : (reply v s).inovr = s.inovr := rfl
@[simp] theorem reply_iend (v : Word) (s : State) : (reply v s).iend = s.iend := rfl
@[simp] theorem reply_errcode (v : Word) (s : State) : (reply v s).errcode = s.errcode := rfl
@[simp] theorem reply_arg0 (v : Word) (s : State) : (reply v s).arg0 = s.arg0 := rfl
@[simp] theorem reply_arg1 (v : Word) (s : State) : (reply v s).arg1 = s.arg1 := rfl
@[simp] theorem reply_arg2 (v : Word) (s : State) : (reply v s).arg2 = s.arg2 := rfl
@[simp] theorem reply_root (v : Word) (s : State) : (reply v s).root = s.root := rfl
@[simp] theorem reply_bitcnt (v : Word) (s : State) : (reply v s).bitcnt = s.bitcnt := rfl
@[simp] theorem reply_bitsin (v : Word) (s : State) : (reply v s).bitsin = s.bitsin := rfl
@[simp] theorem reply_errinfo (v : Word) (s : State) : (reply v s).errinfo = s.errinfo := rfl
@[simp] theorem reply_ct (v : Word) (s : State) : (reply v s).ct = s.ct := rfl
@[simp] theorem reply_node (v : Word) (s : State) : (reply v s).node = s.node := rfl
@[simp] theorem reply_inq (v : Word) (s : State) : (reply v s).inq = s.inq := rfl
@[simp] theorem reply_outq (v : Word) (s : State) : (reply v s).outq = s.outq := rfl
@[simp] theorem reply_phase (v : Word) (s : State) : (reply v s).phase = s.phase := rfl
@[simp] theorem reply_msbfL (v : Word) (s : State) : (reply v s).msbfL = s.msbfL := rfl
@[simp] theorem reply_curBits (v : Word) (s : State) : (reply v s).curBits = s.curBits := rfl
@[simp] theorem reply_curLen (v : Word) (s : State) : (reply v s).curLen = s.curLen := rfl
@[simp] theorem reply_curPos (v : Word) (s : State) : (reply v s).curPos = s.curPos := rfl
@[simp] theorem reply_curLast (v : Word) (s : State) : (reply v s).curLast = s.curLast := rfl
@[simp] theorem reply_oacc (v : Word) (s : State) : (reply v s).oacc = s.oacc := rfl
@[simp] theorem reply_ocnt (v : Word) (s : State) : (reply v s).ocnt = s.ocnt := rfl
@[simp] theorem reply_iacc (v : Word) (s : State) : (reply v s).iacc = s.iacc := rfl
@[simp] theorem reply_icnt (v : Word) (s : State) : (reply v s).icnt = s.icnt := rfl
@[simp] theorem reply_ptr (v : Word) (s : State) : (reply v s).ptr = s.ptr := rfl
@[simp] theorem reply_pending (v : Word) (s : State) : (reply v s).pending = s.pending := rfl
@[simp] theorem reply_replies (v : Word) (s : State) : (reply v s).replies = s.replies ++ [v] := rfl

/-! ### inendWrite -/

@[simp] theorem inendWrite_ctrl (v : Word) (s : State) : (inendWrite v s).ctrl = s.ctrl := rfl
@[simp] theorem inendWrite_done (v : Word) (s : State) : (inendWrite v s).done = s.done := rfl
@[simp] theorem inendWrite_err (v : Word) (s : State) : (inendWrite v s).err = s.err := rfl
@[simp] theorem inendWrite_cmdovr (v : Word) (s : State) : (inendWrite v s).cmdovr = s.cmdovr := rfl
@[simp] theorem inendWrite_inovr (v : Word) (s : State) : (inendWrite v s).inovr = s.inovr := rfl
@[simp] theorem inendWrite_iend (v : Word) (s : State) : (inendWrite v s).iend = (s.iend || v.getLsbD 0) := rfl
@[simp] theorem inendWrite_errcode (v : Word) (s : State) : (inendWrite v s).errcode = s.errcode := rfl
@[simp] theorem inendWrite_arg0 (v : Word) (s : State) : (inendWrite v s).arg0 = s.arg0 := rfl
@[simp] theorem inendWrite_arg1 (v : Word) (s : State) : (inendWrite v s).arg1 = s.arg1 := rfl
@[simp] theorem inendWrite_arg2 (v : Word) (s : State) : (inendWrite v s).arg2 = s.arg2 := rfl
@[simp] theorem inendWrite_root (v : Word) (s : State) : (inendWrite v s).root = s.root := rfl
@[simp] theorem inendWrite_bitcnt (v : Word) (s : State) : (inendWrite v s).bitcnt = s.bitcnt := rfl
@[simp] theorem inendWrite_bitsin (v : Word) (s : State) : (inendWrite v s).bitsin = s.bitsin := rfl
@[simp] theorem inendWrite_errinfo (v : Word) (s : State) : (inendWrite v s).errinfo = s.errinfo := rfl
@[simp] theorem inendWrite_ct (v : Word) (s : State) : (inendWrite v s).ct = s.ct := rfl
@[simp] theorem inendWrite_node (v : Word) (s : State) : (inendWrite v s).node = s.node := rfl
@[simp] theorem inendWrite_inq (v : Word) (s : State) : (inendWrite v s).inq = s.inq := rfl
@[simp] theorem inendWrite_outq (v : Word) (s : State) : (inendWrite v s).outq = s.outq := rfl
@[simp] theorem inendWrite_phase (v : Word) (s : State) : (inendWrite v s).phase = s.phase := rfl
@[simp] theorem inendWrite_msbfL (v : Word) (s : State) : (inendWrite v s).msbfL = s.msbfL := rfl
@[simp] theorem inendWrite_curBits (v : Word) (s : State) : (inendWrite v s).curBits = s.curBits := rfl
@[simp] theorem inendWrite_curLen (v : Word) (s : State) : (inendWrite v s).curLen = s.curLen := rfl
@[simp] theorem inendWrite_curPos (v : Word) (s : State) : (inendWrite v s).curPos = s.curPos := rfl
@[simp] theorem inendWrite_curLast (v : Word) (s : State) : (inendWrite v s).curLast = s.curLast := rfl
@[simp] theorem inendWrite_oacc (v : Word) (s : State) : (inendWrite v s).oacc = s.oacc := rfl
@[simp] theorem inendWrite_ocnt (v : Word) (s : State) : (inendWrite v s).ocnt = s.ocnt := rfl
@[simp] theorem inendWrite_iacc (v : Word) (s : State) : (inendWrite v s).iacc = s.iacc := rfl
@[simp] theorem inendWrite_icnt (v : Word) (s : State) : (inendWrite v s).icnt = s.icnt := rfl
@[simp] theorem inendWrite_ptr (v : Word) (s : State) : (inendWrite v s).ptr = s.ptr := rfl
@[simp] theorem inendWrite_pending (v : Word) (s : State) : (inendWrite v s).pending = s.pending := rfl
@[simp] theorem inendWrite_replies (v : Word) (s : State) : (inendWrite v s).replies = s.replies := rfl

/-! ### resetBlock -/

@[simp] theorem resetBlock_ctrl (s : State) : (resetBlock s).ctrl = 0#3 := rfl
@[simp] theorem resetBlock_done (s : State) : (resetBlock s).done = false := rfl
@[simp] theorem resetBlock_err (s : State) : (resetBlock s).err = false := rfl
@[simp] theorem resetBlock_cmdovr (s : State) : (resetBlock s).cmdovr = false := rfl
@[simp] theorem resetBlock_inovr (s : State) : (resetBlock s).inovr = false := rfl
@[simp] theorem resetBlock_iend (s : State) : (resetBlock s).iend = false := rfl
@[simp] theorem resetBlock_errcode (s : State) : (resetBlock s).errcode = .none := rfl
@[simp] theorem resetBlock_arg0 (s : State) : (resetBlock s).arg0 = 0#32 := rfl
@[simp] theorem resetBlock_arg1 (s : State) : (resetBlock s).arg1 = 0#32 := rfl
@[simp] theorem resetBlock_arg2 (s : State) : (resetBlock s).arg2 = 0#32 := rfl
@[simp] theorem resetBlock_root (s : State) : (resetBlock s).root = 0#10 := rfl
@[simp] theorem resetBlock_bitcnt (s : State) : (resetBlock s).bitcnt = 0#32 := rfl
@[simp] theorem resetBlock_bitsin (s : State) : (resetBlock s).bitsin = 0#32 := rfl
@[simp] theorem resetBlock_errinfo (s : State) : (resetBlock s).errinfo = 0#10 := rfl
@[simp] theorem resetBlock_ct (s : State) : (resetBlock s).ct = [] := rfl
@[simp] theorem resetBlock_node (s : State) : (resetBlock s).node = [] := rfl
@[simp] theorem resetBlock_inq (s : State) : (resetBlock s).inq = [] := rfl
@[simp] theorem resetBlock_outq (s : State) : (resetBlock s).outq = [] := rfl
@[simp] theorem resetBlock_phase (s : State) : (resetBlock s).phase = .idle := rfl
@[simp] theorem resetBlock_msbfL (s : State) : (resetBlock s).msbfL = false := rfl
@[simp] theorem resetBlock_curBits (s : State) : (resetBlock s).curBits = 0#64 := rfl
@[simp] theorem resetBlock_curLen (s : State) : (resetBlock s).curLen = 0#7 := rfl
@[simp] theorem resetBlock_curPos (s : State) : (resetBlock s).curPos = 0#7 := rfl
@[simp] theorem resetBlock_curLast (s : State) : (resetBlock s).curLast = false := rfl
@[simp] theorem resetBlock_oacc (s : State) : (resetBlock s).oacc = 0#8 := rfl
@[simp] theorem resetBlock_ocnt (s : State) : (resetBlock s).ocnt = 0#3 := rfl
@[simp] theorem resetBlock_iacc (s : State) : (resetBlock s).iacc = 0#8 := rfl
@[simp] theorem resetBlock_icnt (s : State) : (resetBlock s).icnt = 0#4 := rfl
@[simp] theorem resetBlock_ptr (s : State) : (resetBlock s).ptr = 0#10 := rfl
@[simp] theorem resetBlock_pending (s : State) : (resetBlock s).pending = s.pending := rfl
@[simp] theorem resetBlock_replies (s : State) : (resetBlock s).replies = s.replies := rfl

/-! ### raiseError: the fields it never writes -/

@[simp] theorem raiseError_ctrl (code : ErrCode) (info : BitVec 10) (s : State) : (raiseError code info s).ctrl = s.ctrl := by unfold raiseError; split <;> rfl
@[simp] theorem raiseError_done (code : ErrCode) (info : BitVec 10) (s : State) : (raiseError code info s).done = s.done := by unfold raiseError; split <;> rfl
@[simp] theorem raiseError_cmdovr (code : ErrCode) (info : BitVec 10) (s : State) : (raiseError code info s).cmdovr = s.cmdovr := by unfold raiseError; split <;> rfl
@[simp] theorem raiseError_inovr (code : ErrCode) (info : BitVec 10) (s : State) : (raiseError code info s).inovr = s.inovr := by unfold raiseError; split <;> rfl
@[simp] theorem raiseError_arg0 (code : ErrCode) (info : BitVec 10) (s : State) : (raiseError code info s).arg0 = s.arg0 := by unfold raiseError; split <;> rfl
@[simp] theorem raiseError_arg1 (code : ErrCode) (info : BitVec 10) (s : State) : (raiseError code info s).arg1 = s.arg1 := by unfold raiseError; split <;> rfl
@[simp] theorem raiseError_arg2 (code : ErrCode) (info : BitVec 10) (s : State) : (raiseError code info s).arg2 = s.arg2 := by unfold raiseError; split <;> rfl
@[simp] theorem raiseError_root (code : ErrCode) (info : BitVec 10) (s : State) : (raiseError code info s).root = s.root := by unfold raiseError; split <;> rfl
@[simp] theorem raiseError_bitcnt (code : ErrCode) (info : BitVec 10) (s : State) : (raiseError code info s).bitcnt = s.bitcnt := by unfold raiseError; split <;> rfl
@[simp] theorem raiseError_bitsin (code : ErrCode) (info : BitVec 10) (s : State) : (raiseError code info s).bitsin = s.bitsin := by unfold raiseError; split <;> rfl
@[simp] theorem raiseError_ct (code : ErrCode) (info : BitVec 10) (s : State) : (raiseError code info s).ct = s.ct := by unfold raiseError; split <;> rfl
@[simp] theorem raiseError_node (code : ErrCode) (info : BitVec 10) (s : State) : (raiseError code info s).node = s.node := by unfold raiseError; split <;> rfl
@[simp] theorem raiseError_inq (code : ErrCode) (info : BitVec 10) (s : State) : (raiseError code info s).inq = s.inq := by unfold raiseError; split <;> rfl
@[simp] theorem raiseError_outq (code : ErrCode) (info : BitVec 10) (s : State) : (raiseError code info s).outq = s.outq := by unfold raiseError; split <;> rfl
@[simp] theorem raiseError_msbfL (code : ErrCode) (info : BitVec 10) (s : State) : (raiseError code info s).msbfL = s.msbfL := by unfold raiseError; split <;> rfl
@[simp] theorem raiseError_curBits (code : ErrCode) (info : BitVec 10) (s : State) : (raiseError code info s).curBits = s.curBits := by unfold raiseError; split <;> rfl
@[simp] theorem raiseError_curLen (code : ErrCode) (info : BitVec 10) (s : State) : (raiseError code info s).curLen = s.curLen := by unfold raiseError; split <;> rfl
@[simp] theorem raiseError_curPos (code : ErrCode) (info : BitVec 10) (s : State) : (raiseError code info s).curPos = s.curPos := by unfold raiseError; split <;> rfl
@[simp] theorem raiseError_curLast (code : ErrCode) (info : BitVec 10) (s : State) : (raiseError code info s).curLast = s.curLast := by unfold raiseError; split <;> rfl
@[simp] theorem raiseError_oacc (code : ErrCode) (info : BitVec 10) (s : State) : (raiseError code info s).oacc = s.oacc := by unfold raiseError; split <;> rfl
@[simp] theorem raiseError_ocnt (code : ErrCode) (info : BitVec 10) (s : State) : (raiseError code info s).ocnt = s.ocnt := by unfold raiseError; split <;> rfl
@[simp] theorem raiseError_iacc (code : ErrCode) (info : BitVec 10) (s : State) : (raiseError code info s).iacc = s.iacc := by unfold raiseError; split <;> rfl
@[simp] theorem raiseError_icnt (code : ErrCode) (info : BitVec 10) (s : State) : (raiseError code info s).icnt = s.icnt := by unfold raiseError; split <;> rfl
@[simp] theorem raiseError_ptr (code : ErrCode) (info : BitVec 10) (s : State) : (raiseError code info s).ptr = s.ptr := by unfold raiseError; split <;> rfl
@[simp] theorem raiseError_pending (code : ErrCode) (info : BitVec 10) (s : State) : (raiseError code info s).pending = s.pending := by unfold raiseError; split <;> rfl
@[simp] theorem raiseError_replies (code : ErrCode) (info : BitVec 10) (s : State) : (raiseError code info s).replies = s.replies := by unfold raiseError; split <;> rfl

/-! ### packBit: the fields it never writes -/

@[simp] theorem packBit_ctrl (x : Bool) (s : State) : (packBit x s).ctrl = s.ctrl := by unfold packBit; dsimp only; split <;> rfl
@[simp] theorem packBit_done (x : Bool) (s : State) : (packBit x s).done = s.done := by unfold packBit; dsimp only; split <;> rfl
@[simp] theorem packBit_err (x : Bool) (s : State) : (packBit x s).err = s.err := by unfold packBit; dsimp only; split <;> rfl
@[simp] theorem packBit_cmdovr (x : Bool) (s : State) : (packBit x s).cmdovr = s.cmdovr := by unfold packBit; dsimp only; split <;> rfl
@[simp] theorem packBit_inovr (x : Bool) (s : State) : (packBit x s).inovr = s.inovr := by unfold packBit; dsimp only; split <;> rfl
@[simp] theorem packBit_iend (x : Bool) (s : State) : (packBit x s).iend = s.iend := by unfold packBit; dsimp only; split <;> rfl
@[simp] theorem packBit_errcode (x : Bool) (s : State) : (packBit x s).errcode = s.errcode := by unfold packBit; dsimp only; split <;> rfl
@[simp] theorem packBit_arg0 (x : Bool) (s : State) : (packBit x s).arg0 = s.arg0 := by unfold packBit; dsimp only; split <;> rfl
@[simp] theorem packBit_arg1 (x : Bool) (s : State) : (packBit x s).arg1 = s.arg1 := by unfold packBit; dsimp only; split <;> rfl
@[simp] theorem packBit_arg2 (x : Bool) (s : State) : (packBit x s).arg2 = s.arg2 := by unfold packBit; dsimp only; split <;> rfl
@[simp] theorem packBit_root (x : Bool) (s : State) : (packBit x s).root = s.root := by unfold packBit; dsimp only; split <;> rfl
@[simp] theorem packBit_bitcnt (x : Bool) (s : State) : (packBit x s).bitcnt = s.bitcnt := by unfold packBit; dsimp only; split <;> rfl
@[simp] theorem packBit_bitsin (x : Bool) (s : State) : (packBit x s).bitsin = s.bitsin := by unfold packBit; dsimp only; split <;> rfl
@[simp] theorem packBit_errinfo (x : Bool) (s : State) : (packBit x s).errinfo = s.errinfo := by unfold packBit; dsimp only; split <;> rfl
@[simp] theorem packBit_ct (x : Bool) (s : State) : (packBit x s).ct = s.ct := by unfold packBit; dsimp only; split <;> rfl
@[simp] theorem packBit_node (x : Bool) (s : State) : (packBit x s).node = s.node := by unfold packBit; dsimp only; split <;> rfl
@[simp] theorem packBit_inq (x : Bool) (s : State) : (packBit x s).inq = s.inq := by unfold packBit; dsimp only; split <;> rfl
@[simp] theorem packBit_phase (x : Bool) (s : State) : (packBit x s).phase = s.phase := by unfold packBit; dsimp only; split <;> rfl
@[simp] theorem packBit_msbfL (x : Bool) (s : State) : (packBit x s).msbfL = s.msbfL := by unfold packBit; dsimp only; split <;> rfl
@[simp] theorem packBit_curBits (x : Bool) (s : State) : (packBit x s).curBits = s.curBits := by unfold packBit; dsimp only; split <;> rfl
@[simp] theorem packBit_curLen (x : Bool) (s : State) : (packBit x s).curLen = s.curLen := by unfold packBit; dsimp only; split <;> rfl
@[simp] theorem packBit_curPos (x : Bool) (s : State) : (packBit x s).curPos = s.curPos := by unfold packBit; dsimp only; split <;> rfl
@[simp] theorem packBit_curLast (x : Bool) (s : State) : (packBit x s).curLast = s.curLast := by unfold packBit; dsimp only; split <;> rfl
@[simp] theorem packBit_iacc (x : Bool) (s : State) : (packBit x s).iacc = s.iacc := by unfold packBit; dsimp only; split <;> rfl
@[simp] theorem packBit_icnt (x : Bool) (s : State) : (packBit x s).icnt = s.icnt := by unfold packBit; dsimp only; split <;> rfl
@[simp] theorem packBit_ptr (x : Bool) (s : State) : (packBit x s).ptr = s.ptr := by unfold packBit; dsimp only; split <;> rfl
@[simp] theorem packBit_pending (x : Bool) (s : State) : (packBit x s).pending = s.pending := by unfold packBit; dsimp only; split <;> rfl
@[simp] theorem packBit_replies (x : Bool) (s : State) : (packBit x s).replies = s.replies := by unfold packBit; dsimp only; split <;> rfl

/-! ### loadByte: the fields it never writes -/

@[simp] theorem loadByte_ctrl (s : State) : (loadByte s).ctrl = s.ctrl := by unfold loadByte; split <;> rfl
@[simp] theorem loadByte_done (s : State) : (loadByte s).done = s.done := by unfold loadByte; split <;> rfl
@[simp] theorem loadByte_err (s : State) : (loadByte s).err = s.err := by unfold loadByte; split <;> rfl
@[simp] theorem loadByte_cmdovr (s : State) : (loadByte s).cmdovr = s.cmdovr := by unfold loadByte; split <;> rfl
@[simp] theorem loadByte_inovr (s : State) : (loadByte s).inovr = s.inovr := by unfold loadByte; split <;> rfl
@[simp] theorem loadByte_iend (s : State) : (loadByte s).iend = s.iend := by unfold loadByte; split <;> rfl
@[simp] theorem loadByte_errcode (s : State) : (loadByte s).errcode = s.errcode := by unfold loadByte; split <;> rfl
@[simp] theorem loadByte_arg0 (s : State) : (loadByte s).arg0 = s.arg0 := by unfold loadByte; split <;> rfl
@[simp] theorem loadByte_arg1 (s : State) : (loadByte s).arg1 = s.arg1 := by unfold loadByte; split <;> rfl
@[simp] theorem loadByte_arg2 (s : State) : (loadByte s).arg2 = s.arg2 := by unfold loadByte; split <;> rfl
@[simp] theorem loadByte_root (s : State) : (loadByte s).root = s.root := by unfold loadByte; split <;> rfl
@[simp] theorem loadByte_bitcnt (s : State) : (loadByte s).bitcnt = s.bitcnt := by unfold loadByte; split <;> rfl
@[simp] theorem loadByte_bitsin (s : State) : (loadByte s).bitsin = s.bitsin := by unfold loadByte; split <;> rfl
@[simp] theorem loadByte_errinfo (s : State) : (loadByte s).errinfo = s.errinfo := by unfold loadByte; split <;> rfl
@[simp] theorem loadByte_ct (s : State) : (loadByte s).ct = s.ct := by unfold loadByte; split <;> rfl
@[simp] theorem loadByte_node (s : State) : (loadByte s).node = s.node := by unfold loadByte; split <;> rfl
@[simp] theorem loadByte_outq (s : State) : (loadByte s).outq = s.outq := by unfold loadByte; split <;> rfl
@[simp] theorem loadByte_phase (s : State) : (loadByte s).phase = s.phase := by unfold loadByte; split <;> rfl
@[simp] theorem loadByte_msbfL (s : State) : (loadByte s).msbfL = s.msbfL := by unfold loadByte; split <;> rfl
@[simp] theorem loadByte_curBits (s : State) : (loadByte s).curBits = s.curBits := by unfold loadByte; split <;> rfl
@[simp] theorem loadByte_curLen (s : State) : (loadByte s).curLen = s.curLen := by unfold loadByte; split <;> rfl
@[simp] theorem loadByte_curPos (s : State) : (loadByte s).curPos = s.curPos := by unfold loadByte; split <;> rfl
@[simp] theorem loadByte_curLast (s : State) : (loadByte s).curLast = s.curLast := by unfold loadByte; split <;> rfl
@[simp] theorem loadByte_oacc (s : State) : (loadByte s).oacc = s.oacc := by unfold loadByte; split <;> rfl
@[simp] theorem loadByte_ocnt (s : State) : (loadByte s).ocnt = s.ocnt := by unfold loadByte; split <;> rfl
@[simp] theorem loadByte_ptr (s : State) : (loadByte s).ptr = s.ptr := by unfold loadByte; split <;> rfl
@[simp] theorem loadByte_pending (s : State) : (loadByte s).pending = s.pending := by unfold loadByte; split <;> rfl
@[simp] theorem loadByte_replies (s : State) : (loadByte s).replies = s.replies := by unfold loadByte; split <;> rfl

/-! ### consumeBit: the fields it never writes -/

@[simp] theorem consumeBit_ctrl (s : State) : (consumeBit s).ctrl = s.ctrl := by simp [consumeBit, nextBit]
@[simp] theorem consumeBit_done (s : State) : (consumeBit s).done = s.done := by simp [consumeBit, nextBit]
@[simp] theorem consumeBit_err (s : State) : (consumeBit s).err = s.err := by simp [consumeBit, nextBit]
@[simp] theorem consumeBit_cmdovr (s : State) : (consumeBit s).cmdovr = s.cmdovr := by simp [consumeBit, nextBit]
@[simp] theorem consumeBit_inovr (s : State) : (consumeBit s).inovr = s.inovr := by simp [consumeBit, nextBit]
@[simp] theorem consumeBit_iend (s : State) : (consumeBit s).iend = s.iend := by simp [consumeBit, nextBit]
@[simp] theorem consumeBit_errcode (s : State) : (consumeBit s).errcode = s.errcode := by simp [consumeBit, nextBit]
@[simp] theorem consumeBit_arg0 (s : State) : (consumeBit s).arg0 = s.arg0 := by simp [consumeBit, nextBit]
@[simp] theorem consumeBit_arg1 (s : State) : (consumeBit s).arg1 = s.arg1 := by simp [consumeBit, nextBit]
@[simp] theorem consumeBit_arg2 (s : State) : (consumeBit s).arg2 = s.arg2 := by simp [consumeBit, nextBit]
@[simp] theorem consumeBit_root (s : State) : (consumeBit s).root = s.root := by simp [consumeBit, nextBit]
@[simp] theorem consumeBit_bitcnt (s : State) : (consumeBit s).bitcnt = s.bitcnt := by simp [consumeBit, nextBit]
@[simp] theorem consumeBit_errinfo (s : State) : (consumeBit s).errinfo = s.errinfo := by simp [consumeBit, nextBit]
@[simp] theorem consumeBit_ct (s : State) : (consumeBit s).ct = s.ct := by simp [consumeBit, nextBit]
@[simp] theorem consumeBit_node (s : State) : (consumeBit s).node = s.node := by simp [consumeBit, nextBit]
@[simp] theorem consumeBit_outq (s : State) : (consumeBit s).outq = s.outq := by simp [consumeBit, nextBit]
@[simp] theorem consumeBit_phase (s : State) : (consumeBit s).phase = s.phase := by simp [consumeBit, nextBit]
@[simp] theorem consumeBit_msbfL (s : State) : (consumeBit s).msbfL = s.msbfL := by simp [consumeBit, nextBit]
@[simp] theorem consumeBit_curBits (s : State) : (consumeBit s).curBits = s.curBits := by simp [consumeBit, nextBit]
@[simp] theorem consumeBit_curLen (s : State) : (consumeBit s).curLen = s.curLen := by simp [consumeBit, nextBit]
@[simp] theorem consumeBit_curPos (s : State) : (consumeBit s).curPos = s.curPos := by simp [consumeBit, nextBit]
@[simp] theorem consumeBit_curLast (s : State) : (consumeBit s).curLast = s.curLast := by simp [consumeBit, nextBit]
@[simp] theorem consumeBit_oacc (s : State) : (consumeBit s).oacc = s.oacc := by simp [consumeBit, nextBit]
@[simp] theorem consumeBit_ocnt (s : State) : (consumeBit s).ocnt = s.ocnt := by simp [consumeBit, nextBit]
@[simp] theorem consumeBit_ptr (s : State) : (consumeBit s).ptr = s.ptr := by simp [consumeBit, nextBit]
@[simp] theorem consumeBit_pending (s : State) : (consumeBit s).pending = s.pending := by simp [consumeBit, nextBit]
@[simp] theorem consumeBit_replies (s : State) : (consumeBit s).replies = s.replies := by simp [consumeBit, nextBit]

/-! ### inWrite: the fields it never writes -/

@[simp] theorem inWrite_ctrl (v : Word) (s : State) : (inWrite v s).ctrl = s.ctrl := by unfold inWrite; split <;> rfl
@[simp] theorem inWrite_done (v : Word) (s : State) : (inWrite v s).done = s.done := by unfold inWrite; split <;> rfl
@[simp] theorem inWrite_err (v : Word) (s : State) : (inWrite v s).err = s.err := by unfold inWrite; split <;> rfl
@[simp] theorem inWrite_cmdovr (v : Word) (s : State) : (inWrite v s).cmdovr = s.cmdovr := by unfold inWrite; split <;> rfl
@[simp] theorem inWrite_iend (v : Word) (s : State) : (inWrite v s).iend = s.iend := by unfold inWrite; split <;> rfl
@[simp] theorem inWrite_errcode (v : Word) (s : State) : (inWrite v s).errcode = s.errcode := by unfold inWrite; split <;> rfl
@[simp] theorem inWrite_arg0 (v : Word) (s : State) : (inWrite v s).arg0 = s.arg0 := by unfold inWrite; split <;> rfl
@[simp] theorem inWrite_arg1 (v : Word) (s : State) : (inWrite v s).arg1 = s.arg1 := by unfold inWrite; split <;> rfl
@[simp] theorem inWrite_arg2 (v : Word) (s : State) : (inWrite v s).arg2 = s.arg2 := by unfold inWrite; split <;> rfl
@[simp] theorem inWrite_root (v : Word) (s : State) : (inWrite v s).root = s.root := by unfold inWrite; split <;> rfl
@[simp] theorem inWrite_bitcnt (v : Word) (s : State) : (inWrite v s).bitcnt = s.bitcnt := by unfold inWrite; split <;> rfl
@[simp] theorem inWrite_bitsin (v : Word) (s : State) : (inWrite v s).bitsin = s.bitsin := by unfold inWrite; split <;> rfl
@[simp] theorem inWrite_errinfo (v : Word) (s : State) : (inWrite v s).errinfo = s.errinfo := by unfold inWrite; split <;> rfl
@[simp] theorem inWrite_ct (v : Word) (s : State) : (inWrite v s).ct = s.ct := by unfold inWrite; split <;> rfl
@[simp] theorem inWrite_node (v : Word) (s : State) : (inWrite v s).node = s.node := by unfold inWrite; split <;> rfl
@[simp] theorem inWrite_outq (v : Word) (s : State) : (inWrite v s).outq = s.outq := by unfold inWrite; split <;> rfl
@[simp] theorem inWrite_phase (v : Word) (s : State) : (inWrite v s).phase = s.phase := by unfold inWrite; split <;> rfl
@[simp] theorem inWrite_msbfL (v : Word) (s : State) : (inWrite v s).msbfL = s.msbfL := by unfold inWrite; split <;> rfl
@[simp] theorem inWrite_curBits (v : Word) (s : State) : (inWrite v s).curBits = s.curBits := by unfold inWrite; split <;> rfl
@[simp] theorem inWrite_curLen (v : Word) (s : State) : (inWrite v s).curLen = s.curLen := by unfold inWrite; split <;> rfl
@[simp] theorem inWrite_curPos (v : Word) (s : State) : (inWrite v s).curPos = s.curPos := by unfold inWrite; split <;> rfl
@[simp] theorem inWrite_curLast (v : Word) (s : State) : (inWrite v s).curLast = s.curLast := by unfold inWrite; split <;> rfl
@[simp] theorem inWrite_oacc (v : Word) (s : State) : (inWrite v s).oacc = s.oacc := by unfold inWrite; split <;> rfl
@[simp] theorem inWrite_ocnt (v : Word) (s : State) : (inWrite v s).ocnt = s.ocnt := by unfold inWrite; split <;> rfl
@[simp] theorem inWrite_iacc (v : Word) (s : State) : (inWrite v s).iacc = s.iacc := by unfold inWrite; split <;> rfl
@[simp] theorem inWrite_icnt (v : Word) (s : State) : (inWrite v s).icnt = s.icnt := by unfold inWrite; split <;> rfl
@[simp] theorem inWrite_ptr (v : Word) (s : State) : (inWrite v s).ptr = s.ptr := by unfold inWrite; split <;> rfl
@[simp] theorem inWrite_pending (v : Word) (s : State) : (inWrite v s).pending = s.pending := by unfold inWrite; split <;> rfl
@[simp] theorem inWrite_replies (v : Word) (s : State) : (inWrite v s).replies = s.replies := by unfold inWrite; split <;> rfl

/-! ### reportCode: the fields it never writes -/

@[simp] theorem reportCode_ctrl (e : CodeEntry) (s : State) : (reportCode e s).ctrl = s.ctrl := by unfold reportCode; split <;> rfl
@[simp] theorem reportCode_done (e : CodeEntry) (s : State) : (reportCode e s).done = s.done := by unfold reportCode; split <;> rfl
@[simp] theorem reportCode_err (e : CodeEntry) (s : State) : (reportCode e s).err = s.err := by unfold reportCode; split <;> rfl
@[simp] theorem reportCode_cmdovr (e : CodeEntry) (s : State) : (reportCode e s).cmdovr = s.cmdovr := by unfold reportCode; split <;> rfl
@[simp] theorem reportCode_inovr (e : CodeEntry) (s : State) : (reportCode e s).inovr = s.inovr := by unfold reportCode; split <;> rfl
@[simp] theorem reportCode_iend (e : CodeEntry) (s : State) : (reportCode e s).iend = s.iend := by unfold reportCode; split <;> rfl
@[simp] theorem reportCode_errcode (e : CodeEntry) (s : State) : (reportCode e s).errcode = s.errcode := by unfold reportCode; split <;> rfl
@[simp] theorem reportCode_root (e : CodeEntry) (s : State) : (reportCode e s).root = s.root := by unfold reportCode; split <;> rfl
@[simp] theorem reportCode_bitcnt (e : CodeEntry) (s : State) : (reportCode e s).bitcnt = s.bitcnt := by unfold reportCode; split <;> rfl
@[simp] theorem reportCode_bitsin (e : CodeEntry) (s : State) : (reportCode e s).bitsin = s.bitsin := by unfold reportCode; split <;> rfl
@[simp] theorem reportCode_errinfo (e : CodeEntry) (s : State) : (reportCode e s).errinfo = s.errinfo := by unfold reportCode; split <;> rfl
@[simp] theorem reportCode_ct (e : CodeEntry) (s : State) : (reportCode e s).ct = s.ct := by unfold reportCode; split <;> rfl
@[simp] theorem reportCode_node (e : CodeEntry) (s : State) : (reportCode e s).node = s.node := by unfold reportCode; split <;> rfl
@[simp] theorem reportCode_inq (e : CodeEntry) (s : State) : (reportCode e s).inq = s.inq := by unfold reportCode; split <;> rfl
@[simp] theorem reportCode_outq (e : CodeEntry) (s : State) : (reportCode e s).outq = s.outq := by unfold reportCode; split <;> rfl
@[simp] theorem reportCode_phase (e : CodeEntry) (s : State) : (reportCode e s).phase = s.phase := by unfold reportCode; split <;> rfl
@[simp] theorem reportCode_msbfL (e : CodeEntry) (s : State) : (reportCode e s).msbfL = s.msbfL := by unfold reportCode; split <;> rfl
@[simp] theorem reportCode_curBits (e : CodeEntry) (s : State) : (reportCode e s).curBits = s.curBits := by unfold reportCode; split <;> rfl
@[simp] theorem reportCode_curLen (e : CodeEntry) (s : State) : (reportCode e s).curLen = s.curLen := by unfold reportCode; split <;> rfl
@[simp] theorem reportCode_curPos (e : CodeEntry) (s : State) : (reportCode e s).curPos = s.curPos := by unfold reportCode; split <;> rfl
@[simp] theorem reportCode_curLast (e : CodeEntry) (s : State) : (reportCode e s).curLast = s.curLast := by unfold reportCode; split <;> rfl
@[simp] theorem reportCode_oacc (e : CodeEntry) (s : State) : (reportCode e s).oacc = s.oacc := by unfold reportCode; split <;> rfl
@[simp] theorem reportCode_ocnt (e : CodeEntry) (s : State) : (reportCode e s).ocnt = s.ocnt := by unfold reportCode; split <;> rfl
@[simp] theorem reportCode_iacc (e : CodeEntry) (s : State) : (reportCode e s).iacc = s.iacc := by unfold reportCode; split <;> rfl
@[simp] theorem reportCode_icnt (e : CodeEntry) (s : State) : (reportCode e s).icnt = s.icnt := by unfold reportCode; split <;> rfl
@[simp] theorem reportCode_ptr (e : CodeEntry) (s : State) : (reportCode e s).ptr = s.ptr := by unfold reportCode; split <;> rfl
@[simp] theorem reportCode_pending (e : CodeEntry) (s : State) : (reportCode e s).pending = s.pending := by unfold reportCode; split <;> rfl
@[simp] theorem reportCode_replies (e : CodeEntry) (s : State) : (reportCode e s).replies = s.replies := by unfold reportCode; split <;> rfl

end Sys2Proof.Machine
end

