-- ==== Sys2Proof/Laws/Memory.lean ====
section
/-! SUPPORT. The laws of the sparse memories CT and NODE: read after write, and every memory operation keeps the canonical form
(spec/10_state.md R36, R37; log entry 6). -/

namespace Sys2Proof.Machine

section
variable {α : Type}

/-- Below the least listed index nothing is listed. -/
theorem tableRead_below (d : α) (t : List (Nat × α)) (lo q : Nat) (h : tableRising lo t = true) (hq : q < lo) :
    tableRead d t q = d := by
  induction t generalizing lo with
  | nil => rfl
  | cons c t ih =>
    obtain ⟨k, v⟩ := c
    simp only [tableRising, Bool.and_eq_true, decide_eq_true_eq] at h
    have hk : k ≠ q := by omega
    simpa [tableRead, hk] using ih (k + 1) h.2 (by omega)

/-- A smaller lower bound holds as well. -/
theorem tableRising_mono (t : List (Nat × α)) {lo lo' : Nat} (hle : lo' ≤ lo) (h : tableRising lo t = true) :
    tableRising lo' t = true := by
  cases t with
  | nil => rfl
  | cons c t =>
    simp only [tableRising, Bool.and_eq_true, decide_eq_true_eq] at h ⊢
    exact ⟨by omega, h.2⟩

/-- Reading where a value was inserted. -/
theorem tableRead_insert_self (d : α) (k : Nat) (v : α) (t : List (Nat × α)) : tableRead d (tableInsert k v t) k = v := by
  induction t with
  | nil => simp [tableInsert, tableRead]
  | cons c t ih =>
    obtain ⟨j, w⟩ := c
    simp only [tableInsert]
    split
    · simp [tableRead]
    · split
      · simp [tableRead]
      · have hj : j ≠ k := by omega
        simpa [tableRead, hj] using ih

/-- Reading elsewhere after an insertion. -/
theorem tableRead_insert_other (d : α) (k q : Nat) (v : α) (t : List (Nat × α)) (h : k ≠ q) :
    tableRead d (tableInsert k v t) q = tableRead d t q := by
  induction t with
  | nil => simp [tableInsert, tableRead, h]
  | cons c t ih =>
    obtain ⟨j, w⟩ := c
    simp only [tableInsert]
    split
    · simp [tableRead, h]
    · split
      · next hkj => subst hkj; simp [tableRead, h]
      · simp [tableRead, ih]

/-- Reading where an entry was erased, in a list of rising indices. -/
theorem tableRead_erase_self (d : α) (k lo : Nat) (t : List (Nat × α)) (hr : tableRising lo t = true) :
    tableRead d (tableErase k t) k = d := by
  induction t generalizing lo with
  | nil => rfl
  | cons c t ih =>
    obtain ⟨j, w⟩ := c
    simp only [tableRising, Bool.and_eq_true, decide_eq_true_eq] at hr
    simp only [tableErase]
    split
    · next hkj => exact tableRead_below d t (j + 1) k hr.2 (by omega)
    · next hkj =>
      have hj : j ≠ k := fun e => hkj e.symm
      simpa [tableRead, hj] using ih (j + 1) hr.2

/-- Reading elsewhere after an erasure. -/
theorem tableRead_erase_other (d : α) (k q : Nat) (t : List (Nat × α)) (h : k ≠ q) :
    tableRead d (tableErase k t) q = tableRead d t q := by
  induction t with
  | nil => rfl
  | cons c t ih =>
    obtain ⟨j, w⟩ := c
    simp only [tableErase]
    split
    · next hkj => subst hkj; simp [tableRead, h]
    · simp [tableRead, ih]

/-- An insertion keeps the indices rising. -/
theorem tableRising_insert (k : Nat) (v : α) (t : List (Nat × α)) (lo : Nat) (hk : lo ≤ k) (h : tableRising lo t = true) :
    tableRising lo (tableInsert k v t) = true := by
  induction t generalizing lo with
  | nil => simp [tableInsert, tableRising, hk]
  | cons c t ih =>
    obtain ⟨j, w⟩ := c
    simp only [tableRising, Bool.and_eq_true, decide_eq_true_eq] at h
    simp only [tableInsert]
    split
    · simp only [tableRising, Bool.and_eq_true, decide_eq_true_eq]
      exact ⟨hk, by omega, h.2⟩
    · split
      · next hkj => subst hkj; simpa [tableRising, hk] using h.2
      · simp only [tableRising, Bool.and_eq_true, decide_eq_true_eq]
        exact ⟨h.1, ih (j + 1) (by omega) h.2⟩

/-- An erasure keeps the indices rising. -/
theorem tableRising_erase (k : Nat) (t : List (Nat × α)) (lo : Nat) (h : tableRising lo t = true) :
    tableRising lo (tableErase k t) = true := by
  induction t generalizing lo with
  | nil => rfl
  | cons c t ih =>
    obtain ⟨j, w⟩ := c
    simp only [tableRising, Bool.and_eq_true, decide_eq_true_eq] at h
    simp only [tableErase]
    split
    · exact tableRising_mono t (by omega) h.2
    · simp only [tableRising, Bool.and_eq_true, decide_eq_true_eq]
      exact ⟨h.1, ih (j + 1) h.2⟩

/-- An entry of the list after an insertion is the new one or an old one. -/
theorem mem_tableInsert {k : Nat} {v : α} {t : List (Nat × α)} {c : Nat × α} (h : c ∈ tableInsert k v t) :
    c = (k, v) ∨ c ∈ t := by
  induction t with
  | nil => simpa [tableInsert] using h
  | cons e t ih =>
    obtain ⟨j, w⟩ := e
    simp only [tableInsert] at h
    split at h
    · simpa using h
    · split at h
      · rcases List.mem_cons.mp h with h | h
        · exact .inl h
        · exact .inr (List.mem_cons_of_mem _ h)
      · rcases List.mem_cons.mp h with h | h
        · exact .inr (h ▸ List.mem_cons_self)
        · exact (ih h).imp id (List.mem_cons_of_mem _)

/-- An entry of the list after an erasure is an old one. -/
theorem mem_tableErase {k : Nat} {t : List (Nat × α)} {c : Nat × α} (h : c ∈ tableErase k t) : c ∈ t := by
  induction t with
  | nil => exact h
  | cons e t ih =>
    obtain ⟨j, w⟩ := e
    simp only [tableErase] at h
    split at h
    · exact List.mem_cons_of_mem _ h
    · rcases List.mem_cons.mp h with h | h
      · exact h ▸ List.mem_cons_self
      · exact List.mem_cons_of_mem _ (ih h)

/-- What is read is the default or the value of a listed entry. -/
theorem tableRead_mem (d : α) (t : List (Nat × α)) (q : Nat) : tableRead d t q = d ∨ (q, tableRead d t q) ∈ t := by
  induction t with
  | nil => exact .inl rfl
  | cons c t ih =>
    obtain ⟨k, v⟩ := c
    simp only [tableRead]
    split
    · next hk => subst hk; exact .inr List.mem_cons_self
    · exact ih.imp id (List.mem_cons_of_mem _)

variable [DecidableEq α]

/-- The canonical form, taken apart. -/
theorem tableWf_iff (d : α) (n : Nat) (t : List (Nat × α)) :
    tableWf d n t = true ↔ tableRising 0 t = true ∧ ∀ c ∈ t, c.1 < n ∧ c.2 ≠ d := by
  simp [tableWf]

/-- Read after write, at the index written. -/
theorem tableRead_write_self (d : α) (n k : Nat) (v : α) (t : List (Nat × α)) (h : tableWf d n t = true) :
    tableRead d (tableWrite d k v t) k = v := by
  unfold tableWrite
  split
  · next hv => subst hv; exact tableRead_erase_self v k 0 t ((tableWf_iff v n t).mp h).1
  · exact tableRead_insert_self d k v t

/-- Read after write, at any other index. -/
theorem tableRead_write_other (d : α) (k q : Nat) (v : α) (t : List (Nat × α)) (h : k ≠ q) :
    tableRead d (tableWrite d k v t) q = tableRead d t q := by
  unfold tableWrite
  split
  · exact tableRead_erase_other d k q t h
  · exact tableRead_insert_other d k q v t h

/-- An entry after a write is the one written or an old one. -/
theorem mem_tableWrite {d : α} {k : Nat} {v : α} {t : List (Nat × α)} {c : Nat × α} (h : c ∈ tableWrite d k v t) :
    (c = (k, v) ∧ v ≠ d) ∨ c ∈ t := by
  unfold tableWrite at h
  split at h
  · exact .inr (mem_tableErase h)
  · next hv => exact (mem_tableInsert h).imp (fun e => ⟨e, hv⟩) id

/-- A write keeps the canonical form. -/
theorem tableWrite_wf (d : α) (n k : Nat) (v : α) (t : List (Nat × α)) (hk : k < n) (h : tableWf d n t = true) :
    tableWf d n (tableWrite d k v t) = true := by
  obtain ⟨hr, he⟩ := (tableWf_iff d n t).mp h
  refine (tableWf_iff d n _).mpr ⟨?_, fun c hc => ?_⟩
  · unfold tableWrite
    split
    · exact tableRising_erase k t 0 hr
    · exact tableRising_insert k v t 0 (Nat.zero_le k) hr
  · rcases mem_tableWrite hc with ⟨rfl, hv⟩ | hc
    · exact ⟨hk, hv⟩
    · exact he c hc

end

/-! ### CT and NODE -/

/-- The memories of the reset state are canonical. -/
theorem reset_memory_wf : Memory.wf State.reset = true := rfl

/-- Memory.wf taken apart. -/
theorem memory_wf_iff (s : State) :
    Memory.wf s = true ↔ tableWf absentEntry Config.symCount s.ct = true ∧ tableWf emptyNode Config.nodeCount s.node = true := by
  simp [Memory.wf]

/-- Only the two memories matter to the canonical form. -/
theorem memory_wf_congr {s t : State} (hc : t.ct = s.ct) (hn : t.node = s.node) : Memory.wf t = Memory.wf s := by
  simp [Memory.wf, hc, hn]

/-- CT[sym] <- e keeps the canonical form (R164). -/
theorem setCode_wf (sym : Symbol) (e : CodeEntry) (s : State) (hs : symInRange sym = true) (h : Memory.wf s = true) :
    Memory.wf (setCode sym e s) = true := by
  rw [memory_wf_iff] at h ⊢
  exact ⟨tableWrite_wf _ _ _ e s.ct (by simpa [symInRange] using hs) h.1, h.2⟩

/-- NODE[idx] <- w keeps the canonical form (R166). -/
theorem setNode_wf (idx : NodeIdx) (w : Word) (s : State) (hi : idxInRange idx = true) (h : Memory.wf s = true) :
    Memory.wf (setNode idx w s) = true := by
  rw [memory_wf_iff] at h ⊢
  exact ⟨h.1, tableWrite_wf _ _ _ w s.node (by simpa [idxInRange] using hi) h.2⟩

/-- CLEAR's memories are canonical (R161). -/
theorem clearBlock_wf (s : State) : Memory.wf (clearBlock s) = true := rfl

/-- The reset event's memories are canonical (R360). -/
theorem resetBlock_wf (s : State) : Memory.wf (resetBlock s) = true := rfl

/-- CT[sym] after a write of it. -/
theorem codeAt_setCode_self (sym : Symbol) (e : CodeEntry) (s : State) (h : Memory.wf s = true) :
    codeAt (setCode sym e s) sym = e :=
  tableRead_write_self absentEntry Config.symCount sym.toNat e s.ct ((memory_wf_iff s).mp h).1

/-- CT elsewhere after a write. -/
theorem codeAt_setCode_other (sym q : Symbol) (e : CodeEntry) (s : State) (h : sym ≠ q) :
    codeAt (setCode sym e s) q = codeAt s q :=
  tableRead_write_other absentEntry sym.toNat q.toNat e s.ct (fun he => h (BitVec.eq_of_toNat_eq he))

/-- NODE[idx] after a write of it. -/
theorem nodeWord_setNode_self (idx : NodeIdx) (w : Word) (s : State) (h : Memory.wf s = true) :
    nodeWord (setNode idx w s) idx = w :=
  tableRead_write_self emptyNode Config.nodeCount idx.toNat w s.node ((memory_wf_iff s).mp h).2

/-- NODE elsewhere after a write. -/
theorem nodeWord_setNode_other (idx q : NodeIdx) (w : Word) (s : State) (h : idx ≠ q) :
    nodeWord (setNode idx w s) q = nodeWord s q :=
  tableRead_write_other emptyNode idx.toNat q.toNat w s.node (fun he => h (BitVec.eq_of_toNat_eq he))

/-- What is read of CT depends on CT alone. -/
theorem codeAt_congr {s t : State} (h : t.ct = s.ct) (q : Symbol) : codeAt t q = codeAt s q := by
  simp [codeAt, h]

/-- What is read of NODE depends on NODE alone. -/
theorem nodeWord_congr {s t : State} (h : t.node = s.node) (q : NodeIdx) : nodeWord t q = nodeWord s q := by
  simp [nodeWord, h]

end Sys2Proof.Machine
end

