-- ==== Sys2Proof/Laws/Ops.lean ====
section
/-! SUPPORT. For each shared operation one lemma that says once everything it can do, for later proofs to cite. -/

namespace Sys2Proof.Machine

/-! ### The ranges and the full FIFOs in arithmetic -/

theorem symInRange_iff (sym : Symbol) : symInRange sym = true ↔ sym.toNat ≤ 0x100 := by
  simp only [symInRange, Config.symCount, decide_eq_true_eq]; omega

theorem lenInRange_iff (len : BitVec 7) : lenInRange len = true ↔ len.toNat ≤ 64 := by
  simp only [lenInRange, decide_eq_true_eq]

theorem idxInRange_iff (idx : NodeIdx) : idxInRange idx = true ↔ idx.toNat ≤ 512 := by
  simp only [idxInRange, Config.nodeCount, decide_eq_true_eq]; omega

theorem inqFull_iff (s : State) : inqFull s = true ↔ s.inq.length = 16 := by simp [inqFull]

theorem outqFull_iff (s : State) : outqFull s = true ↔ s.outq.length = 16 := by simp [outqFull]

theorem packHold_iff (s : State) : packHold s = true ↔ s.ocnt = 7#3 ∧ s.outq.length = 16 := by
  simp [packHold, outqFull_iff]

/-- The code is legal exactly when no bit at or above LEN is 1 (R102). -/
theorem codeLegal_iff (len : BitVec 7) (code : BitVec 64) :
    codeLegal len code = true ↔ ∀ i, len.toNat ≤ i → code.getLsbD i = false := by
  simp only [codeLegal, beq_iff_eq]
  constructor
  · intro h i hi
    have := congrArg (fun v => v.getLsbD (i - len.toNat)) h
    simpa [Nat.add_sub_cancel' hi] using this
  · intro h
    apply BitVec.eq_of_getLsbD_eq
    intro i _
    simpa using h _ (Nat.le_add_right _ _)

/-- A node word is EMPTY exactly by its KIND (R100). -/
theorem nodeView_empty_iff (w : Word) : nodeView w = .empty ↔ nodeKind w = 0#2 := by
  unfold nodeView
  constructor
  · intro h
    split at h <;> simp at h
    next h0 => exact BitVec.eq_of_toNat_eq h0
  · intro h
    rw [h]
    rfl

/-! ### The shared operations -/

/-- BUSY is off exactly in IDLE (R23). -/
theorem busy_eq_false_iff (s : State) : busy s = false ↔ s.phase = .idle := by simp [busy]

/-- BUSY is on exactly outside IDLE (R23). -/
theorem busy_eq_true_iff (s : State) : busy s = true ↔ s.phase ≠ .idle := by simp [busy]

/-- The error stop, all of it in one record: PHASE is IDLE after it, IEND is cleared only if a job ran (R322). -/
theorem raiseError_eq (code : ErrCode) (info : BitVec 10) (s : State) :
    raiseError code info s =
      { s with err := true, errcode := code, errinfo := info, phase := .idle, iend := if busy s then false else s.iend } := by
  unfold raiseError
  split
  · next h => simp [endJob, recordError]
  · next h =>
    have hp : s.phase = .idle := (busy_eq_false_iff s).mp (by simpa using h)
    cases s
    simp_all [recordError]

@[simp] theorem raiseError_err (code : ErrCode) (info : BitVec 10) (s : State) : (raiseError code info s).err = true := by
  simp [raiseError_eq]

@[simp] theorem raiseError_errcode (code : ErrCode) (info : BitVec 10) (s : State) : (raiseError code info s).errcode = code := by
  simp [raiseError_eq]

@[simp] theorem raiseError_errinfo (code : ErrCode) (info : BitVec 10) (s : State) : (raiseError code info s).errinfo = info := by
  simp [raiseError_eq]

@[simp] theorem raiseError_phase (code : ErrCode) (info : BitVec 10) (s : State) : (raiseError code info s).phase = .idle := by
  simp [raiseError_eq]

@[simp] theorem raiseError_iend (code : ErrCode) (info : BitVec 10) (s : State) :
    (raiseError code info s).iend = if busy s then false else s.iend := by
  simp [raiseError_eq]

/-- NODE[idx] exists exactly for the indices 0-512 (R37). -/
theorem nodeAt_eq_some_iff (s : State) (idx : NodeIdx) (w : Word) :
    nodeAt s idx = some w ↔ idx.toNat < Config.nodeCount ∧ nodeWord s idx = w := by
  unfold nodeAt
  split <;> simp_all

/-- An access that is no aligned 32-bit one reaches no register (R64). -/
theorem regAt_none_of_width (off : BitVec 6) (size : Nat) (h : size ≠ 4) : regAt off size = none := by
  simp [regAt, h]

/-- A register's offset leads to the register (register map). -/
@[simp] theorem regAt_regOffset (r : Reg) : regAt (regOffset r) 4 = some r := by
  cases r <;> rfl

/-- A host read of a register by its name (R121). -/
@[simp] theorem hostStep_rd (r : Reg) (s : State) : hostStep (rd r) s = .next (reply (readReg r s).1 (readReg r s).2) := by
  simp [hostStep, rd, busRead]

/-- A host write of a register by its name (R121). -/
@[simp] theorem hostStep_wr (r : Reg) (v : Word) (s : State) : hostStep (wr r v) s = writeReg r v s := by
  simp [hostStep, wr, busWrite]

/-- A step takes the first coming event (R70). -/
theorem step_of_pending {s : State} {e : Event} {rest : List Event} (h : s.pending = e :: rest) :
    step s = eventStep e (takeEvent rest s) := by
  simp [step, h]

/-- With nothing coming the engine moves. -/
theorem step_of_no_event {s : State} (h : s.pending = []) : step s = engineStep s := by
  simp [step, h]

/-- A command word while a job runs is dropped, unless it is ABORT (R131). -/
theorem cmdWrite_of_busy {s : State} {w : Word} (hb : busy s = true) (hw : w ≠ abortWord) :
    cmdWrite w s = .next (cmdDrop s) := by
  simp [cmdWrite, hb, hw]

/-- An accepted word runs after the flags are cleared (R130). -/
theorem cmdWrite_of_accepted {s : State} {w : Word} (h : busy s = false ∨ w = abortWord) :
    cmdWrite w s = runCommand w (acceptClear s) := by
  rcases h with h | h <;> simp [cmdWrite, h]

/-- PackBit that fills the byte (R204). -/
theorem packBit_full (x : Bool) (s : State) (h : s.ocnt = 7#3) :
    packBit x s = { s with outq := s.outq ++ [setBit s.oacc (bitPlace s.msbfL 7) x], oacc := 0#8, ocnt := 0#3 } := by
  simp [packBit, h, pushOut]

/-- PackBit that leaves the byte partial (R204). -/
theorem packBit_partial (x : Bool) (s : State) (h : s.ocnt ≠ 7#3) :
    packBit x s = { s with oacc := setBit s.oacc (bitPlace s.msbfL s.ocnt.toNat) x, ocnt := s.ocnt + 1#3 } := by
  simp [packBit, h]

/-- NextBit with bits left in IACC (R243). -/
theorem nextBit_held (s : State) (h : s.icnt ≠ 0#4) :
    nextBit s = (unpackedBit s.msbfL s.iacc s.icnt.toNat, { s with icnt := s.icnt - 1#4, bitsin := s.bitsin + 1#32 }) := by
  simp [nextBit, loadByte, h]

/-- NextBit that loads the next byte (R243). -/
theorem nextBit_load (s : State) (b : Byte) (rest : List Byte) (h : s.icnt = 0#4) (hq : s.inq = b :: rest) :
    nextBit s = (unpackedBit s.msbfL b 8, { s with iacc := b, inq := rest, icnt := 7#4, bitsin := s.bitsin + 1#32 }) := by
  simp [nextBit, loadByte, h, hq]

/-- The bit that NextBit returns is the bit that PeekBit shows (R242). -/
theorem nextBit_fst_eq_peekBit (s : State) : (nextBit s).1 = peekBit s := by
  by_cases h : s.icnt = 0#4
  · simp [nextBit, loadByte, peekBit, h]
  · have hn : 0 < s.icnt.toNat := by
      rcases Nat.eq_zero_or_pos s.icnt.toNat with h0 | h0
      · exact absurd (BitVec.eq_of_toNat_eq h0) h
      · exact h0
    simp [nextBit_held s h, peekBit, hn]

/-- Avail, taken apart (R242). -/
theorem avail_iff (s : State) : avail s = true ↔ 0 < s.icnt.toNat ∨ s.inq ≠ [] := by
  simp [avail]

/-- The fetch of a present code (R202, R203). -/
theorem fetchCode_present (sym : Symbol) (last : Bool) (s : State) (h : (codeAt s sym).len ≠ 0#7) :
    fetchCode sym last s =
      { s with curBits := (codeAt s sym).bits, curLen := (codeAt s sym).len, curPos := 0#7, curLast := last, phase := .encEmit } := by
  simp [fetchCode, h]

/-- The fetch of an absent code (R202, R203). -/
theorem fetchCode_absent (sym : Symbol) (last : Bool) (s : State) (h : (codeAt s sym).len = 0#7) :
    fetchCode sym last s = raiseError .encGap (sym.setWidth 10) s := by
  simp [fetchCode, h]

end Sys2Proof.Machine
end

