-- ==== Sys2Proof/Laws/Stream.lean ====
section
/-! SUPPORT. The packed stream byte by byte: what setting one bit does to the bits a byte carries, and which bit the unpacker takes
(spec/20_memory.md R63). -/

namespace Sys2Proof.Machine

/-- A byte carries eight bits. -/
@[simp] theorem byteBits_length (m : Bool) (b : Byte) : (byteBits m b).length = 8 := by simp [byteBits]

/-- The eight bits of a byte written out. -/
theorem byteBits_eq (m : Bool) (b : Byte) :
    byteBits m b =
      [b.getLsbD (bitPlace m 0), b.getLsbD (bitPlace m 1), b.getLsbD (bitPlace m 2), b.getLsbD (bitPlace m 3),
       b.getLsbD (bitPlace m 4), b.getLsbD (bitPlace m 5), b.getLsbD (bitPlace m 6), b.getLsbD (bitPlace m 7)] := rfl

/-- Bit j of the stream within its byte (R63). -/
theorem byteBits_getElem? (m : Bool) (b : Byte) (j : Nat) (hj : j < 8) : (byteBits m b)[j]? = some (b.getLsbD (bitPlace m j)) := by
  rw [byteBits_eq]
  interval_cases j <;> rfl

/-- The bits of a longer sequence of bytes. -/
@[simp] theorem streamBits_append (m : Bool) (xs ys : List Byte) : streamBits m (xs ++ ys) = streamBits m xs ++ streamBits m ys := by
  simp [streamBits]

@[simp] theorem streamBits_nil (m : Bool) : streamBits m [] = [] := rfl

@[simp] theorem streamBits_cons (m : Bool) (b : Byte) (bs : List Byte) : streamBits m (b :: bs) = byteBits m b ++ streamBits m bs := by
  simp [streamBits]

/-- A sequence of bytes carries eight bits each. -/
@[simp] theorem streamBits_length (m : Bool) (bs : List Byte) : (streamBits m bs).length = 8 * bs.length := by
  induction bs with
  | nil => rfl
  | cons b bs ih => simp [ih]; omega

/-- One bit of a byte after another has been set. -/
theorem getLsbD_setBit (v : Byte) (i j : Nat) (x : Bool) (hi : i < 8) :
    (setBit v i x).getLsbD j = if j = i then x else v.getLsbD j := by
  unfold setBit
  rcases Nat.lt_or_ge j 8 with hj | hj
  · interval_cases i <;> interval_cases j <;> cases x <;> simp
  · have hv : v.getLsbD j = false := BitVec.getLsbD_of_ge _ _ hj
    split
    · rw [BitVec.getLsbD_of_ge _ _ hj, hv]
      rw [if_neg (by omega)]
    · rw [BitVec.getLsbD_of_ge _ _ hj, hv]
      rw [if_neg (by omega)]

/-- Setting the next free bit of the partial byte appends it to the bits the byte carries (R204). -/
theorem take_byteBits_setBit (m : Bool) (b : Byte) (n : Nat) (x : Bool) (hn : n < 8) :
    (byteBits m (setBit b (bitPlace m n) x)).take (n + 1) = (byteBits m b).take n ++ [x] := by
  have hp : bitPlace m n < 8 := by unfold bitPlace; split <;> omega
  simp only [byteBits_eq, getLsbD_setBit _ _ _ _ hp]
  interval_cases n <;> cases m <;> simp [bitPlace]

/-- The bit of a byte of which `cnt` bits are left is the first of those bits (R242, R243). -/
theorem drop_byteBits (m : Bool) (b : Byte) (cnt : Nat) (h0 : 0 < cnt) (h8 : cnt ≤ 8) :
    (byteBits m b).drop (8 - cnt) = unpackedBit m b cnt :: (byteBits m b).drop (8 - (cnt - 1)) := by
  simp only [byteBits_eq]
  interval_cases cnt <;> cases m <;> simp [bitPlace, unpackedBit]

/-- A code has as many bits as its entry's LEN says (R36). -/
@[simp] theorem codeBits_length (e : CodeEntry) : (codeBits e).length = e.len.toNat := by simp [codeBits]

/-- The bit at a position of the code (R205). -/
theorem codeBits_getElem (e : CodeEntry) (i : Nat) (h : i < (codeBits e).length) :
    (codeBits e)[i] = e.bits.getLsbD (e.len.toNat - 1 - i) := by simp [codeBits]

/-- While a bit of the current code is left, it is the first of the rest (R205). -/
theorem restOfCode_eq_cons (s : State) (h : s.curPos.toNat < s.curLen.toNat) :
    restOfCode s = nextCodeBit s :: (codeBits { len := s.curLen, bits := s.curBits }).drop (s.curPos.toNat + 1) := by
  unfold restOfCode
  rw [List.drop_eq_getElem_cons (by simpa using h), codeBits_getElem]
  rfl

end Sys2Proof.Machine
end

