-- ==== Sys2Proof/Laws/Engine.lean ====
section
/-! SUPPORT. What the engine's primitives do, each said once: the packer, the unpacker, the legal node words and entries, runs of the
engine (spec/42_encode.md R204, R205; spec/43_decode.md R242, R243). -/

namespace Sys2Proof.Machine

/-! ### The packer -/

/-- PackBit appends its bit to the packed stream (R204). -/
theorem packedBits_packBit (x : Bool) (s : State) : packedBits (packBit x s) = packedBits s ++ [x] := by
  unfold packedBits partialBits
  by_cases h : s.ocnt = 7#3
  · have hb := take_byteBits_setBit s.msbfL s.oacc 7 x (by omega)
    rw [List.take_of_length_le (by simp)] at hb
    rw [packBit_full _ _ h]
    simp [h, hb]
  · have hlt : s.ocnt.toNat < 7 := by
      have h7 : s.ocnt.toNat ≠ 7 := fun e => h (BitVec.eq_of_toNat_eq e)
      have := s.ocnt.isLt
      omega
    have hs : (s.ocnt + 1#3).toNat = s.ocnt.toNat + 1 := by rw [BitVec.toNat_add]; simp; omega
    rw [packBit_partial _ _ h]
    simp [hs, take_byteBits_setBit _ _ _ _ (show s.ocnt.toNat < 8 by omega)]

/-- PackBit only adds to OUTQ (R204). -/
theorem outq_prefix_packBit (x : Bool) (s : State) : s.outq <+: (packBit x s).outq := by
  by_cases h : s.ocnt = 7#3
  · rw [packBit_full _ _ h]; exact List.prefix_append _ _
  · rw [packBit_partial _ _ h]

/-- Eight bits for each byte of OUTQ, and the partial byte. -/
theorem packedBits_length (s : State) : (packedBits s).length = 8 * s.outq.length + s.ocnt.toNat := by
  have := s.ocnt.isLt
  simp [packedBits, partialBits]
  omega

/-- CUR_POS counts up while a bit of the code is left (R205). -/
theorem curPos_succ {s : State} (h : s.curPos.toNat < s.curLen.toNat) : (s.curPos + 1#7).toNat = s.curPos.toNat + 1 := by
  have := s.curLen.isLt
  rw [BitVec.toNat_add]
  simp
  omega

/-- The phase after a bit, in arithmetic (R205). -/
theorem phaseAfterBit_eq {s : State} (h : s.curPos.toNat < s.curLen.toNat) :
    phaseAfterBit s =
      if s.curPos.toNat + 1 = s.curLen.toNat then (if s.curLast then .encPad else .encFetch) else .encEmit := by
  have : s.curPos + 1#7 = s.curLen ↔ s.curPos.toNat + 1 = s.curLen.toNat := by
    rw [← curPos_succ h]
    exact ⟨fun e => by rw [e], fun e => BitVec.eq_of_toNat_eq e⟩
  simp [phaseAfterBit, this]

/-! ### The unpacker -/

/-- The two ways a bit is consumed, with the bit PeekBit shows (R242, R243). -/
theorem consumeBit_cases (s : State) (ha : avail s = true) :
    (s.icnt ≠ 0#4 ∧ consumeBit s = { s with icnt := s.icnt - 1#4, bitsin := s.bitsin + 1#32 } ∧
      peekBit s = unpackedBit s.msbfL s.iacc s.icnt.toNat) ∨
    ∃ b rest, s.icnt = 0#4 ∧ s.inq = b :: rest ∧
      consumeBit s = { s with iacc := b, inq := rest, icnt := 7#4, bitsin := s.bitsin + 1#32 } ∧ peekBit s = unpackedBit s.msbfL b 8 := by
  by_cases h0 : s.icnt = 0#4
  · rcases (avail_iff s).mp ha with h | h
    · simp [h0] at h
    · obtain ⟨b, rest, hb⟩ := List.exists_cons_of_ne_nil h
      exact .inr ⟨b, rest, h0, hb, by simp [consumeBit, nextBit_load s b rest h0 hb], by simp [peekBit, h0, hb]⟩
  · have hpos : 0 < s.icnt.toNat := Nat.pos_of_ne_zero fun h => h0 (BitVec.eq_of_toNat_eq h)
    exact .inl ⟨h0, by simp [consumeBit, nextBit_held s h0], by simp [peekBit, hpos]⟩

/-- Eight bits for each byte of INQ, and the bits left of IACC. -/
theorem inputBits_length (s : State) (h : s.icnt.toNat ≤ 8) : (inputBits s).length = s.icnt.toNat + 8 * s.inq.length := by
  simp [inputBits, heldBits]
  omega

/-! ### What the engine takes from INQ -/

/-- From `s` to `t` bytes have only been taken from the head of INQ, and no event of what comes. -/
def TakesInput (s t : State) : Prop := t.inq <:+ s.inq ∧ t.pending = s.pending

theorem TakesInput.refl (s : State) : TakesInput s s := ⟨List.suffix_refl _, rfl⟩

/-- A state that keeps both fields. -/
theorem TakesInput.of_eq {s t : State} (hq : t.inq = s.inq) (hp : t.pending = s.pending) : TakesInput s t := ⟨by rw [hq], hp⟩

/-- NextBit takes at most the byte it loads (R243). -/
theorem consumeBit_takesInput (s : State) : TakesInput s (consumeBit s) := by
  unfold consumeBit nextBit loadByte
  by_cases h : s.icnt = 0#4
  · simp only [h, if_true]
    exact ⟨List.tail_suffix _, rfl⟩
  · simp only [h, if_false]
    exact TakesInput.refl s

/-- The error stop after NextBit takes no more (R322, R323). -/
theorem raiseError_consumeBit_takesInput (c : ErrCode) (i : BitVec 10) (s : State) :
    TakesInput s (raiseError c i (consumeBit s)) :=
  ⟨by rw [raiseError_inq]; exact (consumeBit_takesInput s).1, by rw [raiseError_pending]; exact (consumeBit_takesInput s).2⟩

/-- The second half of DecStep takes at most NextBit's byte (R244). -/
theorem walkTo_takesInput {c : NodeIdx} {s t : State} (h : walkTo c s = .next t) : TakesInput s t := by
  have k := consumeBit_takesInput s
  unfold walkTo at h
  split at h
  · cases h
  · split at h
    · cases h; exact raiseError_consumeBit_takesInput _ _ s
    · split at h
      · cases h; exact k
      · split at h
        · cases h; exact TakesInput.refl s
        · cases h; exact k
    · cases h; exact k
    · cases h

/-- Fetching a code takes nothing beside the byte already popped (R203). -/
theorem fetchCode_takesInput (q : Symbol) (l : Bool) (s : State) : TakesInput s (fetchCode q l s) := by
  unfold fetchCode
  dsimp only
  split
  · exact .of_eq (by simp) (by simp)
  · exact TakesInput.refl s

/-- PackBit takes nothing (R204). -/
theorem packBit_takesInput (x : Bool) (s : State) : TakesInput s (packBit x s) := .of_eq (by simp) (by simp)

/-- Every engine step takes bytes only from the head of INQ, and no event (R38, R202, R243). -/
theorem engineStep_takesInput {s t : State} (h : engineStep s = .next t) : TakesInput s t := by
  unfold engineStep at h
  split at h
  · cases h; exact TakesInput.refl s
  · unfold stepEncFetch at h
    split at h
    · next b rest hq =>
      cases h
      have k := fetchCode_takesInput (b.setWidth 9) false { s with inq := rest }
      exact ⟨k.1.trans (by rw [hq]; exact List.suffix_cons _ _), k.2⟩
    · split at h
      · cases h; exact fetchCode_takesInput _ _ s
      · cases h; exact TakesInput.refl s
  · unfold stepEncEmit at h
    split at h
    · cases h; exact TakesInput.refl s
    · split at h
      · cases h; exact ⟨(packBit_takesInput _ s).1, (packBit_takesInput _ s).2⟩
      · cases h
  · unfold stepEncPad at h
    split at h
    · cases h; exact TakesInput.refl s
    · split at h
      · cases h; exact TakesInput.refl s
      · cases h; exact packBit_takesInput _ s
  · unfold stepDecWalk at h
    split at h
    · split at h
      · cases h; exact .of_eq (by simp) (by simp)
      · cases h; exact TakesInput.refl s
    · split at h
      · cases h
      · unfold walkBit at h
        split at h
        · cases h
        · split at h
          · cases h; exact raiseError_consumeBit_takesInput _ _ s
          · split at h
            · cases h; exact raiseError_consumeBit_takesInput _ _ s
            · exact walkTo_takesInput h
          · exact walkTo_takesInput h
          · cases h

/-! ### Legal node words and entries -/

/-- A legal node word is EMPTY, a LEAF with a symbol, or an INTERNAL with two indices (R101). -/
theorem nodeView_of_legal (w : Word) (h : nodeWordLegal w = true) :
    nodeView w = .empty ∨ (∃ sym, nodeView w = .leaf sym ∧ sym.toNat ≤ 0x100) ∨
      ∃ z o, nodeView w = .internal z o ∧ z.toNat ≤ 512 ∧ o.toNat ≤ 512 := by
  unfold nodeWordLegal at h
  unfold nodeView
  split at h
  · exact .inl (by simp)
  · simp only [Bool.and_eq_true, symInRange_iff] at h
    exact .inr (.inl ⟨_, rfl, h.2⟩)
  · simp only [Bool.and_eq_true, idxInRange_iff] at h
    exact .inr (.inr ⟨_, _, rfl, h.1.2, h.2⟩)
  · cases h

/-- An EMPTY word is legal (R101). -/
theorem emptyNode_legal : nodeWordLegal emptyNode = true := by unfold emptyNode; decide

/-- Under the invariant every node word is legal, the absent ones among them (R37). -/
theorem nodeWord_legal {s : State} (h : StateInv s) (idx : NodeIdx) : nodeWordLegal (nodeWord s idx) = true := by
  unfold nodeWord
  rcases tableRead_mem emptyNode s.node idx.toNat with h' | h'
  · generalize tableRead emptyNode s.node idx.toNat = w at *
    rw [h']
    exact emptyNode_legal
  · have := h.nodesLegal _ h'
    dsimp only at this
    exact this

/-- Under the legality of CT an entry is absent or has 1 to 64 bits (R36). -/
theorem codeAt_absent_or_legal {s : State} (h : ∀ c ∈ s.ct, entryLegal c.2 = true) (sym : Symbol) :
    (codeAt s sym).len = 0#7 ∨ (0 < (codeAt s sym).len.toNat ∧ (codeAt s sym).len.toNat ≤ 64) := by
  unfold codeAt
  rcases tableRead_mem absentEntry s.ct sym.toNat with h' | h'
  · rw [h']
    exact .inl rfl
  · have := h _ h'
    simp only [entryLegal, Bool.and_eq_true, decide_eq_true_eq, lenInRange_iff] at this
    exact .inr this.1

/-! ### Runs -/

/-- A run takes the engine's step while nothing is to come (R11). -/
theorem engineRun_succ (n : Nat) (s t : State) (hp : s.pending = []) (h : engineStep s = .next t) :
    engineRun (n + 1) s = engineRun n t := by
  rw [engineRun, step_of_no_event hp, h]

/-- A run in two parts. -/
theorem engineRun_add (m n : Nat) : ∀ s t : State, engineRun m s = .next t → engineRun (m + n) s = engineRun n t := by
  induction m with
  | zero => intro s t h; rw [engineRun] at h; cases h; simp
  | succ m ih =>
    intro s t h
    rw [Nat.add_right_comm, engineRun]
    rw [engineRun] at h
    cases hs : step s with
    | next u => rw [hs] at h; exact ih u t h
    | fault r => rw [hs] at h; cases h
    | refused r => rw [hs] at h; cases h

/-- A run of the engine takes bytes only from the head of INQ. -/
theorem engineRun_takesInput (n : Nat) : ∀ s t : State, s.pending = [] → engineRun n s = .next t → TakesInput s t := by
  induction n with
  | zero => intro s t _ h; rw [engineRun] at h; cases h; exact TakesInput.refl s
  | succ n ih =>
    intro s t hp h
    rw [engineRun, step_of_no_event hp] at h
    cases he : engineStep s with
    | next u =>
      rw [he] at h
      have k := engineStep_takesInput he
      have k' := ih u t (k.2.trans hp) h
      exact ⟨k'.1.trans k.1, k'.2.trans k.2⟩
    | fault r => rw [he] at h; cases h
    | refused r => rw [he] at h; cases h

end Sys2Proof.Machine
end

