-- ==== Sys2Proof/Laws/HostReference.lean ====
section
/-! SUPPORT. The small laws of frequency maps, of code trees and of the builder's queue (spec/44_host_reference.md R282-R286). -/

namespace Sys2Proof.Machine

/-- FrequencyCount gives a frequency map (R281). -/
theorem frequencyCount_isFrequencyMap (m : List Byte) : IsFrequencyMap (frequencyCount m) := by
  have hsub : List.Sublist ((frequencyCount m).map (fun c => c.1.toNat)) (List.range 256 ++ [256]) := by
    unfold frequencyCount
    rw [List.map_append, List.map_filterMap]
    refine List.Sublist.append ?_ (List.Sublist.refl _)
    have hlt : ∀ b ∈ List.range 256, b < 256 := fun b h => by simpa using h
    generalize List.range 256 = l at hlt
    induction l with
    | nil => exact List.Sublist.refl _
    | cons b l ih =>
      have ih := ih fun x hx => hlt x (List.mem_cons_of_mem _ hx)
      have hb : (BitVec.ofNat 9 b).toNat = b := by
        have := hlt b (List.mem_cons_self ..)
        simp
        omega
      by_cases h0 : m.count (BitVec.ofNat 8 b) = 0
      · rw [List.filterMap_cons_none (by simp only [h0, if_true, Option.map_none])]
        exact ih.cons _
      · rw [List.filterMap_cons_some (by simp only [if_neg h0, Option.map_some, hb]; rfl)]
        exact ih.cons_cons _
  exact List.Pairwise.sublist hsub (by rw [← List.range_succ]; exact List.pairwise_lt_range)

@[simp] theorem CodeTree.weight_leaf (sym : Symbol) (w : Nat) : (CodeTree.leaf sym w).weight = w := rfl

@[simp] theorem CodeTree.weight_node (w : Nat) (a b : CodeTree) : (CodeTree.node w a b).weight = w := rfl

@[simp] theorem CodeTree.weight_merge (a b : CodeTree) : (a.merge b).weight = a.weight + b.weight := rfl

@[simp] theorem CodeTree.symbols_leaf (sym : Symbol) (w : Nat) : (CodeTree.leaf sym w).symbols = [sym] := rfl

/-- The symbols of a node are those of its zero child and then those of its one child. -/
@[simp] theorem CodeTree.symbols_node (w : Nat) (a b : CodeTree) : (CodeTree.node w a b).symbols = a.symbols ++ b.symbols := by
  simp only [CodeTree.symbols, CodeTree.paths, List.map_append, List.map_map]
  rfl

/-- The symbols of a tree are those of its weighted leaves. -/
theorem CodeTree.leafWeights_map_fst (t : CodeTree) : t.leafWeights.map Prod.fst = t.symbols := by
  induction t with
  | leaf sym w => rfl
  | node w a b iha ihb => simp [CodeTree.leafWeights, iha, ihb]

/-- There is one code for each symbol (R286). -/
theorem CodeTree.codes_map_fst (t : CodeTree) : t.codes.map Prod.fst = t.symbols := by
  cases t <;> rfl

/-- A tree of L leaves has 2L - 1 nodes (R282, R289). -/
theorem CodeTree.size_add_one (t : CodeTree) : t.size + 1 = 2 * t.symbols.length := by
  induction t with
  | leaf sym w => rfl
  | node w a b iha ihb => simp [CodeTree.size]; omega

/-- A merge keeps the sums of the weights, if they held below it (R285). -/
theorem CodeTree.merge_weightsAddUp {a b : CodeTree} (ha : a.weightsAddUp) (hb : b.weightsAddUp) : (a.merge b).weightsAddUp :=
  ⟨rfl, ha, hb⟩

/-- Insertion adds its tree to the queue and nothing else (R282). -/
theorem queueInsert_perm (x : Queued) (q : List Queued) : (queueInsert x q).Perm (x :: q) := by
  induction q with
  | nil => exact List.Perm.refl _
  | cons y q ih =>
    simp only [queueInsert]
    split
    · exact List.Perm.refl _
    · exact (List.Perm.cons _ ih).trans (List.Perm.swap _ _ _)

end Sys2Proof.Machine
end

