-- ==== Sys2Proof/Laws/PerInstr.lean ====
section
/-! SUPPORT. The statements made per instruction. Family OpcodeRow: the word of every command selects the command's own row of the opcode
map (spec/30_encoding.md R94), whatever its operands. -/

namespace Sys2Proof.Laws.OpcodeRow

/-- The command's word selects its row (R94). -/
def Statement (i : Instr) : Prop := i.row.selects (encode i) = true

theorem nop : Statement .nop := rfl

theorem clear : Statement .clear := rfl

theorem ldcode (sym : Symbol) (len : BitVec 7) : Statement (.ldcode sym len) := by
  simp only [Statement, Instr.row, OpcodeRow.selects, encode, beq_iff_eq]
  apply BitVec.eq_of_getLsbD_eq
  intro i hi
  have hs : 9 ≤ i → sym.getLsbD i = false := fun h => BitVec.getLsbD_of_ge _ _ h
  have hl : 23 ≤ i → len.getLsbD (i - 16) = false := fun h => BitVec.getLsbD_of_ge _ _ (by omega)
  simp only [BitVec.getLsbD_and, BitVec.getLsbD_or, BitVec.getLsbD_shiftLeft, BitVec.getLsbD_setWidth]
  interval_cases i <;> simp_all

theorem rdcode (sym : Symbol) : Statement (.rdcode sym) := by
  simp only [Statement, Instr.row, OpcodeRow.selects, encode, beq_iff_eq]
  apply BitVec.eq_of_getLsbD_eq
  intro i hi
  have hs : 9 ≤ i → sym.getLsbD i = false := fun h => BitVec.getLsbD_of_ge _ _ h
  simp only [BitVec.getLsbD_and, BitVec.getLsbD_or, BitVec.getLsbD_setWidth]
  interval_cases i <;> simp_all

/-- The shape of the three commands of format I. -/
theorem formatI (op : Word) (idx : NodeIdx) (h : op &&& 0xFFFFFC00#32 = op) :
    (op ||| idx.setWidth 32) &&& 0xFFFFFC00#32 = op := by
  apply BitVec.eq_of_getLsbD_eq
  intro i hi
  have ho := congrArg (fun v => v.getLsbD i) h
  have hx : 10 ≤ i → idx.getLsbD i = false := fun h => BitVec.getLsbD_of_ge _ _ h
  simp only [BitVec.getLsbD_and, BitVec.getLsbD_or, BitVec.getLsbD_setWidth] at ho ⊢
  interval_cases i <;> simp_all

theorem ldnode (idx : NodeIdx) : Statement (.ldnode idx) := by
  simpa [Statement, Instr.row, OpcodeRow.selects, encode] using formatI 0x40000000#32 idx (by decide)

theorem rdnode (idx : NodeIdx) : Statement (.rdnode idx) := by
  simpa [Statement, Instr.row, OpcodeRow.selects, encode] using formatI 0x50000000#32 idx (by decide)

theorem setroot (idx : NodeIdx) : Statement (.setroot idx) := by
  simpa [Statement, Instr.row, OpcodeRow.selects, encode] using formatI 0x60000000#32 idx (by decide)

theorem encode : Statement .encode := rfl

theorem decode : Statement .decode := rfl

theorem abort : Statement .abort := rfl

end Sys2Proof.Laws.OpcodeRow
end

