-- ==== Sys2Proof/Machine/HostDriver.lean ====
section
/-! DEFINITION. The host's file drivers (spec/44_host_reference.md R302, R303) over the machine's own steps, without the header, whose form
is open (R6, R301). They are host software: no state and no step of the block (R20; log entry 14). -/

namespace Sys2Proof.Machine

/-- A host that drives the block: the block, the accesses made so far, and the variables of the loop of R302 and R303. -/
structure Driver where
  block : State
  made  : Nat
  todo  : List Byte
  ended : Bool
  got   : List Byte
  deriving DecidableEq, Repr

/-- One access of the host, after as many turns of the engine as `turns` says of it (R7); the word is what a read returned. -/
def Driver.access (turns : Nat → Nat) (a : Access) (d : Driver) : Option (Word × Driver) :=
  let coming := List.replicate (turns d.made) Event.engine ++ [Event.host a]
  match engineRun coming.length { d.block with pending := coming } with
  | .next t => some (t.replies.getLastD 0#32, { d with block := t, made := d.made + 1 })
  | .fault _ => none
  | .refused _ => none

/-- The accesses of a script, one after the other. -/
def Driver.script (turns : Nat → Nat) : List Access → Driver → Option Driver
  | [], d => some d
  | a :: rest, d =>
    match d.access turns a with
    | some (_, t) => t.script turns rest
    | none => none

/-- `wait`: read STATUS until BUSY is 0 (R123); `fuel` bounds the reads. -/
def Driver.wait (turns : Nat → Nat) : Nat → Driver → Option Driver
  | 0, _ => none
  | fuel + 1, d =>
    match d.access turns (rd .status) with
    | some (st, t) => if st.getLsbD 0 then t.wait turns fuel else some t
    | none => none

/-- `r <- rd OUT_DATA; if r[31] = 1 then append r[7:0]`, with whether there was a byte (R302). -/
def Driver.pop (turns : Nat → Nat) (d : Driver) : Option (Bool × Driver) :=
  match d.access turns (rd .outData) with
  | some (r, t) => some (r.getLsbD 31, if r.getLsbD 31 then { t with got := t.got ++ [r.extractLsb' 0 8] } else t)
  | none => none

/-- The push, or the end mark, of one round of the loop, given the STATUS word just read (R302). -/
def Driver.feed (turns : Nat → Nat) (st : Word) (d : Driver) : Option Driver :=
  match d.todo with
  | b :: rest =>
    if st.getLsbD 7 then some d else ({ d with todo := rest } : Driver).script turns (pushScript b)
  | [] => if d.ended then some d else ({ d with ended := true } : Driver).script turns endScript

/-- The loop of R302 and R303: until STATUS shows BUSY = 0, push or end, then pop. -/
def Driver.loop (turns : Nat → Nat) : Nat → Driver → Option Driver
  | 0, _ => none
  | fuel + 1, d =>
    match d.access turns (rd .status) with
    | none => none
    | some (st, t) =>
      if !st.getLsbD 0 then some t
      else
        match t.feed turns st with
        | none => none
        | some u =>
          match u.pop turns with
          | some (_, v) => v.loop turns fuel
          | none => none

/-- The drain of OUTQ after the job (R302). -/
def Driver.drain (turns : Nat → Nat) : Nat → Driver → Option Driver
  | 0, _ => none
  | fuel + 1, d =>
    match d.pop turns with
    | some (true, t) => t.drain turns fuel
    | some (false, t) => some t
    | none => none

/-- A whole job: CLEAR, wait, the setup, the command, the loop, the drain (R302, R303). -/
def Driver.job (turns : Nat → Nat) (fuel : Nat) (setup : List Access) (start : Instr) (d : Driver) : Option Driver := do
  let d ← d.script turns [command .clear]
  let d ← d.wait turns fuel
  let d ← d.script turns (setup ++ [command start])
  let d ← d.loop turns fuel
  d.drain turns fuel

/-- CTRL.MSBF for a job (R302). -/
def msbfScript (m : Bool) : List Access := [wr .ctrl (if m then 1#32 else 0#32)]

/-- Why a driver ends without its result. -/
inductive HostFailure where
  /-- BuildTree of an empty frequency map (R284). -/
  | buildPrecondition
  /-- A code of more than 64 bits, for which a host must not use HUFC (R288). -/
  | codeTooLong
  /-- An encode job without DONE; ERRCODE says why (R302). -/
  | jobFailed (errcode : BitVec 4)
  /-- TruncatedStream, a decode job that ended with TRUNCATED (R303). -/
  | truncatedStream
  /-- No failure of the spec's: the bound given to the driver's loops was too small, or the block stopped (log entry 14). -/
  | unfinished
  deriving DecidableEq, Repr

/-- A driver's result, or the reason why there is none. -/
abbrev HostResult (α : Type) := Except HostFailure α

/-- The value, or the named failure for want of one. -/
def orFail {α : Type} (why : HostFailure) : Option α → HostResult α
  | some a => .ok a
  | none => .error why

/-- A driver at the start of a job on some input. -/
def Driver.start (s : State) (input : List Byte) : Driver := { block := s, made := 0, todo := input, ended := false, got := [] }

/-- The codes of a tree, each one that CT can hold (R286, R288). -/
def loadableCodes (tree : CodeTree) : HostResult (List (Symbol × List Bool)) :=
  if tree.codes.all (fun c => decide (c.2.length ≤ Config.maxCodeLen)) then .ok tree.codes else .error .codeTooLong

/-- `require rd STATUS has DONE = 1`, on the STATUS word read (R302). -/
def requireDone (st : Word) : HostResult Unit :=
  if st.getLsbD 1 then .ok () else .error (.jobFailed (st.extractLsb' 12 4))

/-- `if STATUS.ERR = 1 and ERRCODE = TRUNCATED then fail TruncatedStream`, on the STATUS word read (R303). -/
def failIfTruncated (st : Word) : HostResult Unit :=
  if st.getLsbD 2 && decide (st.extractLsb' 12 4 = errBits .truncated) then .error .truncatedStream else .ok ()

/-- Compress(M, m): the frequency map, in the place of the header whose syntax is open, the payload bytes, and BITCNT (R301, R302). -/
def compress (turns : Nat → Nat) (fuel : Nat) (input : List Byte) (m : Bool) (s : State) :
    HostResult (List (Symbol × Nat) × List Byte × Word) := do
  let freq := frequencyCount input
  let tree ← orFail .buildPrecondition (buildTree freq)
  let codes ← loadableCodes tree
  let d ← orFail .unfinished (Driver.job turns fuel (msbfScript m ++ tableScript codes) .encode (Driver.start s input))
  let (st, d) ← orFail .unfinished (d.access turns (rd .status))
  requireDone st
  let (n, d) ← orFail .unfinished (d.access turns (rd .bitcnt))
  return (freq, d.got, n)

/-- Decompress(header ++ Y, m) from the frequency map that Parse, host software, reads in the header: the tree is built of it, the job run,
and the bytes returned unless the stream was truncated (R303). Parse and the order of the header's fields are open; DESIGN CHOICE (log entry
17): what Parse gives is `IsFrequencyMap`, ascending symbols with none twice, which the function takes as given and does not check. -/
def decompress (turns : Nat → Nat) (fuel : Nat) (freq : List (Symbol × Nat)) (payload : List Byte) (m : Bool) (s : State) :
    HostResult (List Byte) := do
  let tree ← orFail .buildPrecondition (buildTree freq)
  let d ← orFail .unfinished (Driver.job turns fuel (msbfScript m ++ treeScript tree) .decode (Driver.start s payload))
  let (st, d) ← orFail .unfinished (d.access turns (rd .status))
  failIfTruncated st
  return d.got

end Sys2Proof.Machine
end

