-- ==== Sys2Proof/Tests/Slice0.lean ====
section
/-! SUPPORT. The model's own tests: what WellFormed refuses, words written out from the encodings, single steps with the values of
spec/95_test_vectors.md, and for each statement with hypotheses a state that meets them. -/

namespace Sys2Proof.Tests
open Sys2Proof.Machine

/-! ### WellFormed refuses each ill-formed operand (R93) -/

theorem test_wf_ldcode_symbol : (Instr.ldcode 0x101#9 1#7).wellFormed = false := by decide

theorem test_wf_ldcode_length : (Instr.ldcode 0x061#9 65#7).wellFormed = false := by decide

theorem test_wf_rdcode_symbol : (Instr.rdcode 0x101#9).wellFormed = false := by decide

theorem test_wf_ldnode_index : (Instr.ldnode 513#10).wellFormed = false := by decide

theorem test_wf_rdnode_index : (Instr.rdnode 513#10).wellFormed = false := by decide

theorem test_wf_setroot_index : (Instr.setroot 513#10).wellFormed = false := by decide

/-! ### Words written out bit by bit from R91, OP first -/

/-- OP 0000, 28 zeros (CV1). -/
theorem test_decode_nop : decodeCmd 0b0000_0000000000000000000000000000#32 = .ok .nop := rfl

/-- OP 0001, 28 zeros. -/
theorem test_decode_clear : decodeCmd 0b0001_0000000000000000000000000000#32 = .ok .clear := rfl

/-- OP 0010, 5 zeros, LEN 1000000, 7 zeros, SYM 001100001 (CV3). -/
theorem test_decode_ldcode : decodeCmd 0b0010_00000_1000000_0000000_001100001#32 = .ok (.ldcode 0x061#9 64#7) := rfl

/-- OP 0011, 19 zeros, SYM 100000000 (CV8). -/
theorem test_decode_rdcode : decodeCmd 0b0011_0000000000000000000_100000000#32 = .ok (.rdcode 0x100#9) := rfl

/-- OP 0100, 18 zeros, IDX 1000000000 (CV10). -/
theorem test_decode_ldnode : decodeCmd 0b0100_000000000000000000_1000000000#32 = .ok (.ldnode 512#10) := rfl

/-- OP 0101, 18 zeros, IDX 0000001001. -/
theorem test_decode_rdnode : decodeCmd 0b0101_000000000000000000_0000001001#32 = .ok (.rdnode 9#10) := rfl

/-- OP 0110, 18 zeros, IDX 1000000000 (CV13). -/
theorem test_decode_setroot : decodeCmd 0b0110_000000000000000000_1000000000#32 = .ok (.setroot 512#10) := rfl

/-- OP 0111, 28 zeros. -/
theorem test_decode_encode : decodeCmd 0b0111_0000000000000000000000000000#32 = .ok .encode := rfl

/-- OP 1000, 28 zeros. -/
theorem test_decode_decode : decodeCmd 0b1000_0000000000000000000000000000#32 = .ok .decode := rfl

/-- OP 1001, 28 zeros (CV17). -/
theorem test_decode_abort : decodeCmd 0b1001_0000000000000000000000000000#32 = .ok .abort := rfl

/-- The refusals of CV2, CV4-CV7, CV9, CV11, CV12, CV14-CV16 and XV5, each for the first check that fails. -/
theorem test_decode_refuses :
    [0x00000001#32, 0x20410061#32, 0x20800061#32, 0x20010200#32, 0x20010101#32, 0x30000101#32, 0x40000201#32, 0x40000400#32,
      0x70000001#32, 0xA0000000#32, 0xFFFFFFFF#32, 0x20410200#32].map (fun w =>
        match decodeCmd w with
        | .ok _ => none
        | .error r => some r) =
      [some .reservedBit, some .lenRange, some .reservedBit, some .reservedBit, some .symRange, some .symRange, some .idxRange,
        some .reservedBit, some .reservedBit, some .reservedOpcode, some .reservedOpcode, some .reservedBit] := by decide

/-- The byte at the lowest offset is bits 7:0 (R62). -/
theorem test_bytes_little_endian : wordBytes 0x20030063#32 = [0x63#8, 0x00#8, 0x03#8, 0x20#8] := by decide

/-- A list shorter than a word is refused by name. -/
theorem test_bytes_too_short : decodeBytes [0x63#8, 0x00#8, 0x03#8] = .error .tooShort := rfl

theorem test_table_word : decodeTableWord 32 0x20030063 = some (.ldcode 0x063#9 3#7) := by decide

/-! ### Small states -/

/-- The state an answer gives, if it gives one. -/
def after (r : Result) : Option State :=
  match r with
  | .next t => some t
  | .fault _ => none
  | .refused _ => none

/-- The state with one event to come. -/
def sees (e : Event) (s : State) : State := { s with pending := [e] }

/-- The reset state with one host access to come. -/
def accessed (a : Access) : State := sees (.host a) State.reset

/-- A two-leaf tree in NODE, 'a' on 0 and PSEUDO_EOF on 1 (the node words of HV3). -/
def twoLeafNodes : List (Nat × Word) := [(0, 0x80000801#32), (1, 0x40000061#32), (2, 0x40000100#32)]

/-- Its codes in CT. -/
def twoLeafCodes : List (Nat × CodeEntry) := [(0x61, ⟨1#7, 0#64⟩), (0x100, ⟨1#7, 1#64⟩)]

/-- That tree as a value. -/
def twoLeafTree : CodeTree := .node 2 (.leaf 0x061#9 1) (.leaf 0x100#9 1)

/-- A decode job at the start of the byte 0x02, whose first bits are 0 and 1, with the end marked. -/
def decodes : State := { State.reset with node := twoLeafNodes, inq := [0x02#8], iend := true, phase := .decWalk }

/-- That job after its first symbol: the next bit is the PSEUDO_EOF code. -/
def decodesLast : State :=
  { decodes with inq := [], iacc := 0x02#8, icnt := 7#4, bitsin := 1#32, outq := [0x61#8] }

/-- An encode job at its start, with the input "a" and the end marked. -/
def encodes : State := { State.reset with ct := twoLeafCodes, inq := [0x61#8], iend := true, phase := .encFetch }

/-- That job with the code of 'a' current. -/
def emits : State := { encodes with inq := [], curLen := 1#7, phase := .encEmit }

/-- That job at its padding, two bits packed. -/
def pads : State := { encodes with inq := [], oacc := 0x02#8, ocnt := 2#3, bitcnt := 2#32, phase := .encPad }

/-- Sixteen bytes. -/
def sixteen : List Byte := List.replicate 16 0x61#8

/-- A decode job on a root that is a leaf. -/
def decodesLeaf (sym : Symbol) (b : Byte) : State :=
  { State.reset with node := [(0, leafWord sym)], inq := [b], phase := .decWalk }

/-! ### Single steps with the values of spec/95_test_vectors.md -/

/-- TV20's STATUS, for NOP. -/
theorem test_nop_completes : (after (step (accessed (wr .cmd 0x00000000#32)))).map statusWord = some 0x00000142#32 := by decide

/-- TV21: CLEAR empties INQ and CT, and completes. -/
theorem test_clear_empties :
    (after (step (sees (.host (wr .cmd 0x10000000#32)) { State.reset with inq := [1#8, 2#8, 3#8], ct := twoLeafCodes }))).map
      (fun t => (statusWord t, (codeAt t 0x061#9).len)) = some (0x00000142#32, 0#7) := by decide

/-- TV1: `code 'c', "110"`. -/
theorem test_ldcode_stores :
    (after (step (sees (.host (wr .cmd 0x20030063#32)) { State.reset with arg0 := 6#32 }))).map
      (fun t => (codeAt t 0x063#9, t.done)) = some (⟨3#7, 6#64⟩, true) := by decide

/-- TV5: the code 4 does not fit in two bits. -/
theorem test_ldcode_bad_arg :
    (after (step (sees (.host (wr .cmd 0x20020062#32)) { State.reset with arg0 := 4#32 }))).map
      (fun t => (statusWord t, t.errinfo, (codeAt t 0x062#9).len)) = some (0x00006144#32, 0x062#10, 0#7) := by decide

/-- TV7: the entry of 64 ones reads back in both halves. -/
theorem test_rdcode_reads :
    (after (step (sees (.host (wr .cmd 0x30000000#32)) { State.reset with ct := [(0, ⟨64#7, 0xFFFFFFFFFFFFFFFF#64⟩)] }))).map
      (fun t => (t.arg0, t.arg1, t.arg2)) = some (0xFFFFFFFF#32, 0xFFFFFFFF#32, 0x40#32) := by decide

/-- TV4: an absent entry is no error. -/
theorem test_rdcode_absent :
    (after (step (sees (.host (wr .cmd 0x30000041#32)) { State.reset with arg0 := 7#32, arg1 := 8#32, arg2 := 9#32 }))).map
      (fun t => (t.arg0, t.arg1, t.arg2, t.done)) = some (0#32, 0#32, 0#32, true) := by decide

/-- TV14: ZERO 0, ONE 512. -/
theorem test_ldnode_stores :
    (after (step (sees (.host (wr .cmd 0x40000003#32)) { State.reset with arg0 := 0x80080000#32 }))).map
      (fun t => (nodeWord t 3#10, t.done)) = some (0x80080000#32, true) := by decide

/-- CV18: the range check comes before the check of the word. -/
theorem test_ldnode_range_first :
    (after (step (sees (.host (wr .cmd 0x40000201#32)) { State.reset with arg0 := 0xC0000000#32 }))).map
      (fun t => (t.errcode, t.errinfo)) = some (.badCmd, 0#10) := by decide

/-- The node words of TV10-TV13 and TV15-TV17 are refused. -/
theorem test_illegal_node_words :
    [0xC0000000#32, 0x00000001#32, 0x40000101#32, 0x40000200#32, 0x80080400#32, 0x80100000#32, 0x80000201#32].all
      (fun w => !nodeWordLegal w) = true := by decide

/-- TV18: an EMPTY node reads 0. -/
theorem test_rdnode_empty :
    (after (step (sees (.host (wr .cmd 0x50000009#32)) { State.reset with arg0 := 0x12345678#32 }))).map
      (fun t => (t.arg0, t.done)) = some (0#32, true) := by decide

/-- TV19. -/
theorem test_setroot : (after (step (accessed (wr .cmd 0x60000200#32)))).map (fun t => t.root) = some 0x200#10 := by decide

/-- EV14: the STATUS of a job just started. -/
theorem test_encode_starts : (after (step (accessed (wr .cmd 0x70000000#32)))).map statusWord = some 0x00000541#32 := by decide

/-- DV16: the STATUS of a job just started. -/
theorem test_decode_starts :
    (after (step (sees (.host (wr .cmd 0x80000000#32)) { State.reset with node := twoLeafNodes }))).map statusWord
      = some 0x00000941#32 := by decide

/-- DV5: an EMPTY root, with INEND written before. -/
theorem test_decode_empty_root :
    (after (step (sees (.host (wr .cmd 0x80000000#32)) { State.reset with iend := true }))).map statusWord
      = some 0x00003164#32 := by decide

/-- XV2: an encode job held on an empty INQ, CMDOVR set. -/
theorem test_abort_busy :
    (after (step (sees (.host (wr .cmd 0x90000000#32)) { State.reset with phase := .encFetch, cmdovr := true }))).map statusWord
      = some 0x0000714C#32 := by decide

/-- XV4: a malformed ABORT is dropped while a job runs. -/
theorem test_abort_malformed :
    (after (step (sees (.host (wr .cmd 0x90000001#32)) { State.reset with phase := .encFetch }))).map (fun t => (busy t, t.cmdovr, t.err))
      = some (true, true, false) := by decide

/-- EV6 and EV7: the eighth bit of "aaab" completes the byte E8, or 17 with MSB-first order. -/
theorem test_encode_last_bit :
    (after (step { emits with curBits := 7#64, curLen := 3#7, curPos := 2#7, oacc := 0x68#8, ocnt := 7#3 })).map (fun t => t.outq)
      = some [0xE8#8] ∧
    (after (step { emits with curBits := 7#64, curLen := 3#7, curPos := 2#7, oacc := 0x16#8, ocnt := 7#3, msbfL := true })).map
      (fun t => t.outq) = some [0x17#8] := by decide

/-- DV8: bit 1 at a root that is a leaf is BAD_CODE, the bit counted. -/
theorem test_decode_bad_code :
    (after (step (decodesLeaf 0x100#9 0x01#8))).map (fun t => (t.errcode, t.errinfo, t.bitsin)) = some (.badCode, 0#10, 1#32) := by decide

/-- HA7 and HA15: W1C clears INOVR; in the reset state a write of all ones changes nothing. -/
theorem test_status_write :
    (after (step (sees (.host (wr .status 0x10#32)) { State.reset with inq := sixteen, inovr := true }))).map statusWord
      = some 0x00100180#32 ∧
    (after (step (accessed (wr .status 0xFFFFFFFF#32)))).map statusWord = some 0x00000140#32 := by decide

/-- HV1 and HV2: the codes and node words of the reference procedure. -/
theorem test_reference_codes :
    (buildTree (frequencyCount [0x61#8, 0x61#8])).map (fun t => (t.codes, (t.words 0).map Prod.snd))
      = some ([(0x100#9, [false]), (0x061#9, [true])], [0x80000801#32, 0x40000100#32, 0x40000061#32]) := by decide

/-- HA1, read by a host after two turns of the engine. -/
theorem test_driver_reads_id :
    (Driver.access (fun _ => 2) (rd .id) (Driver.start State.reset [])).map
      (fun r => (r.1, r.2.made)) = some (0x48554601#32, 1) := by decide

/-- HV6: the diagnostic text of "aaabbc". -/
theorem test_diagnostic :
    diagnosticBits false 13 [0xA8#8, 0x1D#8] = diagnosticBits true 13 [0x15#8, 0xB8#8] ∧
    diagnosticBits false 13 [0xA8#8, 0x1D#8] =
      [false, false, false, true, false, true, false, true, true, false, true, true, true].map some := by decide

/-- R296: the weights of the tree of "aaabbc". -/
theorem test_tree_weights :
    buildTree (frequencyCount [0x61#8, 0x61#8, 0x61#8, 0x62#8, 0x62#8, 0x63#8]) =
      some (.node 7 (.leaf 0x061#9 3) (.node 4 (.leaf 0x062#9 2) (.node 2 (.leaf 0x063#9 1) (.leaf 0x100#9 1)))) := by decide

/-- R284 and R303: no tree of an empty map; a STATUS word with ERR and TRUNCATED fails, one with ERR and BAD_NODE does not. -/
theorem test_driver_failures :
    decompress (fun _ => 0) 0 [] [0x00#8] false State.reset = .error .buildPrecondition ∧
    failIfTruncated 0x00002144#32 = .error .truncatedStream ∧ failIfTruncated 0x00003144#32 = .ok () := ⟨rfl, rfl, rfl⟩

/-! ### For each statement with hypotheses, states that meet them all; one for each clause, at the ends of the ranges -/

/-- The invariant by its clauses, each decided. -/
theorem inv_of_decided (s : State)
    (h : (Memory.wf s && s.ct.all (fun c => entryLegal c.2) && s.node.all (fun c => nodeWordLegal c.2)
      && decide (s.inq.length ≤ Config.inqDepth) && decide (s.outq.length ≤ Config.outqDepth) && decide (s.icnt.toNat ≤ 8)
      && decide (s.root.toNat < Config.nodeCount) && decide (s.ptr.toNat < Config.nodeCount)
      && decide (s.curPos.toNat ≤ s.curLen.toNat ∧ s.curLen.toNat ≤ Config.maxCodeLen)
      && decide (s.phase = .encEmit → s.curPos.toNat < s.curLen.toNat)
      && decide (s.phase = .decWalk →
          isInternal (nodeWord s s.ptr) = true ∨ (s.ptr = s.root ∧ isLeaf (nodeWord s s.root) = true))
      && decide (s.phase = .decWalk → isInternal (nodeWord s s.root) = true ∨ isLeaf (nodeWord s s.root) = true)
      && decide (¬(s.done = true ∧ s.err = true)) && decide (s.err = false ↔ s.errcode = .none)
      && decide (busy s = true → s.done = false ∧ s.err = false)) = true) : StateInv s := by
  simp only [Bool.and_eq_true, decide_eq_true_eq, List.all_eq_true] at h
  obtain ⟨⟨⟨⟨⟨⟨⟨⟨⟨⟨⟨⟨⟨⟨a, b⟩, c⟩, d⟩, e⟩, f⟩, g⟩, h⟩, i⟩, j⟩, k⟩, l⟩, m⟩, n⟩, o⟩ := h
  exact ⟨a, b, c, d, e, f, g, h, i, j, k, l, m, n, o⟩

theorem inv_decodes : StateInv decodes := inv_of_decided _ (by decide)

theorem inv_decodesLast : StateInv decodesLast := inv_of_decided _ (by decide)

theorem inv_encodes : StateInv encodes := inv_of_decided _ (by decide)

theorem inv_emits : StateInv emits := inv_of_decided _ (by decide)

theorem inv_pads : StateInv pads := inv_of_decided _ (by decide)

/-- A state with nothing to come awaits no reset. -/
theorem no_reset_of_nil {s : State} (h : s.pending = []) : ∀ rest, s.pending ≠ .reset :: rest := by simp [h]

theorem witness_ResetEventRestoresEveryResetValue : (sees .reset decodesLast).pending = .reset :: [] := rfl

theorem witness_EveryStepGoesOnAndKeepsTheInvariant : StateInv decodes ∧ StateInv emits ∧ StateInv pads :=
  ⟨inv_decodes, inv_emits, inv_pads⟩

theorem witness_TablesStayFixedWhileAJobRuns :
    busy decodes = true ∧ (∀ rest, decodes.pending ≠ .reset :: rest) ∧ ∃ t, step decodes = .next t :=
  ⟨rfl, no_reset_of_nil rfl, _, rfl⟩

/-- One job that ends well, one that ends with ABORTED. -/
theorem witness_AJobEndsWithExactlyOneOutcome :
    (StateInv decodesLast ∧ busy decodesLast = true ∧ (∀ rest, decodesLast.pending ≠ .reset :: rest) ∧
      ∃ t, step decodesLast = .next t ∧ busy t = false ∧ t.done = true) ∧
    (StateInv (sees (.host (wr .cmd 0x90000000#32)) encodes) ∧ busy (sees (.host (wr .cmd 0x90000000#32)) encodes) = true ∧
      (∀ rest, (sees (.host (wr .cmd 0x90000000#32)) encodes).pending ≠ .reset :: rest) ∧
      ∃ t, step (sees (.host (wr .cmd 0x90000000#32)) encodes) = .next t ∧ busy t = false ∧ t.err = true) :=
  ⟨⟨inv_decodesLast, rfl, no_reset_of_nil rfl, _, rfl, rfl, rfl⟩,
    inv_of_decided _ (by decide), rfl, by simp [sees], _, rfl, rfl, rfl⟩

theorem witness_DecodeOfEncodeIsTheCommand :
    (Instr.ldcode 0x100#9 64#7).wellFormed = true ∧ (Instr.ldnode 512#10).wellFormed = true := by decide

theorem witness_ADecodedWordIsTheCommandsWord : decodeCmd 0x20400100#32 = .ok (.ldcode 0x100#9 64#7) := rfl

/-- Each way a word can be refused, at the first value past its range. -/
theorem witness_OutOfRangeWordsFailWithBadCmd :
    busy State.reset = false ∧
    (∀ r ∈ opcodeMap, r.selects 0xA0000000#32 = false) ∧ (∀ r ∈ opcodeMap, r.selects 0x00000001#32 = false) ∧
    (opOf 0x20010101#32 = 2#4 ∧ 0x100 < (symOf 0x20010101#32).toNat) ∧
    (opOf 0x30000101#32 = 3#4 ∧ 0x100 < (symOf 0x30000101#32).toNat) ∧
    (opOf 0x20410061#32 = 2#4 ∧ 64 < (lenOf 0x20410061#32).toNat) ∧
    (opOf 0x40000201#32 = 4#4 ∧ 512 < (idxOf 0x40000201#32).toNat) ∧
    (accessed (wr .cmd 0x40000201#32)).pending = .host (wr .cmd 0x40000201#32) :: [] := by decide

theorem witness_StepRunsTheDecodedCommand :
    (decodeCmd 0x60000200#32 = .ok (.setroot 512#10) ∧ busy (accessed (.write 0x0C#6 4 0x60000200#32)) = false ∧
      (accessed (.write 0x0C#6 4 0x60000200#32)).pending = .host (.write 0x0C#6 4 0x60000200#32) :: []) ∧
    (decodeCmd 0x90000000#32 = .ok .abort ∧ busy (sees (.host (.write 0x0C#6 4 0x90000000#32)) encodes) = true ∧
      (sees (.host (.write 0x0C#6 4 0x90000000#32)) encodes).pending = .host (.write 0x0C#6 4 0x90000000#32) :: []) ∧
    encodes.pending = [] ∧ (sees .engine encodes).pending = .engine :: [] := ⟨⟨rfl, rfl, rfl⟩, ⟨rfl, rfl, rfl⟩, rfl, rfl⟩

theorem witness_CommandWhileBusyIsDropped :
    busy (sees (.host (wr .cmd 0x90000001#32)) encodes) = true ∧ (0x90000001#32 : Word) ≠ 0x90000000#32 ∧
      (sees (.host (wr .cmd 0x90000001#32)) encodes).pending = .host (wr .cmd 0x90000001#32) :: [] := by decide

theorem witness_AbortEndsARunningJob :
    busy (sees (.host (wr .cmd 0x90000000#32)) decodes) = true ∧
      (sees (.host (wr .cmd 0x90000000#32)) decodes).pending = .host (wr .cmd 0x90000000#32) :: [] := by decide

theorem witness_NopAndAbortComplete : State.reset.phase = .idle ∧ decodes.phase ≠ .idle := by decide

theorem witness_ClearIsResetButForControlAndArgs : busy { State.reset with inq := sixteen, ctrl := 7#3 } = false := by decide

/-- The longest code, all ones, at the last symbol; and the empty code. -/
theorem witness_LdcodeStoresTheStagedCode :
    (Memory.wf { encodes with arg0 := 0xFFFFFFFF#32, arg1 := 0xFFFFFFFF#32 } = true ∧ (0x100#9 : Symbol).toNat ≤ 0x100 ∧
      (64#7 : BitVec 7).toNat ≤ 64 ∧ ∀ i, (64#7 : BitVec 7).toNat ≤ i → (0xFFFFFFFF#32 ++ 0xFFFFFFFF#32).getLsbD i = false) ∧
    ∀ i, (0#7 : BitVec 7).toNat ≤ i → (0#32 ++ 0#32).getLsbD i = false :=
  ⟨⟨by decide, by decide, by decide, fun _ hi => BitVec.getLsbD_of_ge _ _ hi⟩, fun _ _ => by simp⟩

/-- The lowest bit past the length is 1; and the first operands out of range. -/
theorem witness_LdcodeRefusesABadCode :
    ((0x100#9 : Symbol).toNat ≤ 0x100 ∧ (1#7 : BitVec 7).toNat ≤ 64 ∧
      ∃ i, (1#7 : BitVec 7).toNat ≤ i ∧ (0#32 ++ 2#32 : BitVec 64).getLsbD i = true) ∧
    0x100 < (0x101#9 : Symbol).toNat ∧ 64 < (65#7 : BitVec 7).toNat :=
  ⟨⟨by decide, by decide, 1, by decide, by decide⟩, by decide, by decide⟩

theorem witness_RdcodeReportsTheEntry :
    (0x100#9 : Symbol).toNat ≤ 0x100 ∧ (codeAt State.reset 0x100#9).len = 0#7 ∧ (codeAt encodes 0x100#9).len ≠ 0#7 := by decide

theorem witness_LdnodeStoresTheNodeWord :
    Memory.wf { decodes with arg0 := 0x80080200#32 } = true ∧ (512#10 : NodeIdx).toNat ≤ 512 ∧ nodeWordLegal 0x80080200#32 = true := by
  decide

theorem witness_LdnodeRefusesABadWord :
    (512#10 : NodeIdx).toNat ≤ 512 ∧ nodeWordLegal 0x80080400#32 = false ∧ 512 < (513#10 : NodeIdx).toNat := by decide

/-- A word of each KIND that has a view, the last symbol and the last indices among them. -/
theorem witness_LegalNodeWordsAreTheThreeKinds :
    (0x00000000#32 : Word).extractLsb' 30 2 = 0b00#2 ∧ (0x40000100#32 : Word).extractLsb' 30 2 = 0b01#2 ∧
    (0x80080200#32 : Word).extractLsb' 30 2 = 0b10#2 := by decide

theorem witness_RdnodeAndSetrootComplete : (512#10 : NodeIdx).toNat ≤ 512 := by decide

/-- A root that is a leaf, an EMPTY root, each at the last index. -/
theorem witness_DecodeStartsAJobUnlessTheRootIsEmpty :
    (512#10 : NodeIdx).toNat ≤ 512 ∧
    nodeKind (nodeWord { State.reset with root := 512#10, node := [(512, 0x40000100#32)] } 512#10) ≠ 0#2 ∧
    nodeKind (nodeWord { State.reset with root := 512#10 } 512#10) = 0#2 := by decide

theorem witness_DecodeStopsOnARootThatIsNoNode : 512 < ({ State.reset with root := 513#10 } : State).root.toNat := by decide

theorem witness_OtherAccessesAreInert :
    (¬((0x0A#6).toNat % 4 = 0 ∧ 4 = 4) ∧ (accessed (.read 0x0A#6 4)).pending = .host (.read 0x0A#6 4) :: []) ∧
    (¬((0x0C#6).toNat % 4 = 0 ∧ 2 = 4) ∧ (accessed (.write 0x0C#6 2 0#32)).pending = .host (.write 0x0C#6 2 0#32) :: []) := by decide

theorem witness_CtrlHoldsItsThreeBits :
    (accessed (wr .ctrl 0xFFFFFFFF#32)).pending = .host (wr .ctrl 0xFFFFFFFF#32) :: [] ∧
    (accessed (rd .ctrl)).pending = .host (rd .ctrl) :: [] := ⟨rfl, rfl⟩

theorem witness_StatusWriteClearsTheNamedFlags :
    (accessed (wr .status 0x1E#32)).pending = .host (wr .status 0x1E#32) :: [] := rfl

theorem witness_StatusReadsItsFields :
    sixteen.length ≤ 16 ∧
    (sees (.host (rd .status)) { State.reset with inq := sixteen, outq := sixteen }).pending = .host (rd .status) :: [] := by decide

theorem witness_InDataPushesOrDrops :
    (accessed (wr .inData 0x141#32)).pending = .host (wr .inData 0x141#32) :: [] ∧
    (List.replicate 15 0x61#8).length ≠ 16 ∧ sixteen.length = 16 := by decide

theorem witness_InendMarksTheEnd :
    ((accessed (wr .inEnd 1#32)).pending = .host (wr .inEnd 1#32) :: [] ∧ (1#32).getLsbD 0 = true) ∧
    (accessed (wr .inEnd 2#32)).pending = .host (wr .inEnd 2#32) :: [] ∧ (2#32).getLsbD 0 = false := by decide

theorem witness_OutDataPopsTheHead :
    (accessed (rd .outData)).pending = .host (rd .outData) :: [] ∧ (accessed (rd .outData)).outq = [] ∧
    (sees (.host (rd .outData)) { emits with outq := sixteen, ocnt := 7#3 }).outq = 0x61#8 :: List.replicate 15 0x61#8 ∧
    sixteen.length = 16 := by decide

theorem witness_PlainRegistersReadAndWrite :
    (accessed (.write 0x10#6 4 1#32)).pending = .host (.write 0x10#6 4 1#32) :: [] ∧
    (accessed (.write 0x14#6 4 1#32)).pending = .host (.write 0x14#6 4 1#32) :: [] ∧
    (accessed (.write 0x18#6 4 1#32)).pending = .host (.write 0x18#6 4 1#32) :: [] ∧
    (accessed (.write 0x3C#6 4 5#32)).pending = .host (.write 0x3C#6 4 5#32) :: [] ∧
    (accessed (.read 0x3C#6 4)).pending = .host (.read 0x3C#6 4) :: [] := by decide

/-- The last byte of the window and the byte after it, whatever HUF_BASE is. -/
theorem witness_OnlyTheWindowIsTheBlocks :
    (Config.hufBase ≤ Config.hufBase + 63 ∧ Config.hufBase + 63 - Config.hufBase ≤ 0x3F) ∧
    ¬(Config.hufBase ≤ Config.hufBase + 64 ∧ Config.hufBase + 64 - Config.hufBase ≤ 0x3F) := by omega

theorem witness_IrqIsOneEnabledFlag :
    StateInv { State.reset with ctrl := 2#3, done := true } ∧ StateInv { State.reset with ctrl := 4#3, err := true, errcode := .badCmd } ∧
    (0x1E#32 : Word).getLsbD 1 = true ∧ (0x1E#32 : Word).getLsbD 2 = true :=
  ⟨inv_of_decided _ (by decide), inv_of_decided _ (by decide), rfl, rfl⟩

/-- A CLEAR that changes all three tables. -/
theorem witness_TablesChangeOnlyByTheirCommands :
    ∃ s t : State, step s = .next t ∧ (∀ rest, s.pending ≠ .reset :: rest) ∧ t.ct ≠ s.ct ∧ t.node ≠ s.node ∧ t.root ≠ s.root :=
  ⟨sees (.host (wr .cmd 0x10000000#32)) { State.reset with ct := twoLeafCodes, node := twoLeafNodes, root := 1#10 }, _, rfl,
    by simp [sees], by decide, by decide, by decide⟩

/-- An RDCODE that changes the three operand registers, and a CTRL write. -/
theorem witness_ControlAndOperandsChangeOnlyAsStated :
    (∃ s t : State, step s = .next t ∧ (∀ rest, s.pending ≠ .reset :: rest) ∧ t.arg0 ≠ s.arg0 ∧ t.arg1 ≠ s.arg1 ∧ t.arg2 ≠ s.arg2) ∧
    ∃ s t : State, step s = .next t ∧ (∀ rest, s.pending ≠ .reset :: rest) ∧ t.ctrl ≠ s.ctrl :=
  ⟨⟨sees (.host (wr .cmd 0x30000041#32)) { State.reset with arg0 := 7#32, arg1 := 8#32, arg2 := 9#32 }, _, rfl,
      by simp [sees], by decide, by decide, by decide⟩,
    accessed (wr .ctrl 7#32), _, rfl, by simp [accessed, sees], by decide⟩

/-- A byte with a code, one without, the end with and without a PSEUDO_EOF code, the hold. -/
theorem witness_EncoderFetchesACode :
    (encodes.phase = .encFetch ∧ encodes.inq = 0x61#8 :: [] ∧ (codeAt encodes ((0x61#8).setWidth 9)).len ≠ 0#7) ∧
    (codeAt { encodes with inq := [0x64#8] } ((0x64#8).setWidth 9)).len = 0#7 ∧
    (({ encodes with inq := [] } : State).iend = true ∧ (codeAt encodes 0x100#9).len ≠ 0#7) ∧
    (codeAt { encodes with ct := [] } 0x100#9).len = 0#7 ∧
    ({ encodes with inq := [], iend := false } : State).iend = false := by decide

/-- The last bit of a code, and the hold at a full OUTQ. -/
theorem witness_EncoderEmitsTheNextBit :
    (emits.phase = .encEmit ∧ emits.curPos.toNat < emits.curLen.toNat ∧ emits.curLen.toNat ≤ 64 ∧
      ¬(emits.ocnt = 7#3 ∧ emits.outq.length = 16)) ∧
    (({ emits with ocnt := 7#3, outq := sixteen } : State).ocnt = 7#3 ∧ sixteen.length = 16) ∧
    ({ emits with curLen := 64#7, curPos := 63#7 } : State).curPos.toNat < (64#7).toNat := by decide

theorem witness_EncoderPadsThenCompletes :
    ({ pads with ocnt := 0#3 } : State).phase = .encPad ∧ ({ pads with ocnt := 0#3 } : State).ocnt = 0#3 ∧
    (pads.phase = .encPad ∧ pads.ocnt ≠ 0#3 ∧ ¬(pads.ocnt = 7#3 ∧ pads.outq.length = 16)) ∧
    ({ pads with ocnt := 7#3, outq := sixteen } : State).ocnt = 7#3 ∧ sixteen.length = 16 := by decide

theorem witness_EncodeJobPacksTheWholeInput :
    encodes.phase = .encFetch ∧ encodes.ocnt = 0#3 ∧ encodes.pending = [] ∧ encodes.iend = true ∧
      (∀ c ∈ encodes.ct, entryLegal c.2 = true) ∧ InputCovered encodes encodes.inq ∧
      encodes.outq.length + ((encodedBits encodes encodes.inq).length + 7) / 8 ≤ 16 :=
  ⟨rfl, rfl, rfl, rfl, by decide, ⟨by decide, by decide⟩, by decide⟩

/-- EV4's shape, 'a' has a code and 'd' has none, with OUTQ full; and EV5, no PSEUDO_EOF code. -/
theorem witness_EncodeGapStopsAtTheByte :
    (∃ s : State, s.phase = .encFetch ∧ s.pending = [] ∧ (∀ c ∈ s.ct, entryLegal c.2 = true) ∧
      (∀ c ∈ [0x61#8], (codeAt s (c.setWidth 9)).len ≠ 0#7) ∧
      8 * s.outq.length + s.ocnt.toNat + ([0x61#8].flatMap (fun c => codeBits (codeAt s (c.setWidth 9)))).length < 136 ∧
      (∃ b : Byte, s.inq = [0x61#8] ++ b :: [0x61#8] ∧ 0x064#9 = b.setWidth 9) ∧ (codeAt s 0x064#9).len = 0#7) ∧
    ∃ s : State, s.phase = .encFetch ∧ s.pending = [] ∧ (∀ c ∈ s.ct, entryLegal c.2 = true) ∧
      (∀ c ∈ [0x61#8], (codeAt s (c.setWidth 9)).len ≠ 0#7) ∧
      8 * s.outq.length + s.ocnt.toNat + ([0x61#8].flatMap (fun c => codeBits (codeAt s (c.setWidth 9)))).length < 136 ∧
      (s.inq = [0x61#8] ∧ s.iend = true) ∧ (codeAt s 0x100#9).len = 0#7 :=
  ⟨⟨{ encodes with inq := [0x61#8, 0x64#8, 0x61#8], outq := sixteen }, rfl, rfl, by decide, by decide, by decide,
      ⟨0x64#8, rfl, rfl⟩, by decide⟩,
    { encodes with ct := [(0x61, ⟨1#7, 0#64⟩)] }, rfl, rfl, by decide, by decide, by decide, ⟨rfl, rfl⟩, by decide⟩

/-- A fresh byte and a held one. -/
theorem witness_UnpackerTakesTheFirstBit :
    (avail decodes = true ∧ decodes.icnt.toNat ≤ 8 ∧ decodes.icnt = 0#4 ∧ decodes.inq = 0x02#8 :: []) ∧
    avail decodesLast = true ∧ decodesLast.icnt.toNat ≤ 8 ∧ decodesLast.icnt ≠ 0#4 := by decide

/-- A byte leaf, the PSEUDO_EOF leaf, an INTERNAL child (DV12's tree) and an EMPTY child (DV6's tree). -/
theorem witness_DecoderStepFollowsTheBit :
    (decodes.phase = .decWalk ∧ avail decodes = true ∧ decodes.icnt.toNat ≤ 8 ∧ decodes.ptr.toNat ≤ 512 ∧
      nodeView (nodeWord decodes decodes.ptr) = .internal 1#10 2#10 ∧ (1#10 : NodeIdx).toNat ≤ 512 ∧ (2#10 : NodeIdx).toNat ≤ 512 ∧
      peekBit decodes = false ∧ nodeView (nodeWord decodes 1#10) = .leaf 0x061#9 ∧ decodes.outq.length ≠ 16) ∧
    (avail decodesLast = true ∧ nodeView (nodeWord decodesLast decodesLast.ptr) = .internal 1#10 2#10 ∧ peekBit decodesLast = true ∧
      nodeView (nodeWord decodesLast 2#10) = .leaf 0x100#9) ∧
    nodeView (nodeWord { decodes with node := [(0, 0x80000000#32)] } 0#10) = .internal 0#10 0#10 ∧
    nodeView (nodeWord { decodesLast with node := [(0, 0x80000801#32), (1, 0x40000061#32)] } 2#10) = .empty := by decide

theorem witness_SingleLeafTreeHasTheCodeZero :
    (nodeView (nodeWord (decodesLeaf 0x061#9 0x01#8) 0#10) = .leaf 0x061#9 ∧ avail (decodesLeaf 0x061#9 0x01#8) = true ∧
      peekBit (decodesLeaf 0x061#9 0x01#8) = true) ∧
    (peekBit (decodesLeaf 0x061#9 0x00#8) = false ∧ (0x061#9 : Symbol) ≠ 0x100#9 ∧ (decodesLeaf 0x061#9 0x00#8).outq.length ≠ 16) ∧
    (nodeView (nodeWord (decodesLeaf 0x100#9 0x00#8) 0#10) = .leaf 0x100#9 ∧ peekBit (decodesLeaf 0x100#9 0x00#8) = false) ∧
    (decodesLeaf 0x100#9 0x00#8).phase = .decWalk ∧ (decodesLeaf 0x100#9 0x00#8).icnt.toNat ≤ 8 ∧
    (decodesLeaf 0x100#9 0x00#8).root.toNat ≤ 512 ∧ (decodesLeaf 0x100#9 0x00#8).ptr = (decodesLeaf 0x100#9 0x00#8).root := by decide

theorem witness_DecoderTruncatesAtTheEnd :
    (({ decodes with inq := [] } : State).phase = .decWalk ∧ ({ decodes with inq := [] } : State).icnt = 0#4 ∧
      ({ decodes with inq := [] } : State).iend = true) ∧
    ({ decodes with inq := [], iend := false } : State).iend = false := by decide

theorem witness_EachWalkStepStopsOrConsumesABit :
    (StateInv decodes ∧ decodes.phase = .decWalk ∧ engineHeld decodes = false) ∧ StateInv decodesLast ∧ engineHeld decodesLast = false :=
  ⟨⟨inv_decodes, rfl, by decide⟩, inv_decodesLast, by decide⟩

/-- A job with room for a byte for each bit, and one with three bytes to decode that is held on a full OUTQ. -/
theorem witness_DecodeJobEndsInTime :
    (StateInv decodes ∧ decodes.phase = .decWalk ∧ decodes.pending = [] ∧ decodes.iend = true ∧
      decodes.outq.length + (decodes.icnt.toNat + 8 * decodes.inq.length) ≤ 16) ∧
    StateInv { decodes with inq := [0x00#8, 0x00#8, 0x02#8], outq := sixteen } ∧
      engineHeld { decodes with inq := [0x00#8, 0x00#8, 0x02#8], outq := sixteen } = true :=
  ⟨⟨inv_decodes, rfl, rfl, rfl, by decide⟩, inv_of_decided _ (by decide), by decide⟩

theorem holds_twoLeafTree : HoldsTree decodes twoLeafTree 0#10 :=
  ⟨by decide, 1#10, 2#10, by decide, ⟨by decide, by decide⟩, ⟨by decide, by decide⟩⟩

theorem witness_DecoderWalksAPathToItsSymbol :
    decodes.phase = .decWalk ∧ decodes.pending = [] ∧ decodes.ptr = decodes.root ∧ decodes.icnt.toNat ≤ 8 ∧
      HoldsTree decodes twoLeafTree decodes.root ∧ (0x061#9, [false]) ∈ twoLeafTree.codes ∧ (0x061#9 : Symbol) ≠ 0x100#9 ∧
      inputBits decodes = [false] ++ [true, false, false, false, false, false, false] ∧ decodes.outq.length < 16 :=
  ⟨rfl, rfl, rfl, by decide, holds_twoLeafTree, by decide, by decide, by decide, by decide⟩

theorem witness_DecodeJobEmitsTheSymbols :
    decodes.phase = .decWalk ∧ decodes.pending = [] ∧ decodes.ptr = decodes.root ∧ decodes.icnt.toNat ≤ 8 ∧
      HoldsTree decodes twoLeafTree decodes.root ∧
      (∀ c ∈ [((0x061#9 : Symbol), [false])], c ∈ twoLeafTree.codes ∧ c.1 ≠ 0x100#9) ∧ (0x100#9, [true]) ∈ twoLeafTree.codes ∧
      inputBits decodes = [((0x061#9 : Symbol), [false])].flatMap Prod.snd ++ [true] ++ [false, false, false, false, false, false] ∧
      decodes.outq.length + 1 ≤ 16 :=
  ⟨rfl, rfl, rfl, by decide, holds_twoLeafTree, by decide, by decide, by decide, by decide⟩

/-- DV3's shape: 'a', then the end inside the PSEUDO_EOF code "10" of a tree of three leaves. -/
theorem witness_DecodeJobTruncatesAnUnfinishedStream :
    ∃ (s : State) (tree : CodeTree), s.phase = .decWalk ∧ s.pending = [] ∧ s.ptr = s.root ∧ s.icnt.toNat ≤ 8 ∧ s.iend = true ∧
      HoldsTree s tree s.root ∧ (∀ c ∈ [((0x061#9 : Symbol), [false])], c ∈ tree.codes ∧ c.1 ≠ 0x100#9) ∧
      (0x100#9, [true] ++ [false]) ∈ tree.codes ∧ inputBits s = [((0x061#9 : Symbol), [false])].flatMap Prod.snd ++ [true] ∧
      s.outq.length + 1 ≤ 16 :=
  ⟨{ State.reset with
      node := [(0, 0x80000801#32), (1, 0x40000061#32), (2, 0x80001003#32), (3, 0x40000100#32), (4, 0x40000062#32)]
      iacc := 0x80#8, icnt := 2#4, iend := true, phase := .decWalk },
    .node 7 (.leaf 0x061#9 4) (.node 3 (.leaf 0x100#9 1) (.leaf 0x062#9 2)), rfl, rfl, rfl, by decide, rfl,
    ⟨by decide, 1#10, 2#10, by decide, ⟨by decide, by decide⟩, by decide, 3#10, 4#10, by decide, ⟨by decide, by decide⟩,
      by decide, by decide⟩, by decide, by decide, by decide, by decide⟩

/-- A state that holds and one that does not. -/
theorem witness_EngineHoldsExactlyAsTheTablesSay :
    (StateInv { emits with ocnt := 7#3, outq := sixteen } ∧ engineHeld { emits with ocnt := 7#3, outq := sixteen } = true) ∧
    StateInv emits ∧ engineHeld emits = false := ⟨⟨inv_of_decided _ (by decide), by decide⟩, inv_emits, by decide⟩

/-- ENC_GAP, TRUNCATED, BAD_NODE and BAD_CODE. -/
theorem witness_EngineErrorsArePrecise :
    (StateInv { encodes with inq := [0x64#8] } ∧ busy { encodes with inq := [0x64#8] } = true ∧
      ∃ t, engineStep { encodes with inq := [0x64#8] } = .next t ∧ t.err = true ∧ t.errcode = .encGap) ∧
    (StateInv { decodes with inq := [] } ∧
      ∃ t, engineStep { decodes with inq := [] } = .next t ∧ t.err = true ∧ t.errcode = .truncated) ∧
    (StateInv { decodesLast with node := [(0, 0x80000801#32), (1, 0x40000061#32)] } ∧
      ∃ t, engineStep { decodesLast with node := [(0, 0x80000801#32), (1, 0x40000061#32)] } = .next t ∧ t.err = true ∧
        t.errcode = .badNode) ∧
    StateInv (decodesLeaf 0x100#9 0x01#8) ∧
      ∃ t, engineStep (decodesLeaf 0x100#9 0x01#8) = .next t ∧ t.err = true ∧ t.errcode = .badCode :=
  ⟨⟨inv_of_decided _ (by decide), rfl, _, rfl, rfl, rfl⟩, ⟨inv_of_decided _ (by decide), _, rfl, rfl, rfl⟩,
    ⟨inv_of_decided _ (by decide), _, rfl, rfl, rfl⟩, inv_of_decided _ (by decide), _, rfl, rfl, rfl⟩

theorem witness_ALoadedCodeSpellsItsString : (List.replicate 64 true).length ≤ 64 := by decide

theorem witness_BuiltTreeHoldsEachSymbolOnce :
    buildTree (frequencyCount [0x61#8]) = some twoLeafTree ∧ buildTree [] = none := by decide

theorem treeLoaded_twoLeafTree : TreeLoaded decodes twoLeafTree 0 := by unfold TreeLoaded; decide

theorem witness_TreeLoadMakesTheTree : twoLeafTree.size ≤ 513 ∧ TreeLoaded decodes twoLeafTree 0 :=
  ⟨by decide, treeLoaded_twoLeafTree⟩

/-- The two jobs on "a" with the tree of HV3. -/
theorem witness_DecodingTheEncodedInputGivesItBack :
    WFTable encodes twoLeafTree encodes.inq ∧ (∀ c ∈ encodes.ct, entryLegal c.2 = true) ∧ InputCovered encodes encodes.inq ∧
      WFTree { decodes with inq := [] } twoLeafTree ∧ encodes.phase = .encFetch ∧ encodes.ocnt = 0#3 ∧
      encodes.pending = [] ∧ encodes.iend = true ∧ encodes.outq = [] ∧ encodes.inq.length ≤ 16 ∧
      (encodedBits encodes encodes.inq).length ≤ 128 ∧
      ({ decodes with inq := [] } : State).phase = .decWalk ∧ ({ decodes with inq := [] } : State).outq = [] ∧
      ({ decodes with inq := [] } : State).icnt = 0#4 ∧ ({ decodes with inq := [] } : State).pending = [] ∧
      ({ decodes with inq := [] } : State).ptr = ({ decodes with inq := [] } : State).root ∧
      ({ decodes with inq := [] } : State).msbfL = encodes.msbfL := by
  refine ⟨⟨by decide, ?_⟩, by decide, ⟨by decide, by decide⟩,
    ⟨⟨by decide, 1#10, 2#10, by decide, ⟨by decide, by decide⟩, ⟨by decide, by decide⟩⟩, by decide,
    by decide, by decide⟩, rfl, rfl, rfl, rfl, rfl, by decide, by decide, rfl, rfl, rfl, rfl, rfl, rfl⟩
  intro sym h
  have ha : sym ≠ 0x061#9 := fun e => h (by subst e; decide)
  exact .inr (by simpa [encodes] using ha.symm)

theorem witness_TheReferenceProcedureRoundTrips :
    buildTree (frequencyCount encodes.inq) = some twoLeafTree ∧ TableLoaded encodes twoLeafTree ∧
      (∀ c ∈ encodes.ct, entryLegal c.2 = true) ∧ TreeLoaded { decodes with inq := [] } twoLeafTree 0 ∧
      ({ decodes with inq := [] } : State).root = 0#10 ∧ encodes.phase = .encFetch ∧ encodes.ocnt = 0#3 ∧
      encodes.pending = [] ∧ encodes.iend = true ∧ encodes.outq = [] ∧ encodes.inq.length ≤ 16 ∧
      (encodedBits encodes encodes.inq).length ≤ 128 ∧ decodes.phase = .decWalk ∧ decodes.ptr = 0#10 ∧ decodes.icnt = 0#4 ∧
      decodes.pending = [] ∧ decodes.outq = [] ∧ decodes.msbfL = encodes.msbfL :=
  ⟨by decide, by unfold TableLoaded; decide, by decide, treeLoaded_twoLeafTree, rfl, rfl, rfl, rfl, rfl, rfl, by decide, by decide,
    rfl, rfl, rfl, rfl, rfl, rfl⟩

/-- The first and the last row of the map. -/
theorem witness_TheRegisterMapIsAtItsOffsets :
    (Reg.id, 0x00#6) ∈ [(Reg.id, 0x00#6), (.ctrl, 0x04#6), (.status, 0x08#6), (.cmd, 0x0C#6), (.arg0, 0x10#6), (.arg1, 0x14#6),
      (.arg2, 0x18#6), (.root, 0x1C#6), (.inData, 0x20#6), (.inEnd, 0x24#6), (.outData, 0x28#6), (.bitcnt, 0x2C#6), (.bitsin, 0x30#6),
      (.errinfo, 0x34#6), (.reserved38, 0x38#6), (.reserved3C, 0x3C#6)] := by decide

/-- The last bit of a byte; a state with bits packed, one with bits held, and each with bytes queued. -/
theorem witness_TheStreamCarriesItsBitsInOrder :
    ([0x01#8, 0x02#8][1]? = some 0x02#8 ∧ 7 < 8) ∧
    (pads.icnt.toNat ≤ 8 ∧ 1 < pads.ocnt.toNat) ∧ 6 < decodesLast.icnt.toNat ∧ decodesLast.icnt.toNat ≤ 8 ∧
    7 < 8 * decodesLast.outq.length ∧ 7 < 8 * decodes.inq.length := by decide

end Sys2Proof.Tests
end

section
/-! PROOFS of the family 10_state: what one step of the machine can do, said once; the invariant of R49 and the frames of the tables, CTRL
and the operand registers follow from it. -/

namespace Sys2Proof.Machine

/-! ### What one step can do -/

/-- What a turn of the engine can make of `s`, with the guards under which it does so (R202-R207, R244-R247). -/
inductive EngineMove (s : State) : State → Prop
  | stay : EngineMove s s
  | fetchByte {b : Byte} {rest : List Byte} (hp : s.phase = .encFetch) (hq : s.inq = b :: rest) :
      EngineMove s (fetchCode (b.setWidth 9) false { s with inq := rest })
  | fetchEnd (hp : s.phase = .encFetch) (hq : s.inq = []) (he : s.iend = true) : EngineMove s (fetchCode Config.pseudoEof true s)
  | emit (hp : s.phase = .encEmit) (hh : packHold s = false) (hc : s.curPos.toNat < s.curLen.toNat) : EngineMove s (emitBit s)
  | padded (hp : s.phase = .encPad) (h0 : s.ocnt = 0#3) : EngineMove s (jobDone s)
  | pad (hp : s.phase = .encPad) (h0 : s.ocnt ≠ 0#3) (hh : packHold s = false) : EngineMove s (packBit false s)
  | truncated (hp : s.phase = .decWalk) (ha : avail s = false) (he : s.iend = true) : EngineMove s (raiseError .truncated s.ptr s)
  | badNode (idx : NodeIdx) (hp : s.phase = .decWalk) (ha : avail s = true) :
      EngineMove s (raiseError .badNode idx (consumeBit s))
  | badCode (hp : s.phase = .decWalk) (ha : avail s = true) : EngineMove s (raiseError .badCode s.ptr (consumeBit s))
  | endOfStream (hp : s.phase = .decWalk) (ha : avail s = true) : EngineMove s (jobDone { consumeBit s with icnt := 0#4 })
  | leaf (sym : Symbol) (hp : s.phase = .decWalk) (ha : avail s = true) (hf : outqFull s = false) :
      EngineMove s { pushOut (sym.setWidth 8) (consumeBit s) with ptr := s.root }
  | inner {idx zero one : NodeIdx} (hp : s.phase = .decWalk) (ha : avail s = true) (hi : idx.toNat < Config.nodeCount)
      (hv : nodeView (nodeWord s idx) = .internal zero one) : EngineMove s { consumeBit s with ptr := idx }

theorem walkTo_move {c : NodeIdx} {s t : State} (hp : s.phase = .decWalk) (ha : avail s = true) (h : walkTo c s = .next t) :
    EngineMove s t := by
  unfold walkTo at h
  split at h
  · cases h
  next w hw =>
    obtain ⟨hi, rfl⟩ := (nodeAt_eq_some_iff s c w).mp hw
    split at h
    · cases h; exact .badNode c hp ha
    · split at h
      · cases h; exact .endOfStream hp ha
      · split at h <;> cases h
        · exact .stay
        next hf => exact .leaf _ hp ha (by simpa using hf)
    next hv => cases h; exact .inner hp ha hi hv
    · cases h

theorem stepDecWalk_move {s t : State} (hp : s.phase = .decWalk) (h : stepDecWalk s = .next t) : EngineMove s t := by
  unfold stepDecWalk at h
  split at h
  next ha =>
    split at h <;> cases h
    next he => exact .truncated hp (by simpa using ha) he
    · exact .stay
  next ha =>
    replace ha : avail s = true := by simpa using ha
    split at h
    · cases h
    unfold walkBit at h
    split at h
    · cases h
    split at h
    · cases h; exact .badNode _ hp ha
    · split at h
      · cases h; exact .badCode hp ha
      · exact walkTo_move hp ha h
    · exact walkTo_move hp ha h
    · cases h

/-- The engine's turn, inverted. -/
theorem engineStep_move {s t : State} (h : engineStep s = .next t) : EngineMove s t := by
  unfold engineStep at h
  split at h
  · cases h; exact .stay
  next hp =>
    unfold stepEncFetch at h
    split at h
    next hq => cases h; exact .fetchByte hp hq
    next hq =>
      split at h <;> cases h
      next he => exact .fetchEnd hp hq he
      · exact .stay
  next hp =>
    unfold stepEncEmit at h
    split at h
    · cases h; exact .stay
    next hh =>
      split at h <;> cases h
      next hc => exact .emit hp (by simpa using hh) hc.1
  next hp =>
    unfold stepEncPad at h
    split at h
    next h0 => cases h; exact .padded hp h0
    next h0 =>
      split at h <;> cases h
      · exact .stay
      next hh => exact .pad hp h0 (by simpa using hh)
  next hp => exact stepDecWalk_move hp h

/-- What a command's own rule can make of `s` (R160-R169, R201, R241): it fails with an error, completes or starts a job. -/
inductive CommandMove (s : State) : Instr → State → Prop
  | error (i : Instr) {code : ErrCode} (info : BitVec 10) (hc : code ≠ .none) : CommandMove s i (raiseError code info s)
  | nop : CommandMove s .nop (complete s)
  | clear : CommandMove s .clear (complete (clearBlock s))
  | ldcode {sym : Symbol} {len : BitVec 7} (hs : symInRange sym = true) (hl : lenInRange len = true)
      (hc : codeLegal len (stagedCode s) = true) :
      CommandMove s (.ldcode sym len) (complete (setCode sym { len := len, bits := stagedCode s } s))
  | rdcode (sym : Symbol) : CommandMove s (.rdcode sym) (complete (reportCode (codeAt s sym) s))
  | ldnode {idx : NodeIdx} (hi : idxInRange idx = true) (hw : nodeWordLegal s.arg0 = true) :
      CommandMove s (.ldnode idx) (complete (setNode idx s.arg0 s))
  | rdnode (idx : NodeIdx) : CommandMove s (.rdnode idx) (complete { s with arg0 := nodeWord s idx })
  | setroot {idx : NodeIdx} (hi : idxInRange idx = true) : CommandMove s (.setroot idx) (complete { s with root := idx })
  | encode : CommandMove s .encode (startEncode s)
  | decode (hv : nodeView (nodeWord s s.root) ≠ .empty) : CommandMove s .decode (startDecode s)
  | abort (hb : busy s = false) : CommandMove s .abort (complete s)

/-- A command's meaning, inverted. -/
theorem exec_move {i : Instr} {s t : State} (h : exec i s = .next t) : CommandMove s i t := by
  cases i with
  | nop => cases h; exact .nop
  | clear => cases h; exact .clear
  | ldcode sym len =>
    simp only [exec, execLdcode] at h
    split at h
    · cases h; exact .error _ _ (by decide)
    next hr =>
      obtain ⟨hs, hl⟩ : symInRange sym = true ∧ lenInRange len = true := by simpa using hr
      split at h <;> cases h
      · exact .error _ _ (by decide)
      next hc => exact .ldcode hs hl (by simpa using hc)
  | rdcode sym =>
    simp only [exec, execRdcode] at h
    split at h <;> cases h
    · exact .error _ _ (by decide)
    · exact .rdcode sym
  | ldnode idx =>
    simp only [exec, execLdnode] at h
    split at h
    · cases h; exact .error _ _ (by decide)
    next hi =>
      split at h <;> cases h
      · exact .error _ _ (by decide)
      next hw => exact .ldnode (by simpa using hi) (by simpa using hw)
  | rdnode idx =>
    simp only [exec, execRdnode] at h
    split at h <;> cases h
    · exact .error _ _ (by decide)
    · exact .rdnode idx
  | setroot idx =>
    simp only [exec, execSetroot] at h
    split at h <;> cases h
    · exact .error _ _ (by decide)
    next hi => exact .setroot (by simpa using hi)
  | encode => cases h; exact .encode
  | decode =>
    simp only [exec, execDecode] at h
    split at h
    · cases h
    next w hw =>
      obtain ⟨-, rfl⟩ := (nodeAt_eq_some_iff s s.root w).mp hw
      split at h <;> cases h
      · exact .error _ _ (by decide)
      next hv => exact .decode hv
  | abort =>
    simp only [exec, execAbort] at h
    split at h <;> cases h
    · exact .error _ _ (by decide)
    next hb => exact .abort (by simpa using hb)

/-- What a host access can make of `s` (R64, R130-R140). -/
inductive HostMove (s : State) : Access → State → Prop
  | answer (a : Access) (v : Word) : HostMove s a (reply v s)
  | pop (a : Access) (v : Word) {b : Byte} {rest : List Byte} (hq : s.outq = b :: rest) :
      HostMove s a (reply v { s with outq := rest })
  | ignored (a : Access) : HostMove s a s
  | ctrl (v : Word) : HostMove s (wr .ctrl v) { s with ctrl := v.setWidth 3 }
  | status (v : Word) : HostMove s (wr .status v) (statusWrite v s)
  | arg0 (v : Word) : HostMove s (wr .arg0 v) { s with arg0 := v }
  | arg1 (v : Word) : HostMove s (wr .arg1 v) { s with arg1 := v }
  | arg2 (v : Word) : HostMove s (wr .arg2 v) { s with arg2 := v }
  | inData (v : Word) : HostMove s (wr .inData v) (inWrite v s)
  | inEnd (v : Word) : HostMove s (wr .inEnd v) (inendWrite v s)
  | dropped {w : Word} (hb : busy s = true) (hw : w ≠ abortWord) : HostMove s (wr .cmd w) (cmdDrop s)
  | badWord {w : Word} {r : Reject} (hb : busy s = false) (hd : decodeCmd w = .error r) :
      HostMove s (wr .cmd w) (badCommand (acceptClear s))
  | command {w : Word} {i : Instr} {t : State} (hb : busy s = false ∨ i = .abort) (hd : decodeCmd w = .ok i)
      (m : CommandMove (acceptClear s) i t) : HostMove s (wr .cmd w) t

/-- Only an aligned 32-bit access at a register's offset reaches the register (R64, register map). -/
theorem regAt_eq_some {off : BitVec 6} {size : Nat} {r : Reg} (h : regAt off size = some r) : off = regOffset r ∧ size = 4 := by
  unfold regAt at h
  split at h
  next hs =>
    refine ⟨BitVec.eq_of_toNat_eq ?_, hs⟩
    split at h <;> cases h <;> assumption
  · cases h

theorem cmdWrite_move {w : Word} {s t : State} (h : cmdWrite w s = .next t) : HostMove s (wr .cmd w) t := by
  by_cases hw : w = abortWord
  · subst hw
    rw [cmdWrite_of_accepted (.inr rfl)] at h
    exact .command (.inr rfl) (show decodeCmd abortWord = .ok .abort from rfl) (exec_move h)
  cases hb : busy s with
  | true => rw [cmdWrite_of_busy hb hw] at h; cases h; exact .dropped hb hw
  | false =>
    rw [cmdWrite_of_accepted (.inl hb)] at h
    unfold runCommand at h
    split at h
    next hd => exact .command (.inl hb) hd (exec_move h)
    next hd => cases h; exact .badWord hb hd

theorem writeReg_move {r : Reg} {v : Word} {s t : State} (h : writeReg r v s = .next t) : HostMove s (wr r v) t := by
  cases r
  case cmd => exact cmdWrite_move h
  all_goals cases h; constructor

theorem readReg_move (a : Access) (r : Reg) (s : State) : HostMove s a (reply (readReg r s).1 (readReg r s).2) := by
  cases r
  case outData =>
    simp only [readReg, outRead]
    split
    · exact .answer a _
    next hq => exact .pop a _ hq
  all_goals exact .answer a _

/-- A host access, inverted. -/
theorem hostStep_move {a : Access} {s t : State} (h : hostStep a s = .next t) : HostMove s a t := by
  cases a with
  | read off size =>
    cases h
    unfold busRead
    split
    · exact readReg_move _ _ s
    · exact .answer _ _
  | write off size v =>
    simp only [hostStep, busWrite] at h
    split at h
    next r hr =>
      obtain ⟨rfl, rfl⟩ := regAt_eq_some hr
      exact writeReg_move h
    · cases h; exact .ignored _

/-- What one step can make of `s` (R7, R70, R360). -/
inductive StepMove (s : State) : State → Prop
  | alone {t : State} (hp : s.pending = []) (m : EngineMove s t) : StepMove s t
  | engine {t : State} {rest : List Event} (hp : s.pending = .engine :: rest) (m : EngineMove (takeEvent rest s) t) : StepMove s t
  | host {t : State} {a : Access} {rest : List Event} (hp : s.pending = .host a :: rest) (m : HostMove (takeEvent rest s) a t) :
      StepMove s t
  | reset {rest : List Event} (hp : s.pending = .reset :: rest) : StepMove s (resetBlock (takeEvent rest s))

/-- One step, inverted: every invariant and frame of the machine is read off this. -/
theorem step_move {s t : State} (h : step s = .next t) : StepMove s t := by
  match hp : s.pending with
  | [] => rw [step_of_no_event hp] at h; exact .alone hp (engineStep_move h)
  | .host a :: rest => rw [step_of_pending hp] at h; exact .host hp (hostStep_move h)
  | .engine :: rest => rw [step_of_pending hp] at h; exact .engine hp (engineStep_move h)
  | .reset :: rest => rw [step_of_pending hp] at h; cases h; exact .reset hp

/-! ### The shared operations keep the invariant (R49) -/

theorem takeEvent_inv {s : State} (h : StateInv s) (rest : List Event) : StateInv (takeEvent rest s) := { h with }

theorem reply_inv {s : State} (h : StateInv s) (v : Word) : StateInv (reply v s) := { h with }

theorem cmdDrop_inv {s : State} (h : StateInv s) : StateInv (cmdDrop s) := { h with }

theorem inendWrite_inv {s : State} (h : StateInv s) (v : Word) : StateInv (inendWrite v s) := { h with }

theorem pop_inv {s : State} {b : Byte} {rest : List Byte} (h : StateInv s) (hq : s.outq = b :: rest) :
    StateInv { s with outq := rest } :=
  { h with outqBound := Nat.le_of_succ_le (by simpa [hq] using h.outqBound) }

theorem popIn_inv {s : State} {b : Byte} {rest : List Byte} (h : StateInv s) (hq : s.inq = b :: rest) :
    StateInv { s with inq := rest } :=
  { h with inqBound := Nat.le_of_succ_le (by simpa [hq] using h.inqBound) }

/-- Pushing in a FIFO that is not full. -/
theorem inWrite_inv {s : State} (h : StateInv s) (v : Word) : StateInv (inWrite v s) := by
  unfold inWrite
  split
  · exact { h with }
  next hf =>
    have hne : s.inq.length ≠ 16 := fun e => hf ((inqFull_iff s).mpr e)
    have hle : s.inq.length ≤ 16 := h.inqBound
    exact { h with inqBound := by simp [pushIn, Config.inqDepth]; omega }

theorem pushOut_inv {s : State} (h : StateInv s) (b : Byte) (hf : outqFull s = false) : StateInv (pushOut b s) := by
  have hne : s.outq.length ≠ 16 := fun e => by simp [(outqFull_iff s).mpr e] at hf
  have hle : s.outq.length ≤ 16 := h.outqBound
  exact { h with outqBound := by simp [pushOut, Config.outqDepth]; omega }

theorem packBit_inv {s : State} (h : StateInv s) (x : Bool) (hh : packHold s = false) : StateInv (packBit x s) := by
  unfold packBit
  dsimp only
  split
  next h7 =>
    have hf : outqFull s = false := by simpa [packHold, h7] using hh
    exact { pushOut_inv h _ hf with }
  · exact { h with }

theorem statusWrite_inv {s : State} (h : StateInv s) (v : Word) : StateInv (statusWrite v s) :=
  { h with
    oneOutcome := by
      have := h.oneOutcome
      simp only [statusWrite, Bool.and_eq_true]
      exact fun ⟨hd, he⟩ => this ⟨hd.1, he.1⟩
    codeOfErr := by
      have := h.codeOfErr
      cases hv : v.getLsbD 2 <;> simp only [statusWrite, hv] <;> simp [this]
    undecided := fun hb => by
      obtain ⟨hd, he⟩ := h.undecided hb
      simp [statusWrite, hd, he] }

theorem acceptClear_inv {s : State} (h : StateInv s) : StateInv (acceptClear s) :=
  { h with
    oneOutcome := by simp
    codeOfErr := by simp
    undecided := by simp }

theorem raiseError_inv {s : State} (h : StateInv s) {code : ErrCode} (info : BitVec 10) (hc : code ≠ .none) (hd : s.done = false) :
    StateInv (raiseError code info s) := by
  rw [raiseError_eq]
  exact { h with
    emitting := by simp
    walking := by simp
    rooted := by simp
    oneOutcome := by simp [hd]
    codeOfErr := by simpa using hc
    undecided := by simp [busy] }

theorem complete_inv {s : State} (h : StateInv s) (hb : busy s = false) (he : s.err = false) : StateInv (complete s) :=
  { h with
    oneOutcome := by simp [he]
    undecided := fun hb' => absurd (hb.symm.trans hb') (by decide) }

theorem jobDone_inv {s : State} (h : StateInv s) (he : s.err = false) : StateInv (jobDone s) :=
  { h with
    emitting := by simp
    walking := by simp
    rooted := by simp
    oneOutcome := by simp [he]
    undecided := by simp [busy] }

/-- Reset gives a state with the invariant whatever was before (R50, R360). -/
theorem resetBlock_inv (s : State) : StateInv (resetBlock s) where
  memories := resetBlock_wf s
  codesLegal := by simp
  nodesLegal := by simp
  inqBound := by simp
  outqBound := by simp
  icntBound := by simp
  rootBound := by simp
  ptrBound := by simp
  codeBound := by simp
  emitting := by simp
  walking := by simp
  rooted := by simp
  oneOutcome := by simp
  codeOfErr := by simp
  undecided := by simp [busy]

/-! ### The commands keep the invariant -/

section
variable {s : State}

/-- In IDLE the clauses about a running job ask nothing. -/
theorem clearBlock_inv (h : StateInv s) (hb : busy s = false) : StateInv (clearBlock s) := by
  have hp : s.phase = .idle := (busy_eq_false_iff s).mp hb
  exact { h with
    memories := clearBlock_wf s
    codesLegal := by simp
    nodesLegal := by simp
    inqBound := by simp
    outqBound := by simp
    icntBound := by simp
    rootBound := by simp
    ptrBound := by simp
    codeBound := by simp
    emitting := by simp [hp]
    walking := by simp [hp]
    rooted := by simp [hp] }

/-- An entry that LDCODE stores is absent or legal: LEN = 0 leaves no bit of the code (R102, R164). -/
theorem entryLegal_of_codeLegal {len : BitVec 7} {code : BitVec 64} (hl : lenInRange len = true) (hc : codeLegal len code = true)
    (hne : ({ len := len, bits := code } : CodeEntry) ≠ absentEntry) : entryLegal { len := len, bits := code } = true := by
  have hpos : 0 < len.toNat := by
    refine Nat.pos_of_ne_zero fun h0 => hne ?_
    have hlen : len = 0#7 := BitVec.eq_of_toNat_eq h0
    subst hlen
    have hcode : code = 0#64 := by simpa [codeLegal] using hc
    rw [hcode, absentEntry]
  simp [entryLegal, hpos, hl, hc]

theorem setCode_inv (h : StateInv s) {sym : Symbol} {len : BitVec 7} {code : BitVec 64} (hs : symInRange sym = true)
    (hl : lenInRange len = true) (hc : codeLegal len code = true) : StateInv (setCode sym { len := len, bits := code } s) :=
  { h with
    memories := setCode_wf sym _ s hs h.memories
    codesLegal := fun c hm => by
      rcases mem_tableWrite hm with ⟨rfl, hne⟩ | hm
      · exact entryLegal_of_codeLegal hl hc hne
      · exact h.codesLegal c hm }

theorem setNode_inv (h : StateInv s) (hb : busy s = false) {idx : NodeIdx} {w : Word} (hi : idxInRange idx = true)
    (hw : nodeWordLegal w = true) : StateInv (setNode idx w s) := by
  have hp : s.phase = .idle := (busy_eq_false_iff s).mp hb
  exact { h with
    memories := setNode_wf idx w s hi h.memories
    nodesLegal := fun c hm => by
      rcases mem_tableWrite hm with ⟨rfl, -⟩ | hm
      · exact hw
      · exact h.nodesLegal c hm
    walking := by simp [hp]
    rooted := by simp [hp] }

theorem setRoot_inv (h : StateInv s) (hb : busy s = false) {idx : NodeIdx} (hi : idxInRange idx = true) :
    StateInv { s with root := idx } := by
  have hp : s.phase = .idle := (busy_eq_false_iff s).mp hb
  exact { h with
    rootBound := by simpa [idxInRange] using hi
    walking := by simp [hp]
    rooted := by simp [hp] }

theorem reportCode_inv (h : StateInv s) (e : CodeEntry) : StateInv (reportCode e s) := by
  unfold reportCode
  split <;> exact { h with }

theorem startEncode_inv (h : StateInv s) (hd : s.done = false) (he : s.err = false) : StateInv (startEncode s) :=
  { h with
    codeBound := by simp
    emitting := by simp
    walking := by simp
    rooted := by simp
    undecided := fun _ => ⟨hd, he⟩ }

/-- A node word's KIND tells INTERNAL, LEAF and EMPTY apart (R100). -/
theorem isInternal_of_nodeView {w : Word} {zero one : NodeIdx} (h : nodeView w = .internal zero one) : isInternal w = true := by
  unfold nodeView at h
  split at h <;> cases h
  next hk => exact beq_iff_eq.mpr (BitVec.eq_of_toNat_eq hk)

theorem isLeaf_of_nodeView {w : Word} {sym : Symbol} (h : nodeView w = .leaf sym) : isLeaf w = true := by
  unfold nodeView at h
  split at h <;> cases h
  next hk => exact beq_iff_eq.mpr (BitVec.eq_of_toNat_eq hk)

/-- A legal word that is not EMPTY is INTERNAL or a LEAF (R101). -/
theorem isInternal_or_isLeaf {w : Word} (hl : nodeWordLegal w = true) (hv : nodeView w ≠ .empty) :
    isInternal w = true ∨ isLeaf w = true := by
  rcases nodeView_of_legal w hl with h | ⟨sym, h, -⟩ | ⟨zero, one, h, -⟩
  · exact absurd h hv
  · exact .inr (isLeaf_of_nodeView h)
  · exact .inl (isInternal_of_nodeView h)

theorem startDecode_inv (h : StateInv s) (hd : s.done = false) (he : s.err = false) (hv : nodeView (nodeWord s s.root) ≠ .empty) :
    StateInv (startDecode s) := by
  have hroot := isInternal_or_isLeaf (nodeWord_legal h s.root) hv
  exact { h with
    icntBound := by simp
    ptrBound := h.rootBound
    emitting := by simp
    walking := fun _ => hroot.imp id (fun hl => ⟨rfl, hl⟩)
    rooted := fun _ => hroot
    undecided := fun _ => ⟨hd, he⟩ }

/-- A command accepted in a state with the invariant, DONE and ERR cleared (R130). -/
theorem CommandMove.keepsInv {i : Instr} {t : State} (m : CommandMove s i t) (h : StateInv s) (hb : busy s = false ∨ i = .abort)
    (hd : s.done = false) (he : s.err = false) : StateInv t := by
  have hidle : i ≠ .abort → busy s = false := hb.resolve_right
  cases m with
  | error i info hc => exact raiseError_inv h info hc hd
  | nop => exact complete_inv h (hidle (by simp)) he
  | clear => exact complete_inv (clearBlock_inv h (hidle (by simp))) (hidle (by simp)) he
  | ldcode hs hl hc => exact complete_inv (setCode_inv h hs hl hc) (hidle (by simp)) he
  | rdcode sym => exact complete_inv (reportCode_inv h _) (by simpa [busy] using hidle (by simp)) (by simpa using he)
  | ldnode hi hw => exact complete_inv (setNode_inv h (hidle (by simp)) hi hw) (hidle (by simp)) he
  | rdnode idx => exact complete_inv { h with } (hidle (by simp)) he
  | setroot hi => exact complete_inv (setRoot_inv h (hidle (by simp)) hi) (hidle (by simp)) he
  | encode => exact startEncode_inv h hd he
  | decode hv => exact startDecode_inv h hd he hv
  | abort hnot => exact complete_inv h hnot he

theorem HostMove.keepsInv {a : Access} {t : State} (m : HostMove s a t) (h : StateInv s) : StateInv t := by
  cases m with
  | answer a v => exact reply_inv h v
  | pop a v hq => exact reply_inv (pop_inv h hq) v
  | ignored a => exact h
  | ctrl v => exact { h with }
  | status v => exact statusWrite_inv h v
  | arg0 v => exact { h with }
  | arg1 v => exact { h with }
  | arg2 v => exact { h with }
  | inData v => exact inWrite_inv h v
  | inEnd v => exact inendWrite_inv h v
  | dropped hb hw => exact cmdDrop_inv h
  | badWord hb hd => exact raiseError_inv (acceptClear_inv h) _ (by decide) rfl
  | command hb hd m => exact m.keepsInv (acceptClear_inv h) hb rfl rfl

/-! ### The engine keeps the invariant -/

/-- NextBit takes one of at most eight bits (R243). -/
theorem consumeBit_inv (h : StateInv s) (ha : avail s = true) : StateInv (consumeBit s) := by
  rcases consumeBit_cases s ha with ⟨h0, heq, -⟩ | ⟨b, rest, h0, hq, heq, -⟩
  · have hle := h.icntBound
    rw [heq]
    exact { h with icntBound := by dsimp only; bv_omega }
  · rw [heq]
    exact { popIn_inv h hq with icntBound := by simp }

/-- The fetched code has at most 64 bits, and an entry that is present has at least one (R36, R203). -/
theorem fetchCode_inv (h : StateInv s) (hp : s.phase = .encFetch) (sym : Symbol) (last : Bool) : StateInv (fetchCode sym last s) := by
  obtain ⟨hd, he⟩ := h.undecided ((busy_eq_true_iff s).mpr (by simp [hp]))
  rcases codeAt_absent_or_legal h.codesLegal sym with h0 | ⟨hpos, hle⟩
  · rw [fetchCode_absent sym last s h0]
    exact raiseError_inv h _ (by decide) hd
  · rw [fetchCode_present sym last s (fun h0 => by simp [h0] at hpos)]
    exact { h with
      codeBound := ⟨Nat.zero_le _, hle⟩
      emitting := fun _ => hpos
      walking := by simp
      rooted := by simp
      undecided := fun _ => ⟨hd, he⟩ }

/-- CUR_POS reaches CUR_LEN only as the phase is left (R205). -/
theorem emitBit_inv (h : StateInv s) (hp : s.phase = .encEmit) (hh : packHold s = false) (hc : s.curPos.toNat < s.curLen.toNat) :
    StateInv (emitBit s) := by
  obtain ⟨hd, he⟩ := h.undecided ((busy_eq_true_iff s).mpr (by simp [hp]))
  have hsucc := curPos_succ hc
  have hphase := phaseAfterBit_eq hc
  have hne : phaseAfterBit s ≠ .decWalk := by rw [hphase]; split_ifs <;> simp
  exact { packBit_inv h (nextCodeBit s) hh with
    codeBound := by simpa [emitBit, hsucc] using ⟨hc, h.codeBound.2⟩
    emitting := by
      simp only [emitBit, hphase, hsucc, packBit_curLen]
      split_ifs <;> simp; omega
    walking := fun e => absurd e hne
    rooted := fun e => absurd e hne
    undecided := by simp [emitBit, hd, he] }

/-- The walk goes on at an index of NODE whose word is INTERNAL, or at a root that is a LEAF (R244). -/
theorem movePtr_inv (h : StateInv s) {idx : NodeIdx} (hi : idx.toNat < Config.nodeCount)
    (hw : isInternal (nodeWord s idx) = true ∨ (idx = s.root ∧ isLeaf (nodeWord s s.root) = true)) : StateInv { s with ptr := idx } :=
  { h with
    ptrBound := hi
    walking := fun _ => hw }

theorem EngineMove.keepsInv {t : State} (m : EngineMove s t) (h : StateInv s) : StateInv t := by
  have hrun : s.phase ≠ .idle → s.done = false ∧ s.err = false := fun hp => h.undecided ((busy_eq_true_iff s).mpr hp)
  cases m with
  | stay => exact h
  | fetchByte hp hq => exact fetchCode_inv (popIn_inv h hq) hp _ false
  | fetchEnd hp hq he => exact fetchCode_inv h hp _ true
  | emit hp hh hc => exact emitBit_inv h hp hh hc
  | padded hp h0 => exact jobDone_inv h (hrun (by simp [hp])).2
  | pad hp h0 hh => exact packBit_inv h false hh
  | truncated hp ha he => exact raiseError_inv h _ (by decide) (hrun (by simp [hp])).1
  | badNode idx hp ha => exact raiseError_inv (consumeBit_inv h ha) _ (by decide) (by simpa using (hrun (by simp [hp])).1)
  | badCode hp ha => exact raiseError_inv (consumeBit_inv h ha) _ (by decide) (by simpa using (hrun (by simp [hp])).1)
  | endOfStream hp ha =>
    have hk : StateInv { consumeBit s with icnt := 0#4 } := { consumeBit_inv h ha with icntBound := by simp }
    exact jobDone_inv hk (by simpa using (hrun (by simp [hp])).2)
  | leaf sym hp ha hf =>
    have hk : StateInv (pushOut (sym.setWidth 8) (consumeBit s)) :=
      pushOut_inv (consumeBit_inv h ha) _ (by simpa [outqFull] using hf)
    refine movePtr_inv hk h.rootBound ?_
    have hn : (pushOut (sym.setWidth 8) (consumeBit s)).node = s.node := by simp
    simpa [nodeWord_congr hn] using h.rooted hp
  | inner hp ha hi hv =>
    refine movePtr_inv (consumeBit_inv h ha) hi (.inl ?_)
    rw [nodeWord_congr (s := s) (by simp)]
    exact isInternal_of_nodeView hv

/-- R49 along every step. -/
theorem StepMove.keepsInv {t : State} (m : StepMove s t) (h : StateInv s) : StateInv t := by
  cases m with
  | alone hp m => exact m.keepsInv h
  | engine hp m => exact m.keepsInv (takeEvent_inv h _)
  | host hp m => exact m.keepsInv (takeEvent_inv h _)
  | reset hp => exact resetBlock_inv _

end

/-! ### Under the invariant every step answers a next state -/

/-- The step answers a next state: no fault, no refusal. -/
def GoesOn (r : Result) : Prop := ∃ t, r = .next t

@[simp] theorem goesOn_next (t : State) : GoesOn (.next t) := ⟨t, rfl⟩

/-- A command goes on from every state whose ROOT is a node index (R28). -/
theorem exec_goesOn {s : State} (h : s.root.toNat < Config.nodeCount) (i : Instr) : GoesOn (exec i s) := by
  cases i with
  | nop => exact goesOn_next _
  | clear => exact goesOn_next _
  | ldcode sym len => simp only [exec, execLdcode]; split_ifs <;> exact goesOn_next _
  | rdcode sym => simp only [exec, execRdcode]; split_ifs <;> exact goesOn_next _
  | ldnode idx => simp only [exec, execLdnode]; split_ifs <;> exact goesOn_next _
  | rdnode idx => simp only [exec, execRdnode]; split_ifs <;> exact goesOn_next _
  | setroot idx => simp only [exec, execSetroot]; split_ifs <;> exact goesOn_next _
  | encode => exact goesOn_next _
  | decode =>
    have hn : nodeAt s s.root = some (nodeWord s s.root) := (nodeAt_eq_some_iff _ _ _).mpr ⟨h, rfl⟩
    simp only [exec, execDecode, hn]
    split_ifs <;> exact goesOn_next _
  | abort => simp only [exec, execAbort]; split_ifs <;> exact goesOn_next _

theorem cmdWrite_goesOn {s : State} (h : s.root.toNat < Config.nodeCount) (w : Word) : GoesOn (cmdWrite w s) := by
  unfold cmdWrite runCommand
  split
  · exact goesOn_next _
  · split
    · exact exec_goesOn (s := acceptClear s) h _
    · exact goesOn_next _

theorem hostStep_goesOn {s : State} (h : s.root.toNat < Config.nodeCount) (a : Access) : GoesOn (hostStep a s) := by
  cases a with
  | read off size => exact goesOn_next _
  | write off size v =>
    simp only [hostStep, busWrite]
    split
    next r hr =>
      cases r
      case cmd => exact cmdWrite_goesOn h v
      all_goals exact goesOn_next _
    · exact goesOn_next _

section
variable {s : State} (h : StateInv s)
include h

/-- Under the invariant no node word is of the reserved KIND, so the walk reaches any index of NODE (R101). -/
theorem walkTo_goesOn {idx : NodeIdx} (hi : idx.toNat ≤ 512) : GoesOn (walkTo idx s) := by
  have hn : nodeAt s idx = some (nodeWord s idx) := (nodeAt_eq_some_iff _ _ _).mpr ⟨Nat.lt_succ_of_le hi, rfl⟩
  rcases nodeView_of_legal _ (nodeWord_legal h idx) with hv | ⟨sym, hv, -⟩ | ⟨zero, one, hv, -⟩ <;> simp only [walkTo, hn, hv]
  · exact goesOn_next _
  · split_ifs <;> exact goesOn_next _
  · exact goesOn_next _

theorem walkBit_goesOn : GoesOn (walkBit s) := by
  have hn : nodeAt s s.ptr = some (nodeWord s s.ptr) := (nodeAt_eq_some_iff _ _ _).mpr ⟨h.ptrBound, rfl⟩
  rcases nodeView_of_legal _ (nodeWord_legal h s.ptr) with hv | ⟨sym, hv, -⟩ | ⟨zero, one, hv, hz, ho⟩ <;>
    simp only [walkBit, hn, hv]
  · exact goesOn_next _
  · split_ifs
    · exact goesOn_next _
    · exact walkTo_goesOn h (Nat.le_of_lt_succ h.ptrBound)
  · exact walkTo_goesOn h (by split_ifs <;> assumption)

theorem engineStep_goesOn : GoesOn (engineStep s) := by
  unfold engineStep
  split
  · exact goesOn_next _
  · unfold stepEncFetch
    split
    · exact goesOn_next _
    · split_ifs <;> exact goesOn_next _
  next hp =>
    rw [stepEncEmit, if_pos (⟨h.emitting hp, h.codeBound.2⟩ : _ ∧ _)]
    split_ifs <;> exact goesOn_next _
  · unfold stepEncPad
    split_ifs <;> exact goesOn_next _
  · rw [stepDecWalk, if_neg (Nat.not_lt.mpr h.icntBound)]
    split_ifs
    · exact goesOn_next _
    · exact goesOn_next _
    · exact walkBit_goesOn h

/-- The three faults stand only in states without the invariant (R49; log entry 7). -/
theorem step_goesOn : GoesOn (step s) := by
  match hp : s.pending with
  | [] => rw [step_of_no_event hp]; exact engineStep_goesOn h
  | .host a :: rest => rw [step_of_pending hp]; exact hostStep_goesOn (s := takeEvent rest s) h.rootBound a
  | .engine :: rest => rw [step_of_pending hp]; exact engineStep_goesOn (takeEvent_inv h rest)
  | .reset :: rest => rw [step_of_pending hp]; exact goesOn_next _

end

/-! ### Who may change the tables, CTRL and the operand registers -/

/-- What the engine never writes: the tables, CTRL and the operand registers (R22, R46, R60, R74). -/
structure HostOwned (s t : State) : Prop where
  ct   : t.ct = s.ct
  node : t.node = s.node
  root : t.root = s.root
  ctrl : t.ctrl = s.ctrl
  arg0 : t.arg0 = s.arg0
  arg1 : t.arg1 = s.arg1
  arg2 : t.arg2 = s.arg2

theorem fetchCode_hostOwned (sym : Symbol) (last : Bool) (s : State) : HostOwned s (fetchCode sym last s) := by
  by_cases h0 : (codeAt s sym).len = 0#7
  · rw [fetchCode_absent sym last s h0]; constructor <;> simp
  · rw [fetchCode_present sym last s h0]; constructor <;> rfl

theorem EngineMove.hostOwned {s t : State} (m : EngineMove s t) : HostOwned s t := by
  cases m with
  | fetchByte hp hq => exact { fetchCode_hostOwned _ false { s with inq := _ } with }
  | fetchEnd hp hq he => exact fetchCode_hostOwned _ true s
  | emit hp hh hc => constructor <;> simp [emitBit]
  | _ => constructor <;> simp

/-- CLEAR and LDCODE alone write CT, CLEAR and LDNODE NODE, CLEAR and SETROOT ROOT (R161, R164, R166, R168). -/
theorem CommandMove.tables {s t : State} {i : Instr} (m : CommandMove s i t) :
    (t.ct = s.ct ∨ i = .clear ∨ ∃ sym len, i = .ldcode sym len) ∧
    (t.node = s.node ∨ i = .clear ∨ ∃ idx, i = .ldnode idx) ∧
    (t.root = s.root ∨ i = .clear ∨ ∃ idx, i = .setroot idx) := by
  cases m <;> simp

/-- No command writes CTRL; RDCODE alone writes ARG0-ARG2, and RDNODE ARG0 (R165, R167). -/
theorem CommandMove.operands {s t : State} {i : Instr} (m : CommandMove s i t) :
    t.ctrl = s.ctrl ∧
    (t.arg0 = s.arg0 ∨ (∃ sym, i = .rdcode sym) ∨ ∃ idx, i = .rdnode idx) ∧
    (t.arg1 = s.arg1 ∨ ∃ sym, i = .rdcode sym) ∧
    (t.arg2 = s.arg2 ∨ ∃ sym, i = .rdcode sym) := by
  cases m <;> simp

/-- Only a command that is accepted while no job runs changes the tables: ABORT, which is accepted always, does not (R130, R169). -/
theorem HostMove.tables {s t : State} {a : Access} (m : HostMove s a t) :
    (t.ct = s.ct ∧ t.node = s.node ∧ t.root = s.root) ∨
    ∃ w i, a = wr .cmd w ∧ busy s = false ∧ decodeCmd w = .ok i ∧ CommandMove (acceptClear s) i t := by
  cases m with
  | @command w i _ hb hd m =>
    rcases hb with hb | rfl
    · exact .inr ⟨w, i, rfl, hb, hd, m⟩
    · exact .inl (by simpa using m.tables)
  | _ => exact .inl (by simp [badCommand])

/-- A host access changes at most the one operand register it names, or is a command (R22, R46). -/
theorem HostMove.operands {s t : State} {a : Access} (m : HostMove s a t) :
    (t.ctrl ≠ s.ctrl → ∃ v, a = wr .ctrl v) ∧
    (t.arg0 ≠ s.arg0 → ∃ v, a = wr .arg0 v ∨
      (a = wr .cmd v ∧ ((∃ sym, decodeCmd v = .ok (.rdcode sym)) ∨ ∃ idx, decodeCmd v = .ok (.rdnode idx)))) ∧
    (t.arg1 ≠ s.arg1 → ∃ v, a = wr .arg1 v ∨ (a = wr .cmd v ∧ ∃ sym, decodeCmd v = .ok (.rdcode sym))) ∧
    (t.arg2 ≠ s.arg2 → ∃ v, a = wr .arg2 v ∨ (a = wr .cmd v ∧ ∃ sym, decodeCmd v = .ok (.rdcode sym))) := by
  cases m with
  | @command w i _ hb hd m =>
    obtain ⟨hctrl, h0, h1, h2⟩ := m.operands
    refine ⟨fun hne => absurd hctrl hne, fun hne => ⟨w, .inr ⟨rfl, ?_⟩⟩, fun hne => ⟨w, .inr ⟨rfl, ?_⟩⟩,
      fun hne => ⟨w, .inr ⟨rfl, ?_⟩⟩⟩
    · simpa [hd] using h0.resolve_left hne
    · simpa [hd] using h1.resolve_left hne
    · simpa [hd] using h2.resolve_left hne
  | ctrl v => exact ⟨fun _ => ⟨v, rfl⟩, by simp⟩
  | arg0 v => exact ⟨by simp, fun _ => ⟨v, .inl rfl⟩, by simp⟩
  | arg1 v => exact ⟨by simp, by simp, fun _ => ⟨v, .inl rfl⟩, by simp⟩
  | arg2 v => exact ⟨by simp, by simp, by simp, fun _ => ⟨v, .inl rfl⟩⟩
  | _ => simp [badCommand]

/-- A step other than reset leaves what the host owns as it is, or is a host access. -/
theorem step_hostOwned {s t : State} (h : step s = .next t) (hr : ∀ rest, s.pending ≠ .reset :: rest) :
    HostOwned s t ∨ ∃ a rest, s.pending = .host a :: rest ∧ HostMove (takeEvent rest s) a t := by
  cases step_move h with
  | alone hp m => exact .inl m.hostOwned
  | engine hp m => exact .inl { m.hostOwned with }
  | host hp m => exact .inr ⟨_, _, hp, m⟩
  | reset hp => exact absurd hp (hr _)

/-! ### The obligations -/

/-- Settles O3: a step answers a next state, and every move keeps the invariant. -/
theorem everyStepGoesOnAndKeepsTheInvariant : Obligations.EveryStepGoesOnAndKeepsTheInvariant := by
  intro s h
  obtain ⟨t, ht⟩ := step_goesOn h
  exact ⟨t, ht, (step_move ht).keepsInv h⟩

/-- Settles O35: the engine writes no table, and of the host's accesses only an accepted command does. -/
theorem tablesChangeOnlyByTheirCommands : Obligations.TablesChangeOnlyByTheirCommands := by
  intro s t h hr
  rcases step_hostOwned h hr with k | ⟨a, rest, hp, m⟩
  · simp [k.ct, k.node, k.root]
  rcases m.tables with ⟨hct, hnode, hroot⟩ | ⟨w, i, rfl, hb, hd, m⟩
  · simp_all
  obtain ⟨hct, hnode, hroot⟩ := m.tables
  refine ⟨fun hne => ⟨w, rest, hp, hb, ?_⟩, fun hne => ⟨w, rest, hp, hb, ?_⟩, fun hne => ⟨w, rest, hp, hb, ?_⟩⟩
  · simpa [hd] using hct.resolve_left hne
  · simpa [hd] using hnode.resolve_left hne
  · simpa [hd] using hroot.resolve_left hne

/-- Settles O4: every command that writes a table needs an idle engine, by O35. -/
theorem tablesStayFixedWhileAJobRuns : Obligations.TablesStayFixedWhileAJobRuns := by
  intro s t hb hr h
  obtain ⟨hct, hnode, hroot⟩ := tablesChangeOnlyByTheirCommands s t h hr
  have hidle : ¬busy s = false := by simp [hb]
  refine ⟨of_not_not fun hne => ?_, of_not_not fun hne => ?_, of_not_not fun hne => ?_⟩
  · obtain ⟨_, _, _, hf, _⟩ := hct hne; exact hidle hf
  · obtain ⟨_, _, _, hf, _⟩ := hnode hne; exact hidle hf
  · obtain ⟨_, _, _, hf, _⟩ := hroot hne; exact hidle hf

/-- Settles O36: the engine writes none of the four, and a host access only the one it names. -/
theorem controlAndOperandsChangeOnlyAsStated : Obligations.ControlAndOperandsChangeOnlyAsStated := by
  intro s t h hr
  rcases step_hostOwned h hr with k | ⟨a, rest, hp, m⟩
  · simp [k.ctrl, k.arg0, k.arg1, k.arg2]
  obtain ⟨hctrl, h0, h1, h2⟩ := m.operands
  refine ⟨fun hne => ?_, fun hne => ?_, fun hne => ?_, fun hne => ?_⟩
  · obtain ⟨v, rfl⟩ := hctrl hne; exact ⟨v, rest, hp⟩
  · obtain ⟨v, hv⟩ := h0 hne; exact ⟨v, rest, by simpa [hp] using hv⟩
  · obtain ⟨v, hv⟩ := h1 hne; exact ⟨v, rest, by simpa [hp] using hv⟩
  · obtain ⟨v, hv⟩ := h2 hne; exact ⟨v, rest, by simpa [hp] using hv⟩

/-- Settles O34: DONE and ERR exclude each other, and the acknowledgement clears both. -/
theorem irqIsOneEnabledFlag : Obligations.IrqIsOneEnabledFlag := by
  intro s h
  refine ⟨?_, fun v h1 h2 => ?_⟩
  · have hone := h.oneOutcome
    cases hd : s.done <;> cases he : s.err <;> simp_all [irq, ieDone, ieErr]
  · simp only [irq, statusWrite, h1, h2]
    simp

/-- Settles O2: the reset state is what reset makes of it. -/
theorem resetStateMeetsTheInvariant : Obligations.ResetStateMeetsTheInvariant := resetBlock_inv State.reset

/-- Settles O24: NODE has no word at such a ROOT. -/
theorem decodeStopsOnARootThatIsNoNode : Obligations.DecodeStopsOnARootThatIsNoNode := by
  intro s h
  have hn : nodeAt s s.root = none := if_neg (Nat.not_lt.mpr h)
  simp only [exec, execDecode, hn]

/-- Settles O59: each row of the map gives its register's own offset. -/
theorem theRegisterMapIsAtItsOffsets : Obligations.TheRegisterMapIsAtItsOffsets := by
  intro p hp v s
  have hoff : p.2 = regOffset p.1 := by revert p; decide
  rw [hoff]
  exact ⟨rfl, rfl, hostStep_rd p.1 s, hostStep_wr p.1 v s⟩

end Sys2Proof.Machine
end

section
/-! PROOFS of the family 20_memory: which accesses reach a register, which bus addresses are the block's, and where each bit of the packed
stream stands. -/

namespace Sys2Proof.Machine

/-! ### Accesses that reach no register -/

/-- Every register stands at a multiple of 4 (register map). -/
theorem regOffset_aligned (r : Reg) : (regOffset r).toNat % 4 = 0 := by
  cases r <;> rfl

/-- An access that is no aligned 32-bit one reaches no register (R64). -/
theorem regAt_eq_none {off : BitVec 6} {size : Nat} (h : ¬(off.toNat % 4 = 0 ∧ size = 4)) : regAt off size = none :=
  Option.eq_none_iff_forall_ne_some.mpr fun r hr => by
    obtain ⟨rfl, rfl⟩ := regAt_eq_some hr
    exact h ⟨regOffset_aligned r, rfl⟩

theorem busRead_of_regAt_none {off : BitVec 6} {size : Nat} (h : regAt off size = none) (s : State) :
    busRead off size s = reply 0#32 s := by
  simp [busRead, h]

theorem busWrite_of_regAt_none {off : BitVec 6} {size : Nat} (h : regAt off size = none) (v : Word) (s : State) :
    busWrite off size v s = .next s := by
  simp [busWrite, h]

/-! ### The window -/

/-- HUF_BASE is a multiple of 64 (R61). -/
theorem hufBase_aligned : Config.hufBase % 64 = 0 := Nat.mul_mod_right _ _

/-- A bus address in the 64 bytes from HUF_BASE has an offset in the window (R61). -/
theorem windowOffset_of_inside {a : Nat} (h : Config.hufBase ≤ a ∧ a - Config.hufBase ≤ 0x3F) :
    windowOffset a = some (BitVec.ofNat 6 (a - Config.hufBase)) :=
  if_pos ⟨h.1, Nat.lt_succ_of_le h.2⟩

/-- A bus address elsewhere has none (R61). -/
theorem windowOffset_of_outside {a : Nat} (h : ¬(Config.hufBase ≤ a ∧ a - Config.hufBase ≤ 0x3F)) : windowOffset a = none :=
  if_neg fun hin => h ⟨hin.1, Nat.le_of_lt_succ hin.2⟩

/-- The offset of a bus address is its distance from HUF_BASE (R61). -/
theorem windowOffset_eq_some_iff (a : Nat) (off : BitVec 6) :
    windowOffset a = some off ↔ Config.hufBase ≤ a ∧ a - Config.hufBase ≤ 0x3F ∧ off.toNat = a - Config.hufBase := by
  by_cases h : Config.hufBase ≤ a ∧ a - Config.hufBase ≤ 0x3F
  · have hoff : (BitVec.ofNat 6 (a - Config.hufBase)).toNat = a - Config.hufBase :=
      Nat.mod_eq_of_lt (Nat.lt_succ_of_le h.2)
    rw [windowOffset_of_inside h, Option.some_inj, ← BitVec.toNat_inj, hoff]
    exact ⟨fun e => ⟨h.1, h.2, e.symm⟩, fun e => e.2.2.symm⟩
  · rw [windowOffset_of_outside h]
    exact ⟨nofun, fun e => absurd ⟨e.1, e.2.1⟩ h⟩

/-! ### The places of the stream's bits -/

/-- Bit 8k+j of the stream is the j-th bit that byte k carries (R63). -/
theorem streamBits_getElem? (m : Bool) {bytes : List Byte} {k j : Nat} {b : Byte} (hb : bytes[k]? = some b) (hj : j < 8) :
    (streamBits m bytes)[8 * k + j]? = some (b.getLsbD (bitPlace m j)) := by
  induction bytes generalizing k with
  | nil => simp at hb
  | cons c bs ih =>
    rw [streamBits_cons]
    cases k with
    | zero =>
      obtain rfl : c = b := by simpa using hb
      rw [List.getElem?_append_left (by simp; omega), Nat.mul_zero, Nat.zero_add, byteBits_getElem? m c j hj]
    | succ k =>
      have hi : 8 * (k + 1) + j - (byteBits m c).length = 8 * k + j := by simp; omega
      rw [List.getElem?_append_right (by simp; omega), hi]
      exact ih (by simpa using hb)

/-- The packer's bits fill its byte from the stream's first place on (R43, R63). -/
theorem partialBits_getElem? (s : State) {j : Nat} (hj : j < s.ocnt.toNat) :
    (partialBits s)[j]? = some (s.oacc.getLsbD (bitPlace s.msbfL j)) := by
  have := s.ocnt.isLt
  rw [partialBits, List.getElem?_take_of_lt hj, byteBits_getElem? _ _ _ (by omega)]

/-- The unpacker's bits are the last that its byte carries (R44, R63). -/
theorem heldBits_getElem? (s : State) (h8 : s.icnt.toNat ≤ 8) {j : Nat} (hj : j < s.icnt.toNat) :
    (heldBits s)[j]? = some (s.iacc.getLsbD (bitPlace s.msbfL (8 - s.icnt.toNat + j))) := by
  rw [heldBits, List.getElem?_drop, byteBits_getElem? _ _ _ (by omega)]

/-- The unpacker holds ICNT bits (R44). -/
theorem heldBits_length (s : State) (h8 : s.icnt.toNat ≤ 8) : (heldBits s).length = s.icnt.toNat := by
  simp [heldBits]
  omega

/-- The place of the unpacker's j-th bit, counted with MSBF_L = 1 from the last bit of its byte (R63). -/
theorem bitPlace_held (m : Bool) {n j : Nat} (h8 : n ≤ 8) (hj : j < n) :
    bitPlace m (8 - n + j) = if m then n - 1 - j else 8 - n + j := by
  have : 7 - (8 - n + j) = n - 1 - j := by omega
  rw [bitPlace, this]

/-- The queued bits are the first of the packed ones (R43). -/
theorem packedBits_getElem?_queued (s : State) {i : Nat} (hi : i < 8 * s.outq.length) :
    (packedBits s)[i]? = (streamBits s.msbfL s.outq)[i]? :=
  List.getElem?_append_left (by simpa using hi)

/-- The packer's bits follow the queued ones (R43). -/
theorem packedBits_getElem?_partial (s : State) (j : Nat) :
    (packedBits s)[8 * s.outq.length + j]? = (partialBits s)[j]? := by
  rw [packedBits, List.getElem?_append_right (by simp), streamBits_length, Nat.add_sub_cancel_left]

/-- The held bits are the first of those to consume (R44). -/
theorem inputBits_getElem?_held (s : State) (h8 : s.icnt.toNat ≤ 8) {j : Nat} (hj : j < s.icnt.toNat) :
    (inputBits s)[j]? = (heldBits s)[j]? :=
  List.getElem?_append_left (by rwa [heldBits_length s h8])

/-- The bits of INQ follow the held ones (R44). -/
theorem inputBits_getElem?_queued (s : State) (h8 : s.icnt.toNat ≤ 8) (i : Nat) :
    (inputBits s)[s.icnt.toNat + i]? = (streamBits s.msbfL s.inq)[i]? := by
  rw [inputBits, ← heldBits_length s h8, List.getElem?_append_right (Nat.le_add_right _ _), Nat.add_sub_cancel_left]

/-! ### The obligations -/

/-- Settles O25: such an access reaches no register, so a read replies 0 and a write does nothing. -/
theorem otherAccessesAreInert : Obligations.OtherAccessesAreInert := by
  intro s off size v rest h
  have hnone := regAt_eq_none h
  refine ⟨fun hp => ?_, fun hp => ?_⟩
  · rw [step_of_pending hp, eventStep, hostStep, busRead_of_regAt_none hnone]
    rfl
  · rw [step_of_pending hp, eventStep, hostStep, busWrite_of_regAt_none hnone]
    rfl

/-- Settles O60: each bit lies in a queued byte or in the partial byte, by its position. -/
theorem theStreamCarriesItsBitsInOrder : Obligations.TheStreamCarriesItsBitsInOrder := by
  refine ⟨fun bytes k j b hb hj => ⟨streamBits_getElem? false hb hj, streamBits_getElem? true hb hj⟩, fun s h8 => ?_⟩
  refine ⟨fun i hi => packedBits_getElem?_queued s hi, fun j hj => ?_, packedBits_length s, fun j hj => ?_,
    fun i _ => inputBits_getElem?_queued s h8 i, inputBits_length s h8⟩
  · rw [packedBits_getElem?_partial, partialBits_getElem? s hj, bitPlace]
  · rw [inputBits_getElem?_held s h8 hj, heldBits_getElem? s h8 hj, bitPlace_held _ h8 hj]

/-- Settles O33: the offset is there exactly in the window, and what the host issues follows it. -/
theorem onlyTheWindowIsTheBlocks : Obligations.OnlyTheWindowIsTheBlocks := by
  refine ⟨hufBase_aligned, windowOffset_eq_some_iff, fun a size v s => ⟨fun h => ?_, fun h => ?_⟩⟩
  · simp [issueRead, issueWrite, windowOffset_of_inside h]
  · simp [issueRead, issueWrite, windowOffset_of_outside h]

end Sys2Proof.Machine
end

section
/-! PROOFS of the family 30_encoding: words as fields laid side by side; the decoder and the encoder are inverse to each other, the legal
node words are the three kinds, and a code's numeral spells the code. -/

namespace Sys2Proof.Machine

/-! ### Words as fields laid side by side -/

/-- A field of a field is a field (the library says it for an outer field at bit 0 only). -/
theorem extractLsb'_extractLsb' {w n : Nat} (v : BitVec w) (lo lo' k : Nat) (h : lo' + k ≤ n) :
    (v.extractLsb' lo n).extractLsb' lo' k = v.extractLsb' (lo + lo') k := by
  ext i hi
  have : lo' + i < n := by omega
  simp [this, Nat.add_assoc]

/-- Two fields side by side are a word that holds each in its place; the widths are named, since 32 is no sum on its face. -/
theorem eq_append_iff (n m : Nat) {w : BitVec (n + m)} {a : BitVec n} {b : BitVec m} :
    w = a ++ b ↔ w.extractLsb' m n = a ∧ w.extractLsb' 0 m = b := by
  constructor
  · rintro rfl
    exact ⟨BitVec.extractLsb'_append_eq_left, BitVec.extractLsb'_append_eq_right⟩
  · rintro ⟨rfl, rfl⟩
    rw [BitVec.extractLsb'_append_extractLsb'_eq_extractLsb' (Nat.zero_add m).symm, BitVec.extractLsb'_eq_self]

/-- The same for three fields. -/
theorem eq_append_append_iff (k n m : Nat) {w : BitVec (k + n + m)} {a : BitVec k} {b : BitVec n} {c : BitVec m} :
    w = a ++ b ++ c ↔ w.extractLsb' (m + n) k = a ∧ w.extractLsb' m n = b ∧ w.extractLsb' 0 m = c := by
  rw [eq_append_iff, eq_append_iff, extractLsb'_extractLsb' _ _ _ _ (by omega),
    extractLsb'_extractLsb' _ _ _ _ (by omega), Nat.add_zero, and_assoc]

/-- Filling the clear low bits of a word with a field. -/
theorem append_zero_or_setWidth {n m : Nat} (x : BitVec n) (y : BitVec m) : (x ++ 0#m) ||| y.setWidth (n + m) = x ++ y := by
  ext i hi
  by_cases h : i < m
  · simp [BitVec.getElem_append, h]
  · simp [BitVec.getElem_append, h, BitVec.getLsbD_of_ge y i (by omega)]

/-- A shift to the left leaves clear bits below. -/
theorem setWidth_shiftLeft {n m l : Nat} (y : BitVec l) : y.setWidth (n + m) <<< m = y.setWidth n ++ 0#m := by
  ext i hi
  by_cases h : i < m <;> simp [BitVec.getElem_append, h]

/-- Filling two fields of a word whose bits below `x` are clear. -/
theorem append_zero_or_shiftLeft_or {k n m : Nat} (x : BitVec k) (y : BitVec n) (z : BitVec m) :
    (x ++ 0#n ++ 0#m) ||| (y.setWidth (k + n + m) <<< m) ||| z.setWidth (k + n + m) = x ++ y ++ z := by
  rw [setWidth_shiftLeft, BitVec.or_append, append_zero_or_setWidth, BitVec.or_self, append_zero_or_setWidth]

/-- The mask of a field finds it clear exactly when it is 0. -/
theorem and_mask_eq_zero_iff (k n m : Nat) {w : BitVec (k + n + m)} :
    w &&& (0#k ++ BitVec.allOnes n ++ 0#m) = 0#(k + n + m) ↔ w.extractLsb' m n = 0#n := by
  obtain ⟨h1, h2, h3⟩ := (eq_append_append_iff k n m (a := 0#k) (b := BitVec.allOnes n) (c := 0#m)).mp rfl
  rw [← BitVec.zero_append_zero, ← BitVec.zero_append_zero, eq_append_append_iff]
  simp [BitVec.extractLsb'_and, h1, h2, h3]

/-! ### The four formats (R91) -/

/-- A word of format N. -/
def wordN (op : BitVec 4) : Word := op ++ 0#28

/-- A word of format S. -/
def wordS (op : BitVec 4) (sym : Symbol) : Word := op ++ 0#19 ++ sym

/-- A word of format L; SYM with the reserved bits above it is one field of 16 bits, as in the encoder's sum. -/
def wordL (op : BitVec 4) (len : BitVec 7) (sym : Symbol) : Word := op ++ 0#5 ++ len ++ (0#7 ++ sym)

/-- A word of format I. -/
def wordI (op : BitVec 4) (idx : NodeIdx) : Word := op ++ 0#18 ++ idx

theorem reservedClear_n_iff (w : Word) : reservedClear .n w = true ↔ wordField w 0 28 = 0#28 :=
  beq_iff_eq.trans (and_mask_eq_zero_iff 4 28 0)

theorem reservedClear_s_iff (w : Word) : reservedClear .s w = true ↔ wordField w 9 19 = 0#19 :=
  beq_iff_eq.trans (and_mask_eq_zero_iff 4 19 9)

theorem reservedClear_i_iff (w : Word) : reservedClear .i w = true ↔ wordField w 10 18 = 0#18 :=
  beq_iff_eq.trans (and_mask_eq_zero_iff 4 18 10)

theorem reservedClear_l_iff (w : Word) : reservedClear .l w = true ↔ wordField w 23 5 = 0#5 ∧ wordField w 9 7 = 0#7 := by
  have hmask : reservedBits .l = 0x0F800000#32 ||| 0x0000FE00#32 := rfl
  rw [reservedClear, beq_iff_eq, hmask, BitVec.and_or_distrib_left, BitVec.or_eq_zero_iff]
  exact and_congr (and_mask_eq_zero_iff 4 5 23) (and_mask_eq_zero_iff 16 7 9)

theorem eq_wordN_iff {w : Word} {op : BitVec 4} : w = wordN op ↔ opOf w = op ∧ reservedClear .n w = true := by
  rw [reservedClear_n_iff]
  exact eq_append_iff 4 28

theorem eq_wordS_iff {w : Word} {op : BitVec 4} {sym : Symbol} :
    w = wordS op sym ↔ opOf w = op ∧ reservedClear .s w = true ∧ symOf w = sym := by
  rw [reservedClear_s_iff]
  exact eq_append_append_iff 4 19 9

@[simp] theorem opOf_wordS (op : BitVec 4) (sym : Symbol) : opOf (wordS op sym) = op := (eq_wordS_iff.mp rfl).1

theorem eq_wordI_iff {w : Word} {op : BitVec 4} {idx : NodeIdx} :
    w = wordI op idx ↔ opOf w = op ∧ reservedClear .i w = true ∧ idxOf w = idx := by
  rw [reservedClear_i_iff]
  exact eq_append_append_iff 4 18 10

@[simp] theorem opOf_wordI (op : BitVec 4) (idx : NodeIdx) : opOf (wordI op idx) = op := (eq_wordI_iff.mp rfl).1

theorem eq_wordL_iff {w : Word} {op : BitVec 4} {len : BitVec 7} {sym : Symbol} :
    w = wordL op len sym ↔ opOf w = op ∧ reservedClear .l w = true ∧ symOf w = sym ∧ lenOf w = len := by
  rw [reservedClear_l_iff]
  calc w = wordL op len sym
    _ ↔ _ := eq_append_append_iff 9 7 16
    _ ↔ (opOf w = op ∧ wordField w 23 5 = 0#5) ∧ lenOf w = len ∧ wordField w 9 7 = 0#7 ∧ symOf w = sym := by
      rw [eq_append_iff 4 5, eq_append_iff 7 9]
      simp (disch := decide) only [extractLsb'_extractLsb']
      rfl
    _ ↔ _ := by tauto

@[simp] theorem opOf_wordL (op : BitVec 4) (len : BitVec 7) (sym : Symbol) : opOf (wordL op len sym) = op :=
  (eq_wordL_iff.mp rfl).1

theorem encode_ldcode (sym : Symbol) (len : BitVec 7) : encode (.ldcode sym len) = wordL 2#4 len sym := by
  have h : sym.setWidth 16 = 0#7 ++ sym := BitVec.setWidth_eq_append (by decide)
  rw [wordL, ← h]
  exact append_zero_or_shiftLeft_or (2#4 ++ 0#5) len (sym.setWidth 16)

theorem encode_rdcode (sym : Symbol) : encode (.rdcode sym) = wordS 3#4 sym :=
  append_zero_or_setWidth (3#4 ++ 0#19) sym

theorem encode_ldnode (idx : NodeIdx) : encode (.ldnode idx) = wordI 4#4 idx :=
  append_zero_or_setWidth (4#4 ++ 0#18) idx

theorem encode_rdnode (idx : NodeIdx) : encode (.rdnode idx) = wordI 5#4 idx :=
  append_zero_or_setWidth (5#4 ++ 0#18) idx

theorem encode_setroot (idx : NodeIdx) : encode (.setroot idx) = wordI 6#4 idx :=
  append_zero_or_setWidth (6#4 ++ 0#18) idx

/-! ### The decoder on the words of each format (R95) -/

section
variable {w : Word} {i : Instr}

theorem decodeCmd_of_op2 (h : opOf w = 2#4) : decodeCmd w = decodeL .ldcode w := by rw [decodeCmd, h]; rfl

theorem decodeCmd_of_op3 (h : opOf w = 3#4) : decodeCmd w = decodeS .rdcode w := by rw [decodeCmd, h]; rfl

theorem decodeCmd_of_op4 (h : opOf w = 4#4) : decodeCmd w = decodeI .ldnode w := by rw [decodeCmd, h]; rfl

theorem decodeCmd_of_op5 (h : opOf w = 5#4) : decodeCmd w = decodeI .rdnode w := by rw [decodeCmd, h]; rfl

theorem decodeCmd_of_op6 (h : opOf w = 6#4) : decodeCmd w = decodeI .setroot w := by rw [decodeCmd, h]; rfl

theorem decodeN_ok_iff_word {mk : Instr} {op : BitVec 4} (hop : opOf w = op) : decodeN mk w = .ok i ↔ w = wordN op ∧ mk = i := by
  rw [decodeN_eq_ok_iff, eq_wordN_iff, and_iff_right hop]

theorem decodeS_ok_iff_word {mk : Symbol → Instr} {op : BitVec 4} (hop : opOf w = op) :
    decodeS mk w = .ok i ↔ ∃ sym, symInRange sym = true ∧ w = wordS op sym ∧ mk sym = i := by
  rw [decodeS_eq_ok_iff]
  constructor
  · rintro ⟨hres, hs, rfl⟩
    exact ⟨_, hs, eq_wordS_iff.mpr ⟨hop, hres, rfl⟩, rfl⟩
  · rintro ⟨sym, hs, hw, rfl⟩
    obtain ⟨-, hres, rfl⟩ := eq_wordS_iff.mp hw
    exact ⟨hres, hs, rfl⟩

theorem decodeL_ok_iff_word {mk : Symbol → BitVec 7 → Instr} {op : BitVec 4} (hop : opOf w = op) :
    decodeL mk w = .ok i ↔ ∃ sym len, symInRange sym = true ∧ lenInRange len = true ∧ w = wordL op len sym ∧ mk sym len = i := by
  rw [decodeL_eq_ok_iff]
  constructor
  · rintro ⟨hres, hs, hl, rfl⟩
    exact ⟨_, _, hs, hl, eq_wordL_iff.mpr ⟨hop, hres, rfl, rfl⟩, rfl⟩
  · rintro ⟨sym, len, hs, hl, hw, rfl⟩
    obtain ⟨-, hres, rfl, rfl⟩ := eq_wordL_iff.mp hw
    exact ⟨hres, hs, hl, rfl⟩

theorem decodeI_ok_iff_word {mk : NodeIdx → Instr} {op : BitVec 4} (hop : opOf w = op) :
    decodeI mk w = .ok i ↔ ∃ idx, idxInRange idx = true ∧ w = wordI op idx ∧ mk idx = i := by
  rw [decodeI_eq_ok_iff]
  constructor
  · rintro ⟨hres, hi, rfl⟩
    exact ⟨_, hi, eq_wordI_iff.mpr ⟨hop, hres, rfl⟩, rfl⟩
  · rintro ⟨idx, hi, hw, rfl⟩
    obtain ⟨-, hres, rfl⟩ := eq_wordI_iff.mp hw
    exact ⟨hres, hi, rfl⟩

end

/-! ### Node words (R100, R101) -/

theorem eq_leafWord_iff {w : Word} {sym : Symbol} :
    w = leafWord sym ↔ nodeKind w = 1#2 ∧ wordField w 9 21 = 0#21 ∧ leafSym w = sym := by
  have h : leafWord sym = 1#2 ++ 0#21 ++ sym := append_zero_or_setWidth (1#2 ++ 0#21) sym
  rw [h]
  exact eq_append_append_iff 2 21 9

theorem eq_internalWord_iff {w : Word} {z o : NodeIdx} :
    w = internalWord z o ↔ nodeKind w = 2#2 ∧ wordField w 20 10 = 0#10 ∧ zeroChild w = z ∧ oneChild w = o := by
  have h : internalWord z o = 2#2 ++ 0#10 ++ o ++ z := append_zero_or_shiftLeft_or (2#2 ++ 0#10) o z
  rw [h]
  calc w = 2#2 ++ 0#10 ++ o ++ z
    _ ↔ _ := eq_append_append_iff 12 10 10
    _ ↔ (nodeKind w = 2#2 ∧ wordField w 20 10 = 0#10) ∧ oneChild w = o ∧ zeroChild w = z := by
      rw [eq_append_iff 2 10]
      simp (disch := decide) only [extractLsb'_extractLsb']
      rfl
    _ ↔ _ := by tauto

theorem nodeView_of_leaf {w : Word} (h : nodeKind w = 1#2) : nodeView w = .leaf (leafSym w) := by
  rw [nodeView, h]; rfl

theorem nodeView_of_internal {w : Word} (h : nodeKind w = 2#2) : nodeView w = .internal (zeroChild w) (oneChild w) := by
  rw [nodeView, h]; rfl

@[simp] theorem nodeView_leafWord (sym : Symbol) : nodeView (leafWord sym) = .leaf sym := by
  obtain ⟨hk, -, hs⟩ := eq_leafWord_iff.mp (rfl : leafWord sym = _)
  rw [nodeView_of_leaf hk, hs]

@[simp] theorem nodeView_internalWord (z o : NodeIdx) : nodeView (internalWord z o) = .internal z o := by
  obtain ⟨hk, -, hz, ho⟩ := eq_internalWord_iff.mp (rfl : internalWord z o = _)
  rw [nodeView_of_internal hk, hz, ho]

/-- NodeWordLegal by the fields of the word (R101). -/
theorem nodeWordLegal_iff (w : Word) : nodeWordLegal w = true ↔
    w = 0#32 ∨ (nodeKind w = 1#2 ∧ wordField w 9 21 = 0#21 ∧ (leafSym w).toNat ≤ 0x100) ∨
      (nodeKind w = 2#2 ∧ wordField w 20 10 = 0#10 ∧ (zeroChild w).toNat ≤ 512 ∧ (oneChild w).toNat ≤ 512) := by
  have h0 : (nodeKind w).toNat ≠ 0 → w ≠ 0#32 := by
    rintro h rfl
    exact h rfl
  simp only [← BitVec.toNat_inj (x := nodeKind w), ← symInRange_iff, ← idxInRange_iff]
  unfold nodeWordLegal
  split
  next hk => simp [hk]
  next hk => simp [hk, h0]
  next hk => simp [hk, h0, and_assoc]
  next h1 h2 h3 => simp [h0 h1, Ne.intro h2, Ne.intro h3]

/-! ### Words that are no command (R93-R96) -/

/-- Every command's word selects the command's own row of the opcode map (R94). -/
theorem row_selects_encode : ∀ i : Instr, i.row.selects (encode i) = true
  | .nop => Laws.OpcodeRow.nop
  | .clear => Laws.OpcodeRow.clear
  | .ldcode sym len => Laws.OpcodeRow.ldcode sym len
  | .rdcode sym => Laws.OpcodeRow.rdcode sym
  | .ldnode idx => Laws.OpcodeRow.ldnode idx
  | .rdnode idx => Laws.OpcodeRow.rdnode idx
  | .setroot idx => Laws.OpcodeRow.setroot idx
  | .encode => Laws.OpcodeRow.encode
  | .decode => Laws.OpcodeRow.decode
  | .abort => Laws.OpcodeRow.abort

theorem sym_le_of_decodeS {mk : Symbol → Instr} {w : Word} {i : Instr} (h : decodeS mk w = .ok i) : (symOf w).toNat ≤ 0x100 := by
  obtain ⟨-, hs, -⟩ := (decodeS_eq_ok_iff mk i w).mp h
  exact (symInRange_iff _).mp hs

theorem sym_len_le_of_decodeL {mk : Symbol → BitVec 7 → Instr} {w : Word} {i : Instr} (h : decodeL mk w = .ok i) :
    (symOf w).toNat ≤ 0x100 ∧ (lenOf w).toNat ≤ 64 := by
  obtain ⟨-, hs, hl, -⟩ := (decodeL_eq_ok_iff mk i w).mp h
  exact ⟨(symInRange_iff _).mp hs, (lenInRange_iff _).mp hl⟩

theorem idx_le_of_decodeI {mk : NodeIdx → Instr} {w : Word} {i : Instr} (h : decodeI mk w = .ok i) : (idxOf w).toNat ≤ 512 := by
  obtain ⟨-, hi, -⟩ := (decodeI_eq_ok_iff mk i w).mp h
  exact (idxInRange_iff _).mp hi

/-- A word that decodes has every operand of its opcode in range (R93, R95). -/
theorem inRange_of_decodeCmd_ok {w : Word} {i : Instr} (h : decodeCmd w = .ok i) :
    (opOf w = 2#4 ∨ opOf w = 3#4 → (symOf w).toNat ≤ 0x100) ∧ (opOf w = 2#4 → (lenOf w).toNat ≤ 64) ∧
      (opOf w = 4#4 ∨ opOf w = 5#4 ∨ opOf w = 6#4 → (idxOf w).toNat ≤ 512) := by
  have hload (hop : opOf w = 2#4) := sym_len_le_of_decodeL ((decodeCmd_of_op2 hop).symm.trans h)
  refine ⟨?_, fun hop => (hload hop).2, ?_⟩
  · rintro (hop | hop)
    · exact (hload hop).1
    · exact sym_le_of_decodeS ((decodeCmd_of_op3 hop).symm.trans h)
  · rintro (hop | hop | hop)
    · exact idx_le_of_decodeI ((decodeCmd_of_op4 hop).symm.trans h)
    · exact idx_le_of_decodeI ((decodeCmd_of_op5 hop).symm.trans h)
    · exact idx_le_of_decodeI ((decodeCmd_of_op6 hop).symm.trans h)

/-- A word that is no command fails with BAD_CMD. -/
theorem runCommand_of_no_command {w : Word} (h : ∀ i, decodeCmd w ≠ .ok i) (s : State) : runCommand w s = .next (badCommand s) := by
  unfold runCommand
  split
  next i hi => exact absurd hi (h i)
  · rfl

/-! ### Code numerals (R123, R288) -/

/-- The bits of a binary numeral, least significant first, are its digits from the last. -/
theorem testBit_foldl_digits (p : List Bool) (i : Nat) :
    (p.foldl (fun n (b : Bool) => 2 * n + b.toNat) 0).testBit i = p.reverse.getD i false := by
  induction p using List.reverseRecOn generalizing i with
  | nil => simp
  | append_singleton p b ih =>
    rw [List.foldl_concat, ← Nat.bit_val, List.reverse_concat]
    cases i with
    | zero => exact Nat.testBit_bit_zero b _
    | succ i => rw [Nat.testBit_bit_succ, ih, List.getD_cons_succ]

theorem getLsbD_codeNumeral (p : List Bool) (i : Nat) :
    (codeNumeral p).getLsbD i = (decide (i < 64) && p.reverse.getD i false) := by
  rw [codeNumeral, BitVec.getLsbD_ofNat, testBit_foldl_digits]

/-! ### The obligations -/

/-- Settles O6: the command's word is the fields of its format, and the format's decoder takes them apart. -/
theorem decodeOfEncodeIsTheCommand : Obligations.DecodeOfEncodeIsTheCommand := by
  intro i h
  cases i with
  | ldcode sym len =>
    obtain ⟨hs, hl⟩ : symInRange sym = true ∧ lenInRange len = true := (Bool.and_eq_true _ _).mp h
    rw [encode_ldcode, decodeCmd_of_op2 (opOf_wordL _ _ _)]
    exact (decodeL_ok_iff_word (opOf_wordL _ _ _)).mpr ⟨sym, len, hs, hl, rfl, rfl⟩
  | rdcode sym =>
    rw [encode_rdcode, decodeCmd_of_op3 (opOf_wordS _ _)]
    exact (decodeS_ok_iff_word (opOf_wordS _ _)).mpr ⟨sym, h, rfl, rfl⟩
  | ldnode idx =>
    rw [encode_ldnode, decodeCmd_of_op4 (opOf_wordI _ _)]
    exact (decodeI_ok_iff_word (opOf_wordI _ _)).mpr ⟨idx, h, rfl, rfl⟩
  | rdnode idx =>
    rw [encode_rdnode, decodeCmd_of_op5 (opOf_wordI _ _)]
    exact (decodeI_ok_iff_word (opOf_wordI _ _)).mpr ⟨idx, h, rfl, rfl⟩
  | setroot idx =>
    rw [encode_setroot, decodeCmd_of_op6 (opOf_wordI _ _)]
    exact (decodeI_ok_iff_word (opOf_wordI _ _)).mpr ⟨idx, h, rfl, rfl⟩
  | _ => rfl

/-- Settles O7: each opcode's format accepts only the words that the encoder makes of its operands. -/
theorem aDecodedWordIsTheCommandsWord : Obligations.ADecodedWordIsTheCommandsWord := by
  intro w i h
  unfold decodeCmd at h
  split at h
  next hop => obtain ⟨rfl, rfl⟩ := (decodeN_ok_iff_word (op := 0#4) (BitVec.eq_of_toNat_eq hop)).mp h; exact ⟨rfl, rfl⟩
  next hop => obtain ⟨rfl, rfl⟩ := (decodeN_ok_iff_word (op := 1#4) (BitVec.eq_of_toNat_eq hop)).mp h; exact ⟨rfl, rfl⟩
  next hop =>
    obtain ⟨sym, len, hs, hl, rfl, rfl⟩ := (decodeL_ok_iff_word (op := 2#4) (BitVec.eq_of_toNat_eq hop)).mp h
    exact ⟨(Bool.and_eq_true _ _).mpr ⟨hs, hl⟩, encode_ldcode sym len⟩
  next hop =>
    obtain ⟨sym, hs, rfl, rfl⟩ := (decodeS_ok_iff_word (op := 3#4) (BitVec.eq_of_toNat_eq hop)).mp h
    exact ⟨hs, encode_rdcode sym⟩
  next hop =>
    obtain ⟨idx, hi, rfl, rfl⟩ := (decodeI_ok_iff_word (op := 4#4) (BitVec.eq_of_toNat_eq hop)).mp h
    exact ⟨hi, encode_ldnode idx⟩
  next hop =>
    obtain ⟨idx, hi, rfl, rfl⟩ := (decodeI_ok_iff_word (op := 5#4) (BitVec.eq_of_toNat_eq hop)).mp h
    exact ⟨hi, encode_rdnode idx⟩
  next hop =>
    obtain ⟨idx, hi, rfl, rfl⟩ := (decodeI_ok_iff_word (op := 6#4) (BitVec.eq_of_toNat_eq hop)).mp h
    exact ⟨hi, encode_setroot idx⟩
  next hop => obtain ⟨rfl, rfl⟩ := (decodeN_ok_iff_word (op := 7#4) (BitVec.eq_of_toNat_eq hop)).mp h; exact ⟨rfl, rfl⟩
  next hop => obtain ⟨rfl, rfl⟩ := (decodeN_ok_iff_word (op := 8#4) (BitVec.eq_of_toNat_eq hop)).mp h; exact ⟨rfl, rfl⟩
  next hop => obtain ⟨rfl, rfl⟩ := (decodeN_ok_iff_word (op := 9#4) (BitVec.eq_of_toNat_eq hop)).mp h; exact ⟨rfl, rfl⟩
  · cases h

/-- Settles O9: such a word decodes to no command, since one that does selects its command's row and has its operands in range. -/
theorem outOfRangeWordsFailWithBadCmd : Obligations.OutOfRangeWordsFailWithBadCmd := by
  intro s w rest hb hp hw
  have hno : ∀ i, decodeCmd w ≠ .ok i := by
    intro i hi
    obtain ⟨hsym, hlen, hidx⟩ := inRange_of_decodeCmd_ok hi
    rcases hw with hrow | ⟨hop, hgt⟩ | ⟨hop, hgt⟩ | ⟨hop, hgt⟩
    · obtain ⟨-, rfl⟩ := aDecodedWordIsTheCommandsWord w i hi
      exact Bool.false_ne_true ((hrow _ (row_mem_opcodeMap i)).symm.trans (row_selects_encode i))
    · exact absurd (hsym hop) (Nat.not_le.mpr hgt)
    · exact absurd (hlen hop) (Nat.not_le.mpr hgt)
    · exact absurd (hidx hop) (Nat.not_le.mpr hgt)
  have hidle : s.phase = .idle := (busy_eq_false_iff s).mp hb
  rw [step_of_pending hp, eventStep, hostStep_wr, writeReg,
    cmdWrite_of_accepted (s := takeEvent rest s) (.inl hb), runCommand_of_no_command hno]
  simp [badCommand, raiseError_eq, acceptClear, takeEvent, busy, hidle]

/-- Settles O20: KIND selects the fields, and the fields with the zeros make the whole word. -/
theorem legalNodeWordsAreTheThreeKinds : Obligations.LegalNodeWordsAreTheThreeKinds := by
  refine ⟨nodeWordLegal_iff, fun w => ⟨(nodeView_empty_iff w).mpr, nodeView_of_leaf, nodeView_of_internal⟩, fun w => ?_, rfl,
    nodeView_leafWord, nodeView_internalWord⟩
  rw [nodeWordLegal_iff]
  refine or_congr_right (or_congr ?_ ?_)
  · constructor
    · rintro ⟨hk, h0, hs⟩
      exact ⟨_, hs, eq_leafWord_iff.mpr ⟨hk, h0, rfl⟩⟩
    · rintro ⟨sym, hs, hw⟩
      obtain ⟨hk, h0, rfl⟩ := eq_leafWord_iff.mp hw
      exact ⟨hk, h0, hs⟩
  · constructor
    · rintro ⟨hk, h0, hz, ho⟩
      exact ⟨_, _, hz, ho, eq_internalWord_iff.mpr ⟨hk, h0, rfl, rfl⟩⟩
    · rintro ⟨z, o, hz, ho, hw⟩
      obtain ⟨hk, h0, rfl, rfl⟩ := eq_internalWord_iff.mp hw
      exact ⟨hk, h0, hz, ho⟩

/-- Settles O54: the numeral's bits are the string's digits from the last, and emission goes from bit LEN-1 down. -/
theorem aLoadedCodeSpellsItsString : Obligations.ALoadedCodeSpellsItsString := by
  intro p hp
  have hlen : (BitVec.ofNat 7 p.length).toNat = p.length := Nat.mod_eq_of_lt (by omega)
  constructor
  · refine List.ext_getElem (by simpa using hlen) fun i _ hi => ?_
    have hrev : p.length - 1 - i < p.reverse.length := by simp; omega
    have hback : p.length - 1 - (p.length - 1 - i) = i := by omega
    have h64 : p.length - 1 - i < 64 := by omega
    simp only [codeBits_getElem, hlen]
    rw [getLsbD_codeNumeral, List.getD_eq_getElem _ _ hrev, List.getElem_reverse]
    simp [hback, h64]
  · refine (codeLegal_iff _ _).mpr fun i hi => ?_
    rw [hlen] at hi
    rw [getLsbD_codeNumeral, List.getD_eq_default _ _ (by simpa using hi), Bool.and_false]

/-- Settles O8: each word is the word of its command, and decoding it gives the command back. -/
theorem knownWordsDecode : Obligations.KnownWordsDecode :=
  have back := decodeOfEncodeIsTheCommand
  ⟨back .nop rfl, back .clear rfl, back (.ldcode 0x063#9 3#7) rfl, back (.ldcode 0x061#9 64#7) rfl, back (.rdcode 0x100#9) rfl,
    back (.ldnode 512#10) rfl, back (.rdnode 6#10) rfl, back (.setroot 7#10) rfl, back .encode rfl, back .decode rfl, back .abort rfl⟩

end Sys2Proof.Machine
end

section
/-! PROOFS of the family 40_host_access: what an aligned access to a register does, register by register; the fields of the STATUS word; and
how a step can take a running job to IDLE. -/

namespace Sys2Proof.Machine

/-! ### A step that takes an access to a register -/

section
variable {s : State} {r : Reg} {rest : List Event}

/-- A step that takes a host read of a register answers with the register's value (R121). -/
theorem step_of_rd (h : s.pending = .host (rd r) :: rest) :
    step s = .next (reply (readReg r (takeEvent rest s)).1 (readReg r (takeEvent rest s)).2) := by
  rw [step_of_pending h, eventStep, hostStep_rd]

/-- A step that takes a host write of a register has the register's effect (R121). -/
theorem step_of_wr {v : Word} (h : s.pending = .host (wr r v) :: rest) : step s = writeReg r v (takeEvent rest s) := by
  rw [step_of_pending h, eventStep, hostStep_wr]

end

/-! ### Commands (R130, R131) -/

/-- An accepted word that decodes runs its command. -/
theorem runCommand_of_command {w : Word} {i : Instr} (h : decodeCmd w = .ok i) (s : State) : runCommand w s = exec i s := by
  simp only [runCommand, h]

/-- ABORT with a job running is the error stop (R169). -/
theorem exec_abort_of_busy {s : State} (hb : busy s = true) :
    exec .abort s = .next { s with err := true, errcode := .aborted, errinfo := 0#10, phase := .idle, iend := false } := by
  rw [exec, execAbort, if_pos hb, raiseError_eq, if_pos hb]

/-! ### Writes of STATUS and IN_DATA (R134, R136) -/

/-- Write-1-to-clear on one flag (R134). -/
theorem and_not_eq_ite (flag clear : Bool) : (flag && !clear) = if clear then false else flag := by
  cases clear <;> simp

theorem inWrite_of_full {s : State} (h : s.inq.length = 16) (v : Word) : inWrite v s = { s with inovr := true } :=
  if_pos ((inqFull_iff s).mpr h)

theorem inWrite_of_room {s : State} (h : s.inq.length ≠ 16) (v : Word) :
    inWrite v s = { s with inq := s.inq ++ [v.extractLsb' 0 8] } := by
  rw [← BitVec.setWidth_eq_extractLsb' (by decide)]
  exact if_neg fun hf => h ((inqFull_iff s).mp hf)

/-! ### Reads of OUT_DATA (R138) -/

theorem outRead_of_empty {s : State} (h : s.outq = []) : outRead s = (0x00000000#32, s) := by
  simp only [outRead, h]

theorem outRead_of_cons {s : State} {b : Byte} {q : List Byte} (h : s.outq = b :: q) :
    outRead s = (0x80000000#32 ||| b.setWidth 32, { s with outq := q }) := by
  simp only [outRead, h]

/-- VALID, 23 zeros and the byte, side by side. -/
theorem validByte_eq_append (b : Byte) : 0x80000000#32 ||| b.setWidth 32 = 1#1 ++ 0#23 ++ b :=
  append_zero_or_setWidth (n := 24) (m := 8) (1#1 ++ 0#23) b

/-! ### The fields of STATUS (R23) -/

/-- The ten flags, bits 0 to 9. -/
theorem statusWord_flags (s : State) :
    (statusWord s).getLsbD 0 = busy s ∧ (statusWord s).getLsbD 1 = s.done ∧ (statusWord s).getLsbD 2 = s.err ∧
    (statusWord s).getLsbD 3 = s.cmdovr ∧ (statusWord s).getLsbD 4 = s.inovr ∧ (statusWord s).getLsbD 5 = s.iend ∧
    (statusWord s).getLsbD 6 = s.inq.isEmpty ∧ (statusWord s).getLsbD 7 = inqFull s ∧
    (statusWord s).getLsbD 8 = s.outq.isEmpty ∧ (statusWord s).getLsbD 9 = outqFull s := by
  simp only [statusWord, BitVec.getLsbD_append]
  simp

/-- The fields of several bits: MODE, ERRCODE, the counts of the FIFOs and the reserved bits. -/
theorem statusWord_fields (s : State) :
    (statusWord s).extractLsb' 10 2 = modeBits s.phase ∧ (statusWord s).extractLsb' 12 4 = errBits s.errcode ∧
    (statusWord s).extractLsb' 16 5 = BitVec.ofNat 5 s.inq.length ∧
    (statusWord s).extractLsb' 21 5 = BitVec.ofNat 5 s.outq.length ∧ (statusWord s).extractLsb' 26 6 = 0#6 := by
  simp (disch := decide) only [statusWord, BitVec.extractLsb'_append_eq_of_le, BitVec.extractLsb'_append_eq_of_add_le]
  exact ⟨BitVec.extractLsb'_eq_self, BitVec.extractLsb'_eq_self, BitVec.extractLsb'_eq_self, BitVec.extractLsb'_eq_self, rfl⟩

/-- MODE tells the phases apart as far as R23 does, and is never 11. -/
theorem modeBits_iff (p : Phase) :
    (modeBits p = 0#2 ↔ p = .idle) ∧ (modeBits p = 2#2 ↔ p = .decWalk) ∧
    (modeBits p = 1#2 ↔ p = .encFetch ∨ p = .encEmit ∨ p = .encPad) ∧ modeBits p ≠ 3#2 := by
  cases p <;> decide

/-- The count of a FIFO of at most 16 bytes fits its field. -/
theorem fifoCount_toNat {n : Nat} (h : n ≤ 16) : (BitVec.ofNat 5 n).toNat = n := Nat.mod_eq_of_lt (by omega)

/-! ### How a job ends (R141) -/

/-- An outcome is there, and IEND is clear: what R321 and R322 leave at the end of a job. -/
def HasOutcome (t : State) : Prop := t.iend = false ∧ (t.done = true ∨ t.err = true)

theorem jobDone_hasOutcome (s : State) : HasOutcome (jobDone s) := ⟨rfl, .inl rfl⟩

/-- The error stop ends the job that runs (R322). -/
theorem raiseError_hasOutcome {s : State} (hb : busy s = true) (code : ErrCode) (info : BitVec 10) :
    HasOutcome (raiseError code info s) :=
  ⟨by simp [hb], .inr (raiseError_err code info s)⟩

section
variable {s t : State}

/-- What keeps PHASE keeps the job running. -/
theorem busy_of_phase_eq (hb : busy s = true) (h : t.phase = s.phase) : busy t = true := by rwa [busy, h]

/-- Emitting a bit leads to no phase but the encoder's (R205). -/
theorem emitBit_busy (s : State) : busy (emitBit s) = true := by
  refine (busy_eq_true_iff _).mpr ?_
  show phaseAfterBit s ≠ .idle
  unfold phaseAfterBit
  split_ifs <;> decide

theorem fetchCode_running_or_hasOutcome (hb : busy s = true) (sym : Symbol) (last : Bool) :
    busy (fetchCode sym last s) = true ∨ HasOutcome (fetchCode sym last s) := by
  by_cases h0 : (codeAt s sym).len = 0#7
  · rw [fetchCode_absent sym last s h0]; exact .inr (raiseError_hasOutcome hb _ _)
  · rw [fetchCode_present sym last s h0]; exact .inl rfl

/-- A turn of the engine lets the job run on or ends it by completion or the error stop. -/
theorem EngineMove.running_or_hasOutcome (m : EngineMove s t) (hb : busy s = true) : busy t = true ∨ HasOutcome t := by
  have hconsumed : busy (consumeBit s) = true := busy_of_phase_eq hb (consumeBit_phase s)
  cases m with
  | stay => exact .inl hb
  | @fetchByte _ rest hp hq => exact fetchCode_running_or_hasOutcome (s := { s with inq := rest }) hb _ _
  | fetchEnd hp hq he => exact fetchCode_running_or_hasOutcome hb _ _
  | emit hp hh hc => exact .inl (emitBit_busy s)
  | padded hp h0 => exact .inr (jobDone_hasOutcome s)
  | pad hp h0 hh => exact .inl (busy_of_phase_eq hb (packBit_phase false s))
  | truncated hp ha he => exact .inr (raiseError_hasOutcome hb _ _)
  | badNode idx hp ha => exact .inr (raiseError_hasOutcome hconsumed _ _)
  | badCode hp ha => exact .inr (raiseError_hasOutcome hconsumed _ _)
  | endOfStream hp ha => exact .inr (jobDone_hasOutcome _)
  | leaf sym hp ha hf => exact .inl hconsumed
  | inner hp ha hi hv => exact .inl hconsumed

/-- Of the host's accesses only ABORT ends a running job: no other command is accepted (R130, R169). -/
theorem HostMove.running_or_hasOutcome {a : Access} (m : HostMove s a t) (hb : busy s = true) : busy t = true ∨ HasOutcome t := by
  cases m with
  | badWord hidle hd => exact absurd (hidle.symm.trans hb) (by decide)
  | command haccepted hd m =>
    rcases haccepted with hidle | rfl
    · exact absurd (hidle.symm.trans hb) (by decide)
    cases m with
    | error _ info hc => exact .inr (raiseError_hasOutcome (s := acceptClear s) hb _ _)
    | abort hidle => exact absurd (hidle.symm.trans hb) (by decide)
  | inData v => exact .inl (busy_of_phase_eq hb (inWrite_phase v s))
  | _ => exact .inl hb

/-- A step other than reset lets the job run on or ends it with an outcome. -/
theorem step_running_or_hasOutcome (h : step s = .next t) (hr : ∀ rest, s.pending ≠ .reset :: rest) (hb : busy s = true) :
    busy t = true ∨ HasOutcome t := by
  cases step_move h with
  | alone hp m => exact m.running_or_hasOutcome hb
  | engine hp m => exact m.running_or_hasOutcome hb
  | host hp m => exact m.running_or_hasOutcome hb
  | reset hp => exact absurd hp (hr _)

end

/-! ### The obligations -/

/-- Settles O5: a job ends by completion or the error stop, and the invariant keeps DONE and ERR apart. -/
theorem aJobEndsWithExactlyOneOutcome : Obligations.AJobEndsWithExactlyOneOutcome := by
  intro s t hinv hb hr h hidle
  obtain ⟨hiend, hout⟩ := (step_running_or_hasOutcome h hr hb).resolve_left (by simp [hidle])
  have hone := ((step_move h).keepsInv hinv).oneOutcome
  refine ⟨hiend, hout.imp (fun hd => ⟨hd, ?_⟩) (fun he => ⟨?_, he⟩)⟩
  · exact Bool.eq_false_iff.mpr fun he => hone ⟨hd, he⟩
  · exact Bool.eq_false_iff.mpr fun hd => hone ⟨hd, he⟩

/-- Settles O28: the read gives STATUS of the moment, field by field. -/
theorem statusReadsItsFields : Obligations.StatusReadsItsFields := by
  intro s rest hin hout hp
  obtain ⟨hbusy, hdone, herr, hcmdovr, hinovr, hiend, hinEmpty, hinFull, houtEmpty, houtFull⟩ := statusWord_flags s
  obtain ⟨hmode, herrcode, hinCount, houtCount, hzero⟩ := statusWord_fields s
  obtain ⟨hmode0, hmode2, hmode1, hmode3⟩ := modeBits_iff s.phase
  refine ⟨statusWord s, step_of_rd hp, ?_, hdone, herr, hcmdovr, hinovr, hiend, ?_, ?_, ?_, ?_, ?_, ?_, ?_, ?_, ?_, ?_, ?_, hzero⟩
  · rw [hbusy, busy_eq_true_iff]
  · rw [hinEmpty, List.isEmpty_iff_length_eq_zero]
  · rw [hinFull, inqFull_iff]
  · rw [houtEmpty, List.isEmpty_iff_length_eq_zero]
  · rw [houtFull, outqFull_iff]
  · rw [hmode, hmode0]
  · rw [hmode, hmode2]
  · rw [hmode, hmode1]
  · rw [hmode]; exact hmode3
  · rw [herrcode]; cases s.errcode <;> rfl
  · rw [hinCount, fifoCount_toNat hin]
  · rw [houtCount, fifoCount_toNat hout]

/-- Settles O10: the step takes the write, accepts the word and runs its command. -/
theorem stepRunsTheDecodedCommand : Obligations.StepRunsTheDecodedCommand := by
  refine ⟨fun s w i rest hd haccepted hp => ?_, fun s hp => step_of_no_event hp, fun s rest hp => step_of_pending hp⟩
  rw [step_of_wr (r := .cmd) hp, writeReg, cmdWrite_of_accepted (s := takeEvent rest s) haccepted, runCommand_of_command hd]
  rfl

/-- Settles O11: a busy block drops the word. -/
theorem commandWhileBusyIsDropped : Obligations.CommandWhileBusyIsDropped := by
  intro s w rest hb hw hp
  rw [step_of_wr hp, writeReg, cmdWrite_of_busy (s := takeEvent rest s) hb hw]
  rfl

/-- Settles O12: ABORT runs, by O10, and is the error stop of the running job. -/
theorem abortEndsARunningJob : Obligations.AbortEndsARunningJob := by
  intro s rest hb hp
  have hrun := stepRunsTheDecodedCommand.1 s 0x90000000#32 .abort rest rfl (.inr rfl) hp
  exact hrun.trans (exec_abort_of_busy (s := acceptClear (takeEvent rest s)) hb)

/-- Settles O26: the write cuts the word to three bits, the read extends them with zeros. -/
theorem ctrlHoldsItsThreeBits : Obligations.CtrlHoldsItsThreeBits := by
  intro s v rest
  refine ⟨fun hp => ⟨_, step_of_wr hp, rfl, fun i hi => ?_, ?_⟩, fun hp => ⟨s.ctrl.setWidth 32, step_of_rd hp, fun i => ?_⟩⟩
  · simp [hi]
  · simp [irq, ieDone, ieErr]
  · by_cases hi : i < 3
    · simp [hi, show i < 32 by omega]
    · simp [hi, BitVec.getLsbD_of_ge s.ctrl i (by omega)]

/-- Settles O27: each named flag is cleared where its bit is 1. -/
theorem statusWriteClearsTheNamedFlags : Obligations.StatusWriteClearsTheNamedFlags := by
  intro s v rest hp
  rw [step_of_wr hp, writeReg, statusWrite]
  simp only [and_not_eq_ite]
  rfl

/-- Settles O29: the byte is pushed where INQ has room, and dropped where it has none. -/
theorem inDataPushesOrDrops : Obligations.InDataPushesOrDrops := by
  intro s v rest hp
  refine ⟨fun h => ?_, fun h => ?_⟩
  · rw [step_of_wr hp, writeReg, inWrite_of_room (s := takeEvent rest s) h]
    rfl
  · rw [step_of_wr hp, writeReg, inWrite_of_full (s := takeEvent rest s) h]
    rfl

/-- Settles O30: IEND becomes IEND or bit 0. -/
theorem inendMarksTheEnd : Obligations.InendMarksTheEnd := by
  intro s v rest hp
  refine ⟨fun h => ?_, fun h => ?_⟩
  · rw [step_of_wr hp, writeReg, inendWrite, h, Bool.or_true]
    rfl
  · rw [step_of_wr hp, writeReg, inendWrite, h, Bool.or_false]
    rfl

/-- Settles O31: the word read holds VALID and the head, and a pop from 16 bytes leaves 15. -/
theorem outDataPopsTheHead : Obligations.OutDataPopsTheHead := by
  intro s rest hp
  constructor
  · intro hq
    rw [step_of_rd hp, readReg, outRead_of_empty (s := takeEvent rest s) hq]
    rfl
  · intro b q hq
    obtain ⟨hvalid, hzero, hbyte⟩ := (eq_append_append_iff 1 23 8).mp (validByte_eq_append b)
    refine ⟨{ s with pending := rest, outq := q, replies := s.replies ++ [0x80000000#32 ||| b.setWidth 32] }, _, ?_, rfl, ?_, hbyte,
      hzero, fun hfull => ?_⟩
    · rw [step_of_rd hp, readReg, outRead_of_cons (s := takeEvent rest s) hq]
      rfl
    · simp
    · have hroom : q.length ≠ 16 := by rw [hq, List.length_cons] at hfull; omega
      simp [packHold, outqFull, hroom]

/-- Settles O32: register by register, at the offsets of the map. -/
theorem plainRegistersReadAndWrite : Obligations.PlainRegistersReadAndWrite := by
  intro s v rest
  refine ⟨step_of_wr (r := .arg0), step_of_wr (r := .arg1), step_of_wr (r := .arg2), ?_, ?_⟩
  · simp only [List.forall_mem_cons]
    exact ⟨step_of_wr (r := .id), step_of_wr (r := .root), step_of_wr (r := .outData), step_of_wr (r := .bitcnt),
      step_of_wr (r := .bitsin), step_of_wr (r := .errinfo), step_of_wr (r := .reserved38), step_of_wr (r := .reserved3C),
      List.forall_mem_nil _⟩
  · simp only [List.forall_mem_cons]
    exact ⟨step_of_rd (r := .id), step_of_rd (r := .arg0), step_of_rd (r := .arg1), step_of_rd (r := .arg2), step_of_rd (r := .root),
      step_of_rd (r := .bitcnt), step_of_rd (r := .bitsin), step_of_rd (r := .errinfo), step_of_rd (r := .cmd), step_of_rd (r := .inData),
      step_of_rd (r := .inEnd), step_of_rd (r := .reserved38), step_of_rd (r := .reserved3C), List.forall_mem_nil _⟩

end Sys2Proof.Machine
end

section
/-! PROOFS of the family 41_table_commands: for each command and each of its outcomes the state it leaves; the tables' own laws say what is
read of that state. -/

namespace Sys2Proof.Machine

/-! ### The error stop (R322) -/

/-- The error stop with the fate of IEND told by PHASE. -/
theorem raiseError_eq_of_phase (code : ErrCode) (info : BitVec 10) (s : State) :
    raiseError code info s = { s with
      err := true, errcode := code, errinfo := info
      phase := .idle, iend := if s.phase = .idle then s.iend else false } := by
  rw [raiseError_eq]
  by_cases h : s.phase = .idle <;> simp [busy, h]

/-! ### ABORT (R169) -/

/-- ABORT with no job running completes; the other case is `exec_abort_of_busy`. -/
theorem exec_abort_of_idle {s : State} (h : busy s = false) : exec .abort s = .next (complete s) := by
  simp [exec, execAbort, h]

/-! ### Operands out of range (R93) -/

theorem symInRange_eq_false_iff (sym : Symbol) : symInRange sym = false ↔ 0x100 < sym.toNat := by
  rw [← Bool.not_eq_true, symInRange_iff, not_le]

theorem lenInRange_eq_false_iff (len : BitVec 7) : lenInRange len = false ↔ 64 < len.toNat := by
  rw [← Bool.not_eq_true, lenInRange_iff, not_le]

theorem idxInRange_eq_false_iff (idx : NodeIdx) : idxInRange idx = false ↔ 512 < idx.toNat := by
  rw [← Bool.not_eq_true, idxInRange_iff, not_le]

/-! ### LDCODE (R164) -/

/-- The code is illegal exactly when some bit at or above LEN is 1 (R102). -/
theorem codeLegal_eq_false_iff (len : BitVec 7) (code : BitVec 64) :
    codeLegal len code = false ↔ ∃ i, len.toNat ≤ i ∧ code.getLsbD i = true := by
  rw [← Bool.not_eq_true, codeLegal_iff]
  simp

section
variable {sym : Symbol} {len : BitVec 7} {s : State}

theorem exec_ldcode_of_out_of_range (h : 0x100 < sym.toNat ∨ 64 < len.toNat) :
    exec (.ldcode sym len) s = .next (raiseError .badCmd 0#10 s) := by
  rcases h with h | h
  · simp [exec, execLdcode, badCommand, (symInRange_eq_false_iff sym).mpr h]
  · simp [exec, execLdcode, badCommand, (lenInRange_eq_false_iff len).mpr h]

theorem exec_ldcode_of_illegal (hs : sym.toNat ≤ 0x100) (hl : len.toNat ≤ 64) (hc : codeLegal len (stagedCode s) = false) :
    exec (.ldcode sym len) s = .next (raiseError .badArg (sym.setWidth 10) s) := by
  simp [exec, execLdcode, (symInRange_iff sym).mpr hs, (lenInRange_iff len).mpr hl, hc]

theorem exec_ldcode_of_legal (hs : sym.toNat ≤ 0x100) (hl : len.toNat ≤ 64) (hc : codeLegal len (stagedCode s) = true) :
    exec (.ldcode sym len) s = .next (complete (setCode sym { len := len, bits := stagedCode s } s)) := by
  simp [exec, execLdcode, (symInRange_iff sym).mpr hs, (lenInRange_iff len).mpr hl, hc]

/-! ### RDCODE (R165) -/

theorem exec_rdcode_of_in_range (hs : sym.toNat ≤ 0x100) :
    exec (.rdcode sym) s = .next (complete (reportCode (codeAt s sym) s)) := by
  simp [exec, execRdcode, (symInRange_iff sym).mpr hs]

theorem reportCode_of_absent {e : CodeEntry} (h : e.len = 0#7) (s : State) :
    reportCode e s = { s with arg0 := 0#32, arg1 := 0#32, arg2 := 0#32 } :=
  if_pos h

theorem reportCode_of_present {e : CodeEntry} (h : e.len ≠ 0#7) (s : State) :
    reportCode e s = { s with arg0 := e.bits.extractLsb' 0 32, arg1 := e.bits.extractLsb' 32 32, arg2 := e.len.setWidth 32 } :=
  if_neg h

end

/-! ### LDNODE, RDNODE, SETROOT (R166-R168) -/

section
variable {idx : NodeIdx} {s : State}

theorem exec_ldnode_of_out_of_range (h : 512 < idx.toNat) : exec (.ldnode idx) s = .next (raiseError .badCmd 0#10 s) := by
  simp [exec, execLdnode, badCommand, (idxInRange_eq_false_iff idx).mpr h]

theorem exec_ldnode_of_illegal (hi : idx.toNat ≤ 512) (hw : nodeWordLegal s.arg0 = false) :
    exec (.ldnode idx) s = .next (raiseError .badArg idx s) := by
  simp [exec, execLdnode, (idxInRange_iff idx).mpr hi, hw]

theorem exec_ldnode_of_legal (hi : idx.toNat ≤ 512) (hw : nodeWordLegal s.arg0 = true) :
    exec (.ldnode idx) s = .next (complete (setNode idx s.arg0 s)) := by
  simp [exec, execLdnode, (idxInRange_iff idx).mpr hi, hw]

theorem exec_rdnode_of_in_range (hi : idx.toNat ≤ 512) :
    exec (.rdnode idx) s = .next (complete { s with arg0 := nodeWord s idx }) := by
  simp [exec, execRdnode, (idxInRange_iff idx).mpr hi]

theorem exec_setroot_of_in_range (hi : idx.toNat ≤ 512) :
    exec (.setroot idx) s = .next (complete { s with root := idx }) := by
  simp [exec, execSetroot, (idxInRange_iff idx).mpr hi]

end

/-! ### The obligations -/

/-- Settles O15: the write of CT is read back at its symbol and nowhere else. -/
theorem ldcodeStoresTheStagedCode : Obligations.LdcodeStoresTheStagedCode := by
  intro sym len s hwf hs hl hbits
  have hlegal : codeLegal len (stagedCode s) = true := (codeLegal_iff _ _).mpr hbits
  exact ⟨_, exec_ldcode_of_legal hs hl hlegal, rfl, codeAt_setCode_self sym _ s hwf,
    fun q hq => codeAt_setCode_other sym q _ s hq.symm⟩

/-- Settles O18: the write of NODE is read back at its index and nowhere else. -/
theorem ldnodeStoresTheNodeWord : Obligations.LdnodeStoresTheNodeWord := by
  intro idx s hwf hi hlegal
  exact ⟨_, exec_ldnode_of_legal hi hlegal, rfl, nodeWord_setNode_self idx _ s hwf,
    fun j hj => nodeWord_setNode_other idx j _ s hj.symm⟩

/-- Settles O13: ABORT asks only whether a job runs. -/
theorem nopAndAbortComplete : Obligations.NopAndAbortComplete :=
  fun s => ⟨rfl, fun hidle => exec_abort_of_idle ((busy_eq_false_iff s).mpr hidle),
    fun hbusy => exec_abort_of_busy ((busy_eq_true_iff s).mpr hbusy)⟩

/-- Settles O14: CLEAR writes every other piece with its reset value, and the acceptance has cleared the error's. -/
theorem clearIsResetButForControlAndArgs : Obligations.ClearIsResetButForControlAndArgs := by
  refine fun s => ⟨rfl, fun hb => ?_⟩
  have hidle : s.phase = .idle := (busy_eq_false_iff s).mp hb
  rw [cmdWrite_of_accepted (.inl hb), runCommand_of_command (i := .clear) rfl]
  simp [exec, execClear, complete, clearBlock, acceptClear, State.reset, hidle]

/-- Settles O16: the range is checked first, then the code. -/
theorem ldcodeRefusesABadCode : Obligations.LdcodeRefusesABadCode := by
  refine fun sym len s => ⟨fun hs hl hbit => ?_, fun hrange => ?_⟩
  · have hillegal : codeLegal len (stagedCode s) = false := (codeLegal_eq_false_iff _ _).mpr hbit
    rw [exec_ldcode_of_illegal hs hl hillegal, raiseError_eq_of_phase]
  · rw [exec_ldcode_of_out_of_range hrange, raiseError_eq_of_phase]

/-- Settles O17: a present entry's bits are its two halves side by side. -/
theorem rdcodeReportsTheEntry : Obligations.RdcodeReportsTheEntry := by
  refine fun sym s hs => ⟨fun habsent => ?_, fun hpresent => ?_⟩
  · rw [exec_rdcode_of_in_range hs, reportCode_of_absent habsent, complete]
  · rw [exec_rdcode_of_in_range hs, reportCode_of_present hpresent]
    exact ⟨_, rfl, rfl, ((eq_append_iff 32 32).mpr ⟨rfl, rfl⟩).symm, BitVec.toNat_setWidth_of_le (by decide)⟩

/-- Settles O19: the range is checked first, then the word. -/
theorem ldnodeRefusesABadWord : Obligations.LdnodeRefusesABadWord := by
  refine fun idx s => ⟨fun hi hword => ?_, fun hrange => ?_⟩
  · rw [exec_ldnode_of_illegal hi hword, raiseError_eq_of_phase]
  · rw [exec_ldnode_of_out_of_range hrange, raiseError_eq_of_phase]

/-- Settles O21: an index in range is not refused. -/
theorem rdnodeAndSetrootComplete : Obligations.RdnodeAndSetrootComplete :=
  fun _ _ hi => ⟨exec_rdnode_of_in_range hi, exec_setroot_of_in_range hi⟩

end Sys2Proof.Machine
end

section
/-! PROOFS of the family 42_encode: the encoder's turns one by one, the turns that change nothing, and the runs of the engine from the fetch
of a code to the end of the job. -/

namespace Sys2Proof.Machine

/-! ### The output hold (R207) -/

theorem packHold_eq_false_iff (s : State) : packHold s = false ↔ ¬(s.ocnt = 7#3 ∧ s.outq.length = 16) := by
  rw [← packHold_iff, Bool.not_eq_true]

/-- The packer holds only with 16 bytes and 7 bits packed. -/
theorem packHold_of_room {s : State} (h : (packedBits s).length < 135) : packHold s = false := by
  rw [packHold_eq_false_iff]
  rintro ⟨h7, h16⟩
  simp [packedBits_length, h7, h16] at h

/-! ### The encoder's turns (R202-R206) -/

section
variable {s : State}

theorem engineStep_of_input_byte (hp : s.phase = .encFetch) {b : Byte} {rest : List Byte} (hq : s.inq = b :: rest) :
    engineStep s = .next (fetchCode (b.setWidth 9) false { s with inq := rest }) := by
  simp only [engineStep, hp, stepEncFetch, hq]

theorem engineStep_of_input_end (hp : s.phase = .encFetch) (hq : s.inq = []) (he : s.iend = true) :
    engineStep s = .next (fetchCode Config.pseudoEof true s) := by
  simp only [engineStep, hp, stepEncFetch, hq, he, if_true]

theorem engineStep_of_input_hold (hp : s.phase = .encFetch) (hq : s.inq = []) (he : s.iend = false) : engineStep s = .next s := by
  simp [engineStep, hp, stepEncFetch, hq, he]

theorem engineStep_of_emit_hold (hp : s.phase = .encEmit) (hh : packHold s = true) : engineStep s = .next s := by
  simp only [engineStep, hp, stepEncEmit, hh, if_true]

theorem engineStep_of_emit (hp : s.phase = .encEmit) (hh : packHold s = false) (hc : s.curPos.toNat < s.curLen.toNat)
    (hl : s.curLen.toNat ≤ 64) : engineStep s = .next (emitBit s) := by
  simp [engineStep, hp, stepEncEmit, hh, hc, hl]

theorem engineStep_of_pad_aligned (hp : s.phase = .encPad) (h0 : s.ocnt = 0#3) : engineStep s = .next (jobDone s) := by
  simp only [engineStep, hp, stepEncPad, h0, if_true]

theorem engineStep_of_pad_hold (hp : s.phase = .encPad) (h0 : s.ocnt ≠ 0#3) (hh : packHold s = true) : engineStep s = .next s := by
  simp only [engineStep, hp, stepEncPad, h0, hh, if_true, if_false]

theorem engineStep_of_pad (hp : s.phase = .encPad) (h0 : s.ocnt ≠ 0#3) (hh : packHold s = false) :
    engineStep s = .next (packBit false s) := by
  simp [engineStep, hp, stepEncPad, h0, hh]

end

/-! ### What the packer has been given -/

/-- From `s` to `t` the packer has been given the bits `xs`, and nothing else of the job has changed but the input taken and the code
fetched (R204). -/
structure Packs (s t : State) (xs : List Bool) : Prop where
  packed  : packedBits t = packedBits s ++ xs
  queued  : s.outq <+: t.outq
  ct      : t.ct = s.ct
  msbfL   : t.msbfL = s.msbfL
  pending : t.pending = s.pending
  done    : t.done = s.done
  err     : t.err = s.err
  iend    : t.iend = s.iend

/-- The bits are code bits, so BITCNT counts them (R205). -/
structure Emits (s t : State) (xs : List Bool) : Prop extends Packs s t xs where
  counted : t.bitcnt = s.bitcnt + BitVec.ofNat 32 xs.length

theorem Packs.refl (s : State) : Packs s s [] := by constructor <;> simp

theorem Packs.trans {s t u : State} {xs ys : List Bool} (h : Packs s t xs) (k : Packs t u ys) : Packs s u (xs ++ ys) where
  packed := by rw [k.packed, h.packed, List.append_assoc]
  queued := h.queued.trans k.queued
  ct := k.ct.trans h.ct
  msbfL := k.msbfL.trans h.msbfL
  pending := k.pending.trans h.pending
  done := k.done.trans h.done
  err := k.err.trans h.err
  iend := k.iend.trans h.iend

theorem Emits.refl (s : State) : Emits s s [] := { Packs.refl s with counted := by simp }

theorem Emits.trans {s t u : State} {xs ys : List Bool} (h : Emits s t xs) (k : Emits t u ys) : Emits s u (xs ++ ys) :=
  { h.toPacks.trans k.toPacks with
    counted := by rw [k.counted, h.counted, List.length_append, BitVec.ofNat_add, BitVec.add_assoc] }

/-- The room left after the bits of `xs`. -/
theorem Packs.length {s t : State} {xs : List Bool} (h : Packs s t xs) :
    (packedBits t).length = (packedBits s).length + xs.length := by
  rw [h.packed, List.length_append]

theorem packBit_packs (x : Bool) (s : State) : Packs s (packBit x s) [x] where
  packed := packedBits_packBit x s
  queued := outq_prefix_packBit x s
  ct := packBit_ct x s
  msbfL := packBit_msbfL x s
  pending := packBit_pending x s
  done := packBit_done x s
  err := packBit_err x s
  iend := packBit_iend x s

theorem emitBit_emits (s : State) : Emits s (emitBit s) [nextCodeBit s] := { packBit_packs (nextCodeBit s) s with counted := rfl }

/-- PackBit writes OUTQ and the packer alone (R204). -/
theorem packBit_frame (x : Bool) (s : State) :
    packBit x s = { s with outq := (packBit x s).outq, oacc := (packBit x s).oacc, ocnt := (packBit x s).ocnt } := by
  by_cases h : s.ocnt = 7#3
  · rw [packBit_full _ _ h]
  · rw [packBit_partial _ _ h]

/-- Beside them ENC_EMIT writes BITCNT, CUR_POS and PHASE (R205). -/
theorem emitBit_frame (s : State) :
    emitBit s = { s with
      outq := (emitBit s).outq, oacc := (emitBit s).oacc, ocnt := (emitBit s).ocnt, bitcnt := s.bitcnt + 1#32
      curPos := (emitBit s).curPos, phase := (emitBit s).phase } :=
  congrArg (fun t : State => { t with bitcnt := s.bitcnt + 1#32, curPos := s.curPos + 1#7, phase := phaseAfterBit s })
    (packBit_frame _ s)

/-- OCNT counts modulo 8 (R204). -/
theorem packBit_ocnt (x : Bool) (s : State) : (packBit x s).ocnt = s.ocnt + 1#3 := by
  by_cases h : s.ocnt = 7#3
  · rw [packBit_full _ _ h, h]; rfl
  · rw [packBit_partial _ _ h]

/-- The error stop does not flush the packer (R203). -/
theorem packedBits_raiseError (code : ErrCode) (info : BitVec 10) (s : State) : packedBits (raiseError code info s) = packedBits s := by
  simp [packedBits, partialBits]

/-- At a byte boundary every packed bit is in OUTQ. -/
theorem packedBits_of_aligned {s : State} (h : s.ocnt = 0#3) : packedBits s = streamBits s.msbfL s.outq := by
  simp [packedBits, partialBits, h]

/-! ### Runs of the encoder (R208) -/

@[simp] theorem emitBit_inq (s : State) : (emitBit s).inq = s.inq := packBit_inq _ s
@[simp] theorem emitBit_curBits (s : State) : (emitBit s).curBits = s.curBits := packBit_curBits _ s
@[simp] theorem emitBit_curLen (s : State) : (emitBit s).curLen = s.curLen := packBit_curLen _ s
@[simp] theorem emitBit_curLast (s : State) : (emitBit s).curLast = s.curLast := packBit_curLast _ s

theorem emitBit_curPos {s : State} (h : s.curPos.toNat < s.curLen.toNat) : (emitBit s).curPos.toNat = s.curPos.toNat + 1 :=
  curPos_succ h

/-- ENC_EMIT takes the first of the bits that are left (R205). -/
theorem restOfCode_emitBit {s : State} (h : s.curPos.toNat < s.curLen.toNat) :
    restOfCode s = nextCodeBit s :: restOfCode (emitBit s) := by
  rw [restOfCode_eq_cons s h, restOfCode, emitBit_curPos h, emitBit_curLen, emitBit_curBits]

theorem restOfCode_length (s : State) : (restOfCode s).length = s.curLen.toNat - s.curPos.toNat := by simp [restOfCode]

/-- The engine emits what is left of the current code. -/
theorem engineRun_restOfCode {xs : List Bool} {s : State} (hx : restOfCode s = xs) (hp : s.phase = .encEmit)
    (hc : s.curPos.toNat < s.curLen.toNat) (hl : s.curLen.toNat ≤ 64) (hpend : s.pending = [])
    (hroom : (packedBits s).length + xs.length < 136) :
    ∃ t, engineRun xs.length s = .next t ∧ Emits s t xs ∧ t.inq = s.inq ∧
      t.phase = if s.curLast then .encPad else .encFetch := by
  induction xs generalizing s with
  | nil => simp [restOfCode_emitBit hc] at hx
  | cons x xs ih =>
    rw [restOfCode_emitBit hc] at hx
    obtain ⟨rfl, hxs⟩ := List.cons.inj hx
    rw [List.length_cons] at hroom
    have hemits := emitBit_emits s
    have hpos := emitBit_curPos hc
    have hphase : (emitBit s).phase = _ := phaseAfterBit_eq hc
    rw [List.length_cons, engineRun_succ _ _ _ hpend (engineStep_of_emit hp (packHold_of_room (by omega)) hc hl)]
    by_cases hend : s.curPos.toNat + 1 = s.curLen.toNat
    · obtain rfl : xs = [] := by
        rw [← hxs, ← List.length_eq_zero_iff, restOfCode_length, emitBit_curLen, hpos, hend, Nat.sub_self]
      rw [if_pos hend] at hphase
      exact ⟨_, rfl, hemits, emitBit_inq s, hphase⟩
    · rw [if_neg hend] at hphase
      obtain ⟨t, hrun, ht, hq, hlast⟩ := ih hxs hphase (by rw [hpos, emitBit_curLen]; omega) (by rwa [emitBit_curLen])
        (hemits.pending.trans hpend) (by rw [hemits.length, List.length_singleton]; omega)
      exact ⟨t, hrun, hemits.trans ht, hq.trans (emitBit_inq s), by rw [hlast, emitBit_curLast]⟩

/-- The engine fetches a code that is present and emits it. -/
theorem engineRun_code {s : State} {sym : Symbol} {last : Bool} {rest : List Byte}
    (hstep : engineStep s = .next (fetchCode sym last { s with inq := rest })) (hpend : s.pending = [])
    (hlegal : ∀ c ∈ s.ct, entryLegal c.2 = true) (hsym : (codeAt s sym).len ≠ 0#7)
    (hroom : (packedBits s).length + (codeBits (codeAt s sym)).length < 136) :
    ∃ t, engineRun ((codeBits (codeAt s sym)).length + 1) s = .next t ∧ Emits s t (codeBits (codeAt s sym)) ∧ t.inq = rest ∧
      t.phase = if last then .encPad else .encFetch := by
  obtain ⟨hpos, hle⟩ := (codeAt_absent_or_legal hlegal sym).resolve_left hsym
  rw [fetchCode_present sym last { s with inq := rest } hsym] at hstep
  obtain ⟨t, hrun, ht, hq, hph⟩ := engineRun_restOfCode
    (s := { s with inq := rest, curBits := (codeAt s sym).bits, curLen := (codeAt s sym).len, curPos := 0#7, curLast := last,
                   phase := .encEmit })
    (xs := codeBits (codeAt s sym)) rfl rfl hpos hle hpend hroom
  exact ⟨t, (engineRun_succ _ _ _ hpend hstep).trans hrun, { ht with }, hq, hph⟩

/-- The codes of a sequence of bytes, one after the other (R208). -/
def codesOf (s : State) (m : List Byte) : List Bool := m.flatMap fun b => codeBits (codeAt s (b.setWidth 9))

theorem codesOf_cons (s : State) (b : Byte) (m : List Byte) :
    codesOf s (b :: m) = codeBits (codeAt s (b.setWidth 9)) ++ codesOf s m := List.flatMap_cons

theorem codesOf_congr {s t : State} (h : t.ct = s.ct) (m : List Byte) : codesOf t m = codesOf s m := by
  simp only [codesOf, codeAt_congr h]

theorem encodedBits_eq (s : State) (m : List Byte) : encodedBits s m = codesOf s m ++ codeBits (codeAt s Config.pseudoEof) := rfl

/-- The engine emits the codes of the bytes at the head of INQ. -/
theorem engineRun_codesOf {pre post : List Byte} {s : State} (hp : s.phase = .encFetch) (hpend : s.pending = [])
    (hlegal : ∀ c ∈ s.ct, entryLegal c.2 = true) (hpre : ∀ c ∈ pre, (codeAt s (c.setWidth 9)).len ≠ 0#7)
    (hq : s.inq = pre ++ post) (hroom : (packedBits s).length + (codesOf s pre).length < 136) :
    ∃ t, engineRun (pre.length + (codesOf s pre).length) s = .next t ∧ Emits s t (codesOf s pre) ∧ t.inq = post ∧
      t.phase = .encFetch := by
  induction pre generalizing s with
  | nil => exact ⟨s, rfl, Emits.refl s, hq, hp⟩
  | cons b pre ih =>
    obtain ⟨hb, hpre⟩ := List.forall_mem_cons.mp hpre
    rw [codesOf_cons] at hroom ⊢
    rw [List.length_append] at hroom ⊢
    obtain ⟨u, hrun, hu, hqu, hpu⟩ := engineRun_code (engineStep_of_input_byte hp hq) hpend hlegal hb (by omega)
    obtain ⟨t, hrun', ht, hqt, hpt⟩ := ih (s := u) hpu (hu.pending.trans hpend) (by rwa [hu.ct])
      (by simpa only [codeAt_congr hu.ct] using hpre) hqu (by rw [hu.length, codesOf_congr hu.ct]; omega)
    rw [codesOf_congr hu.ct] at hrun' ht
    refine ⟨t, ?_, hu.trans ht, hqt, hpt⟩
    rw [← hrun', ← engineRun_add _ _ s u hrun]
    congr 1
    simp only [List.length_cons]
    omega

/-- The engine pads the partial byte (R206). -/
theorem engineRun_padding {k : Nat} {s : State} (hk : (8 - s.ocnt.toNat) % 8 = k) (hp : s.phase = .encPad) (hpend : s.pending = [])
    (hroom : (packedBits s).length + k < 136) :
    ∃ t, engineRun k s = .next t ∧ Packs s t (List.replicate k false) ∧ t.ocnt = 0#3 ∧ t.phase = .encPad ∧ t.inq = s.inq ∧
      t.bitcnt = s.bitcnt := by
  have hlt := s.ocnt.isLt
  induction k generalizing s with
  | zero => exact ⟨s, rfl, Packs.refl s, BitVec.eq_of_toNat_eq (by simp; omega), hp, rfl, rfl⟩
  | succ k ih =>
    have h0 : s.ocnt ≠ 0#3 := fun h0 => by simp [h0] at hk
    have hpacks := packBit_packs false s
    have hstep := engineStep_of_pad hp h0 (packHold_of_room (by omega))
    obtain ⟨t, hrun, ht, hocnt, hph, hq, hcnt⟩ := ih (s := packBit false s) (by rw [packBit_ocnt]; bv_omega)
      ((packBit_phase false s).trans hp) (hpacks.pending.trans hpend)
      (by rw [hpacks.length, List.length_singleton]; omega) (BitVec.isLt _)
    exact ⟨t, (engineRun_succ _ _ _ hpend hstep).trans hrun, hpacks.trans ht, hocnt, hph, hq.trans (packBit_inq false s),
      hcnt.trans (packBit_bitcnt false s)⟩

/-- From the start of a job with all its input in INQ the engine emits every code bit (R208). -/
theorem engineRun_encodedBits {s : State} (hp : s.phase = .encFetch) (hpend : s.pending = []) (he : s.iend = true)
    (hlegal : ∀ c ∈ s.ct, entryLegal c.2 = true) (hcov : InputCovered s s.inq)
    (hroom : (packedBits s).length + (encodedBits s s.inq).length < 136) :
    ∃ t, engineRun (s.inq.length + 1 + (encodedBits s s.inq).length) s = .next t ∧ Emits s t (encodedBits s s.inq) ∧ t.inq = [] ∧
      t.phase = .encPad := by
  obtain ⟨hbytes, heof⟩ := hcov
  rw [encodedBits_eq] at hroom ⊢
  rw [List.length_append] at hroom ⊢
  obtain ⟨u, hrunu, hu, hqu, hpu⟩ := engineRun_codesOf hp hpend hlegal hbytes (List.append_nil s.inq).symm (by omega)
  have hcode := codeAt_congr hu.ct Config.pseudoEof
  obtain ⟨t, hrunt, ht, hqt, hpt⟩ := engineRun_code (rest := u.inq) (engineStep_of_input_end hpu hqu (hu.iend.trans he))
    (hu.pending.trans hpend) (by rwa [hu.ct]) (by rwa [hcode]) (by rw [hu.length, hcode]; omega)
  rw [hcode] at hrunt ht
  refine ⟨t, ?_, hu.trans ht, hqt.trans hqu, hpt⟩
  rw [← hrunt, ← engineRun_add _ _ s u hrunu]
  congr 1
  omega

theorem padBits_eq_replicate (n : Nat) : padBits n = List.replicate (padBits n).length false := by simp [padBits]

/-- The pad bits fill the last byte (R206). -/
theorem length_add_padBits (n : Nat) : n + (padBits n).length = 8 * ((n + 7) / 8) ∧ (padBits n).length < 8 := by
  rw [padBits, List.length_replicate]
  omega

/-! ### The turns that change nothing (R207, R247) -/

/-- A turn that moves to another phase changes the state. -/
theorem next_ne_self_of_phase {s t : State} (h : t.phase ≠ s.phase) : (.next t : Result) ≠ .next s := by
  rintro ⟨⟩
  exact h rfl

/-- A turn that consumes a bit changes the state: BITSIN counts it (R243). -/
theorem next_ne_self_of_bitsin {s t : State} (h : t.bitsin = s.bitsin + 1#32) : (.next t : Result) ≠ .next s := by
  rintro ⟨⟩
  simp at h

/-- A turn that packs a bit changes the state (R204). -/
theorem Packs.next_ne_self {s t : State} {x : Bool} (h : Packs s t [x]) : (.next t : Result) ≠ .next s := by
  rintro ⟨⟩
  simpa using h.packed

theorem consumeBit_bitsin (s : State) : (consumeBit s).bitsin = s.bitsin + 1#32 := by simp [consumeBit, nextBit]

/-- A fetch leaves ENC_FETCH, for the emission or by the error stop (R203). -/
theorem fetchCode_phase_ne (sym : Symbol) (last : Bool) (s : State) : (fetchCode sym last s).phase ≠ .encFetch := by
  by_cases h : (codeAt s sym).len = 0#7
  · simp [fetchCode_absent sym last s h]
  · simp [fetchCode_present sym last s h]

/-- The node is a LEAF of a byte, which the walk emits on reaching it (R244). -/
def IsByteLeaf (s : State) (idx : NodeIdx) : Prop := ∃ sym, nodeView (nodeWord s idx) = .leaf sym ∧ sym ≠ Config.pseudoEof

theorem nextBitEmits_of_leaf {s : State} {sym : Symbol} (hv : nodeView (nodeWord s s.ptr) = .leaf sym) :
    nextBitEmits s = true ↔ peekBit s = false ∧ IsByteLeaf s s.ptr := by
  simp [nextBitEmits, IsByteLeaf, hv]

theorem nextBitEmits_of_internal {s : State} {zero one : NodeIdx} (hv : nodeView (nodeWord s s.ptr) = .internal zero one) :
    nextBitEmits s = true ↔ IsByteLeaf s (if peekBit s then one else zero) := by
  simp only [nextBitEmits, IsByteLeaf, hv]
  cases nodeView (nodeWord s (if peekBit s then one else zero)) <;> simp

/-- The walk stays before a node only for want of room for its byte (R244). -/
theorem walkTo_eq_self_iff {s : State} {idx : NodeIdx} (hi : idx.toNat < Config.nodeCount) :
    walkTo idx s = .next s ↔ IsByteLeaf s idx ∧ outqFull s = true := by
  have hn : nodeAt s idx = some (nodeWord s idx) := (nodeAt_eq_some_iff _ _ _).mpr ⟨hi, rfl⟩
  have hcount := consumeBit_bitsin s
  cases hv : nodeView (nodeWord s idx) <;> simp only [walkTo, IsByteLeaf, hn, hv]
  case empty => exact iff_of_false (next_ne_self_of_bitsin (by simp [hcount])) (by simp)
  case internal zero one => exact iff_of_false (next_ne_self_of_bitsin hcount) (by simp)
  case reserved => simp
  case leaf sym =>
    split_ifs with heof hf
    · exact iff_of_false (next_ne_self_of_bitsin hcount) (by simp [heof])
    · simp [heof, hf]
    · exact iff_of_false (next_ne_self_of_bitsin hcount) (by simp [hf])

section
variable {s : State}

theorem walkBit_eq_self_iff (h : StateInv s) : walkBit s = .next s ↔ nextBitEmits s = true ∧ outqFull s = true := by
  have hn : nodeAt s s.ptr = some (nodeWord s s.ptr) := (nodeAt_eq_some_iff _ _ _).mpr ⟨h.ptrBound, rfl⟩
  rcases nodeView_of_legal _ (nodeWord_legal h s.ptr) with hv | ⟨sym, hv, -⟩ | ⟨zero, one, hv, hz, ho⟩ <;>
    simp only [walkBit, hn, hv]
  · exact iff_of_false (next_ne_self_of_bitsin (by simp [consumeBit_bitsin])) (by simp [nextBitEmits, hv])
  · cases hx : peekBit s
    · simpa [nextBitEmits_of_leaf hv, hx] using walkTo_eq_self_iff h.ptrBound
    · exact iff_of_false (next_ne_self_of_bitsin (by simp [consumeBit_bitsin])) (by simp [nextBitEmits_of_leaf hv, hx])
  · rw [nextBitEmits_of_internal hv]
    exact walkTo_eq_self_iff (Nat.lt_succ_of_le (by split_ifs <;> assumption))

theorem stepDecWalk_eq_self_iff (h : StateInv s) (hp : s.phase = .decWalk) :
    stepDecWalk s = .next s ↔ decInputHold s = true ∨ avail s = true ∧ nextBitEmits s = true ∧ outqFull s = true := by
  rw [stepDecWalk, if_neg (Nat.not_lt.mpr h.icntBound)]
  cases ha : avail s
  · cases he : s.iend
    · simp [decInputHold, ha, he]
    · exact iff_of_false (next_ne_self_of_phase (by simp [hp])) (by simp [decInputHold, ha, he])
  · simpa [decInputHold, ha] using walkBit_eq_self_iff h

theorem engineStep_encFetch_eq_self_iff (hp : s.phase = .encFetch) : engineStep s = .next s ↔ encInputHold s = true := by
  cases hq : s.inq with
  | cons b rest =>
    rw [engineStep_of_input_byte hp hq]
    exact iff_of_false (next_ne_self_of_phase (by rw [hp]; exact fetchCode_phase_ne _ _ _)) (by simp [encInputHold, hq])
  | nil =>
    cases he : s.iend
    · simp [engineStep_of_input_hold hp hq he, encInputHold, hq, he]
    · rw [engineStep_of_input_end hp hq he]
      exact iff_of_false (next_ne_self_of_phase (by rw [hp]; exact fetchCode_phase_ne _ _ _)) (by simp [encInputHold, he])

theorem engineStep_encEmit_eq_self_iff (h : StateInv s) (hp : s.phase = .encEmit) : engineStep s = .next s ↔ packHold s = true := by
  cases hh : packHold s
  · rw [engineStep_of_emit hp hh (h.emitting hp) h.codeBound.2]
    exact iff_of_false (emitBit_emits s).next_ne_self (by simp)
  · simp [engineStep_of_emit_hold hp hh]

theorem engineStep_encPad_eq_self_iff (hp : s.phase = .encPad) : engineStep s = .next s ↔ packHold s = true := by
  by_cases h0 : s.ocnt = 0#3
  · rw [engineStep_of_pad_aligned hp h0]
    exact iff_of_false (next_ne_self_of_phase (by simp [hp])) (by simp [packHold, h0])
  · cases hh : packHold s
    · rw [engineStep_of_pad hp h0 hh]
      exact iff_of_false (packBit_packs false s).next_ne_self (by simp)
    · simp [engineStep_of_pad_hold hp h0 hh]

end

/-! ### The obligations -/

/-- Settles O38: the packer's hold is the only one, and the bit packed is the one at CUR_POS. -/
theorem encoderEmitsTheNextBit : Obligations.EncoderEmitsTheNextBit := by
  intro s hp hc hl
  refine ⟨fun h => engineStep_of_emit_hold hp ((packHold_iff s).mpr h), fun h => ?_⟩
  have hemits := emitBit_emits s
  exact ⟨_, engineStep_of_emit hp ((packHold_eq_false_iff s).mpr h) hc hl, emitBit_frame s, hemits.packed, hemits.queued,
    curPos_succ hc, phaseAfterBit_eq hc⟩

/-- Settles O39: three exclusive cases by OCNT and the packer's hold. -/
theorem encoderPadsThenCompletes : Obligations.EncoderPadsThenCompletes := by
  intro s hp
  refine ⟨engineStep_of_pad_aligned hp, fun h => ?_, fun h0 h => ?_⟩
  · exact engineStep_of_pad_hold hp (by simp [h.1]) ((packHold_iff s).mpr h)
  · have hpacks := packBit_packs false s
    exact ⟨_, engineStep_of_pad hp h0 ((packHold_eq_false_iff s).mpr h), packBit_frame false s, hpacks.packed, hpacks.queued⟩

/-- Settles O51: phase by phase, every other turn moves on, packs a bit or consumes one. -/
theorem engineHoldsExactlyAsTheTablesSay : Obligations.EngineHoldsExactlyAsTheTablesSay := by
  intro s h
  unfold engineHeld
  split
  next hp => simp [engineStep, hp]
  next hp => exact engineStep_encFetch_eq_self_iff hp
  next hp => exact engineStep_encEmit_eq_self_iff h hp
  next hp => exact engineStep_encPad_eq_self_iff hp
  next hp =>
    have hstep : engineStep s = stepDecWalk s := by simp only [engineStep, hp]
    simpa [hstep, and_assoc] using stepDecWalk_eq_self_iff h hp

/-- Settles O22: the writes are those of the start, and STATUS shows the phase. -/
theorem encodeStartsAJob : Obligations.EncodeStartsAJob := by
  intro s
  refine ⟨startEncode s, rfl, rfl, ?_, ?_⟩
  · rw [(statusWord_flags _).1]
    rfl
  · rw [(statusWord_fields _).1]
    rfl

/-- Settles O37: a code that is present is taken, an absent one is the error stop. -/
theorem encoderFetchesACode : Obligations.EncoderFetchesACode := by
  intro s hp
  refine ⟨fun b rest hq hc => ?_, fun b rest hq hc => ?_, fun hq he hc => ?_, fun hq he hc => ?_, engineStep_of_input_hold hp⟩
  · rw [engineStep_of_input_byte hp hq, fetchCode_present _ _ { s with inq := rest } hc]
    rfl
  · rw [engineStep_of_input_byte hp hq, fetchCode_absent _ _ { s with inq := rest } hc, raiseError_eq_of_phase]
    simp [hp]
  · rw [engineStep_of_input_end hp hq he, fetchCode_present _ _ s hc]
  · rw [engineStep_of_input_end hp hq he, fetchCode_absent _ _ s hc, raiseError_eq_of_phase]
    simp [hp]

/-- Settles O41: the codes before the gap are packed, and the fetch of the absent one is the error stop. -/
theorem encodeGapStopsAtTheByte : Obligations.EncodeGapStopsAtTheByte := by
  intro s pre post hp hpend hlegal hpre hroom sym hgap habsent
  obtain ⟨rest, hq, hgap⟩ : ∃ rest, s.inq = pre ++ rest ∧
      ∀ t : State, t.phase = .encFetch → t.inq = rest → t.iend = s.iend →
        ∃ last, engineStep t = .next (fetchCode sym last { t with inq := post }) := by
    rcases hgap with ⟨b, hq, rfl⟩ | ⟨hq, rfl, he, rfl⟩
    · exact ⟨b :: post, hq, fun t hpt hqt _ => ⟨false, engineStep_of_input_byte hpt hqt⟩⟩
    · refine ⟨[], by rw [hq, List.append_nil], fun t hpt hqt het => ⟨true, ?_⟩⟩
      rw [engineStep_of_input_end hpt hqt (het.trans he), ← hqt]
  rw [← packedBits_length] at hroom
  obtain ⟨t, hrun, ht, hqt, hpt⟩ := engineRun_codesOf hp hpend hlegal hpre hq hroom
  obtain ⟨last, hfetch⟩ := hgap t hpt hqt ht.iend
  rw [fetchCode_absent sym last { t with inq := post } ((congrArg _ (codeAt_congr ht.ct sym)).trans habsent)] at hfetch
  refine ⟨_, _, (engineRun_add _ 1 s t hrun).trans (engineRun_succ 0 _ _ (ht.pending.trans hpend) hfetch), ?_⟩
  have hbusy : busy { t with inq := post } = true := (busy_eq_true_iff _).mpr (by simp [hpt])
  refine ⟨raiseError_phase _ _ _, raiseError_err _ _ _, raiseError_errcode _ _ _, raiseError_errinfo _ _ _,
    (raiseError_done _ _ _).trans ht.done, by simp [hbusy], raiseError_inq _ _ _, ?_, (raiseError_bitcnt _ _ _).trans ht.counted⟩
  rw [packedBits_raiseError]
  exact ht.packed

/-- Settles O40: the code bits, the padding and the completion, one after the other. -/
theorem encodeJobPacksTheWholeInput : Obligations.EncodeJobPacksTheWholeInput := by
  intro s hp hocnt hpend he hlegal hcov hroom
  have hfill := length_add_padBits (encodedBits s s.inq).length
  have hstart : (packedBits s).length = 8 * s.outq.length := by rw [packedBits_of_aligned hocnt, streamBits_length]
  obtain ⟨u, hrunu, hu, hqu, hpu⟩ := engineRun_encodedBits hp hpend he hlegal hcov (by omega)
  have hpad : (8 - u.ocnt.toNat) % 8 = (padBits (encodedBits s s.inq).length).length := by
    have hlen := hu.length
    rw [packedBits_length] at hlen
    omega
  obtain ⟨t, hrunt, ht, hocntt, hpt, hqt, hcntt⟩ := engineRun_padding hpad hpu (hu.pending.trans hpend) (by rw [hu.length]; omega)
  rw [← padBits_eq_replicate] at ht
  have hjob := hu.toPacks.trans ht
  have hdone := engineRun_succ 0 t _ (hjob.pending.trans hpend) (engineStep_of_pad_aligned hpt hocntt)
  obtain ⟨ys, hys⟩ := hjob.queued
  have hstream : streamBits s.msbfL ys = encodedBits s s.inq ++ padBits (encodedBits s s.inq).length := by
    have hpacked := hjob.packed
    rw [packedBits_of_aligned hocnt, packedBits_of_aligned hocntt, hjob.msbfL, ← hys, streamBits_append] at hpacked
    exact List.append_cancel_left hpacked
  have hlen : 8 * ys.length = _ := (streamBits_length s.msbfL ys).symm.trans (congrArg List.length hstream)
  rw [List.length_append] at hlen
  refine ⟨_, jobDone t, ys, ?_, (engineRun_add _ _ s u hrunu).trans ((engineRun_add _ _ u t hrunt).trans hdone), rfl, rfl, hjob.err, rfl,
    hqt.trans hqu, hys.symm, by omega, hstream, hcntt.trans hu.counted⟩
  omega

end Sys2Proof.Machine
end

section
/-! PROOFS of the family 43_decode: the unpacker's bit, the turns of the walk one by one, the paths of a tree in NODE, and the runs of the
decoder along them. -/

namespace Sys2Proof.Machine

/-! ### The unpacker (R242, R243) -/

theorem consumeBit_icnt_le {s : State} (ha : avail s = true) (h8 : s.icnt.toNat ≤ 8) : (consumeBit s).icnt.toNat ≤ 7 := by
  rcases consumeBit_cases s ha with ⟨h0, heq, -⟩ | ⟨b, rest, h0, hq, heq, -⟩
  · rw [heq]
    dsimp only
    bv_omega
  · simp [heq]

/-- NextBit writes INQ, the unpacker and BITSIN alone (R243). -/
theorem consumeBit_frame (s : State) :
    consumeBit s = { s with
      inq := (consumeBit s).inq, iacc := (consumeBit s).iacc, icnt := (consumeBit s).icnt, bitsin := s.bitsin + 1#32 } := by
  by_cases h : s.icnt = 0#4 <;> simp [consumeBit, nextBit, loadByte, h]

/-- The bit that PeekBit shows is the first of the stream, and NextBit leaves the others (R242, R243). -/
theorem inputBits_eq_cons {s : State} (ha : avail s = true) (h8 : s.icnt.toNat ≤ 8) :
    inputBits s = peekBit s :: inputBits (consumeBit s) := by
  rcases consumeBit_cases s ha with ⟨h0, heq, hbit⟩ | ⟨b, rest, h0, hq, heq, hbit⟩
  · have hsub : (s.icnt - 1#4).toNat = s.icnt.toNat - 1 := by bv_omega
    have hfirst := drop_byteBits s.msbfL s.iacc s.icnt.toNat (by bv_omega) h8
    rw [inputBits, inputBits, heldBits, hfirst, heq, hbit, heldBits, hsub, List.cons_append]
  · have hfirst := drop_byteBits s.msbfL b 8 (by omega) (by omega)
    rw [Nat.sub_self, List.drop_zero] at hfirst
    have hheld : heldBits s = [] := by simp [heldBits, h0]
    rw [inputBits, hheld, hq, streamBits_cons, List.nil_append, hfirst, heq, hbit]
    rfl

/-- A bit is there exactly when the stream to consume is not empty (R242). -/
theorem avail_of_inputBits_ne_nil {s : State} (h8 : s.icnt.toNat ≤ 8) (h : inputBits s ≠ []) : avail s = true := by
  have hlen := inputBits_length s h8
  have hpos := List.length_pos_of_ne_nil h
  rw [avail_iff, ← List.length_pos_iff]
  omega

theorem avail_of_inputBits_nil {s : State} (h8 : s.icnt.toNat ≤ 8) (h : inputBits s = []) : s.inq = [] ∧ avail s = false := by
  have hlen := inputBits_length s h8
  rw [h, List.length_nil] at hlen
  have hq : s.inq = [] := List.eq_nil_of_length_eq_zero (by omega)
  exact ⟨hq, by simp [avail, hq]; omega⟩

/-! ### What the walk has consumed -/

/-- `s` with `n` more bits counted, and all else that the walk writes while it goes on as in `t`. -/
def walkedState (s t : State) (n : Nat) : State :=
  { s with
    bitsin := s.bitsin + BitVec.ofNat 32 n
    inq := t.inq, iacc := t.iacc, icnt := t.icnt, ptr := t.ptr, outq := t.outq }

/-- From `s` to `t` the walk has consumed the bits `xs`, and of the rest of the state only PTR and OUTQ may have changed (R244). -/
structure Unpacks (s t : State) (xs : List Bool) : Prop where
  input : inputBits s = xs ++ inputBits t
  icnt  : t.icnt.toNat ≤ 8
  taken : t.inq <:+ s.inq
  frame : t = walkedState s t xs.length

namespace Unpacks

theorem refl {s : State} (h8 : s.icnt.toNat ≤ 8) : Unpacks s s [] where
  input := rfl
  icnt := h8
  taken := List.suffix_refl _
  frame := by simp [walkedState]

theorem trans {s t u : State} {xs ys : List Bool} (h : Unpacks s t xs) (k : Unpacks t u ys) : Unpacks s u (xs ++ ys) where
  input := by rw [h.input, k.input, List.append_assoc]
  icnt := k.icnt
  taken := k.taken.trans h.taken
  frame := by
    calc u = walkedState t u ys.length := k.frame
      _ = walkedState (walkedState s t xs.length) u ys.length := congrArg (walkedState · u ys.length) h.frame
      _ = walkedState s u (xs ++ ys).length := by simp [walkedState, BitVec.ofNat_add, BitVec.add_assoc]

/-- The walk's own bit, wherever PTR goes and whatever is pushed. -/
theorem of_consumeBit {s : State} (ha : avail s = true) (h8 : s.icnt.toNat ≤ 8) (p : NodeIdx) (q : List Byte) :
    Unpacks s { consumeBit s with ptr := p, outq := q } [peekBit s] where
  input := inputBits_eq_cons ha h8
  icnt := (consumeBit_icnt_le ha h8).trans (by decide)
  taken := (consumeBit_takesInput s).1
  frame := congrArg (fun t : State => { t with ptr := p, outq := q }) (consumeBit_frame s)

variable {s t : State} {xs : List Bool} (h : Unpacks s t xs)
include h

theorem phase : t.phase = s.phase := (congrArg State.phase h.frame :)
theorem pending : t.pending = s.pending := (congrArg State.pending h.frame :)
theorem iend : t.iend = s.iend := (congrArg State.iend h.frame :)
theorem done : t.done = s.done := (congrArg State.done h.frame :)
theorem err : t.err = s.err := (congrArg State.err h.frame :)
theorem root : t.root = s.root := (congrArg State.root h.frame :)
theorem node : t.node = s.node := (congrArg State.node h.frame :)
theorem bitsin : t.bitsin = s.bitsin + BitVec.ofNat 32 xs.length := (congrArg State.bitsin h.frame :)

/-- The bytes loaded are those that hold a bit of `xs`, where the last byte loaded holds one. -/
theorem inq_eq_drop (h8 : s.icnt.toNat ≤ 8) (h7 : t.icnt.toNat ≤ 7) : t.inq = s.inq.drop ((xs.length - s.icnt.toNat + 7) / 8) := by
  have hlen := congrArg List.length h.input
  rw [List.length_append, inputBits_length s h8, inputBits_length t h.icnt] at hlen
  have hloaded : (xs.length - s.icnt.toNat + 7) / 8 = s.inq.length - t.inq.length := by
    have := h.taken.length_le
    omega
  rw [hloaded]
  exact List.suffix_iff_eq_drop.mp h.taken

end Unpacks

/-! ### The walk's turns (R244-R246) -/

section
variable {s : State} (hp : s.phase = .decWalk)
include hp

theorem engineStep_of_truncated (ha : avail s = false) (he : s.iend = true) :
    engineStep s = .next { s with err := true, errcode := .truncated, errinfo := s.ptr, phase := .idle, iend := false } := by
  simp [engineStep, hp, stepDecWalk, ha, he, raiseError_eq_of_phase]

theorem engineStep_of_bit_hold (ha : avail s = false) (he : s.iend = false) : engineStep s = .next s := by
  simp [engineStep, hp, stepDecWalk, ha, he]

theorem engineStep_of_avail (ha : avail s = true) (h8 : s.icnt.toNat ≤ 8) : engineStep s = walkBit s := by
  simp [engineStep, hp, stepDecWalk, ha, Nat.not_lt.mpr h8]

/-- At an INTERNAL node the bit chooses the child. -/
theorem engineStep_of_internal (ha : avail s = true) (h8 : s.icnt.toNat ≤ 8) (hi : s.ptr.toNat < Config.nodeCount) {zero one : NodeIdx}
    (hv : nodeView (nodeWord s s.ptr) = .internal zero one) : engineStep s = walkTo (if peekBit s then one else zero) s := by
  simp only [engineStep_of_avail hp ha h8, walkBit, (nodeAt_eq_some_iff s s.ptr _).mpr ⟨hi, rfl⟩, hv]

/-- At a LEAF bit 0 reaches that leaf. -/
theorem engineStep_of_leaf (ha : avail s = true) (h8 : s.icnt.toNat ≤ 8) (hi : s.ptr.toNat < Config.nodeCount) {sym : Symbol}
    (hv : nodeView (nodeWord s s.ptr) = .leaf sym) (hx : peekBit s = false) : engineStep s = walkTo s.ptr s := by
  simp [engineStep_of_avail hp ha h8, walkBit, (nodeAt_eq_some_iff s s.ptr _).mpr ⟨hi, rfl⟩, hv, hx]

/-- The error stop after NextBit, with the job running (R322). -/
theorem raiseError_consumeBit (code : ErrCode) (info : BitVec 10) :
    raiseError code info (consumeBit s) =
      { consumeBit s with err := true, errcode := code, errinfo := info, phase := .idle, iend := false } := by
  simp [raiseError_eq_of_phase, hp]

/-- At a LEAF bit 1 is no code. -/
theorem engineStep_of_leaf_one (ha : avail s = true) (h8 : s.icnt.toNat ≤ 8) (hi : s.ptr.toNat < Config.nodeCount) {sym : Symbol}
    (hv : nodeView (nodeWord s s.ptr) = .leaf sym) (hx : peekBit s = true) :
    engineStep s = .next { consumeBit s with
      err := true, errcode := .badCode, errinfo := s.ptr, phase := .idle, iend := false } := by
  simp [engineStep_of_avail hp ha h8, walkBit, (nodeAt_eq_some_iff s s.ptr _).mpr ⟨hi, rfl⟩, hv, hx, raiseError_consumeBit hp]

theorem walkTo_of_empty {idx : NodeIdx} (hi : idx.toNat < Config.nodeCount) (hv : nodeView (nodeWord s idx) = .empty) :
    walkTo idx s = .next { consumeBit s with
      err := true, errcode := .badNode, errinfo := idx, phase := .idle, iend := false } := by
  simp only [walkTo, (nodeAt_eq_some_iff s idx _).mpr ⟨hi, rfl⟩, hv, raiseError_consumeBit hp]

end

section
variable {s : State} {idx : NodeIdx} (hi : idx.toNat < Config.nodeCount)
include hi

theorem walkTo_of_internal {zero one : NodeIdx} (hv : nodeView (nodeWord s idx) = .internal zero one) :
    walkTo idx s = .next { consumeBit s with ptr := idx } := by
  simp only [walkTo, (nodeAt_eq_some_iff s idx _).mpr ⟨hi, rfl⟩, hv]

theorem walkTo_of_eof (hv : nodeView (nodeWord s idx) = .leaf Config.pseudoEof) :
    walkTo idx s = .next { consumeBit s with icnt := 0#4, done := true, phase := .idle, iend := false } := by
  simp only [walkTo, (nodeAt_eq_some_iff s idx _).mpr ⟨hi, rfl⟩, hv, if_true]
  rfl

theorem walkTo_of_byte {sym : Symbol} (hv : nodeView (nodeWord s idx) = .leaf sym) (heof : sym ≠ Config.pseudoEof)
    (hroom : s.outq.length ≠ 16) :
    walkTo idx s = .next { consumeBit s with outq := s.outq ++ [sym.extractLsb' 0 8], ptr := s.root } := by
  have hf : ¬outqFull s = true := mt (outqFull_iff s).mp hroom
  simp only [walkTo, (nodeAt_eq_some_iff s idx _).mpr ⟨hi, rfl⟩, hv, if_neg heof, if_neg hf, pushOut, consumeBit_outq]
  rw [BitVec.setWidth_eq_extractLsb' (by decide)]

end

/-! ### Each turn of the walk stops or consumes a bit (R248) -/

/-- A turn of the walk is a hold, ends the job or consumes one bit, for which it pushes at most one byte. -/
theorem EngineMove.walks {s t : State} (m : EngineMove s t) (hp : s.phase = .decWalk) (h8 : s.icnt.toNat ≤ 8) :
    t = s ∨ t.phase = .idle ∨ ∃ x, Unpacks s t [x] ∧ t.outq.length ≤ s.outq.length + 1 := by
  cases m with
  | stay => exact .inl rfl
  | truncated | badNode | badCode => exact .inr (.inl (raiseError_phase _ _ _))
  | endOfStream => exact .inr (.inl rfl)
  | leaf sym hp' ha hf => exact .inr (.inr ⟨_, Unpacks.of_consumeBit ha h8 _ _, by simp⟩)
  | inner hp' ha hi hv => exact .inr (.inr ⟨_, Unpacks.of_consumeBit ha h8 _ _, by simp⟩)
  | fetchByte h | fetchEnd h | emit h | padded h | pad h => rw [hp] at h; cases h

/-- Under the invariant the turn of a walk that is not held ends the job or consumes one bit. -/
theorem engineStep_walks {s : State} (h : StateInv s) (hp : s.phase = .decWalk) (hh : engineHeld s = false) :
    ∃ t, engineStep s = .next t ∧ StateInv t ∧
      ((t.phase = .idle ∧ HasOutcome t) ∨ ∃ x, Unpacks s t [x] ∧ t.outq.length ≤ s.outq.length + 1) := by
  obtain ⟨t, ht⟩ := engineStep_goesOn h
  have m := engineStep_move ht
  refine ⟨t, ht, m.keepsInv h, ?_⟩
  rcases m.walks hp h.icntBound with rfl | hidle | hbit
  · simp [(engineHoldsExactlyAsTheTablesSay t h).mp ht] at hh
  · have hstop := m.running_or_hasOutcome ((busy_eq_true_iff s).mpr (by simp [hp]))
    exact .inl ⟨hidle, hstop.resolve_left (by simp [busy, hidle])⟩
  · exact .inr hbit

/-- What a decode job has come to at `t`: it has ended, or waits before a bit for room in OUTQ (R247). -/
def EndedOrFull (t : State) : Prop :=
  (busy t = false ∧ (t.done = true ∨ t.err = true)) ∨
    (t.phase = .decWalk ∧ t.outq.length = 16 ∧ avail t = true ∧ engineHeld t = true ∧ engineStep t = .next t)

/-- With the end marked the only hold is the one on a full OUTQ (R247). -/
theorem endedOrFull_of_held {s : State} (h : StateInv s) (hp : s.phase = .decWalk) (he : s.iend = true) (hh : engineHeld s = true) :
    EndedOrFull s := by
  have hfull : decInputHold s = true ∨ (avail s = true ∧ nextBitEmits s = true) ∧ outqFull s = true := by
    simpa [engineHeld, hp] using hh
  obtain ⟨⟨ha, -⟩, hf⟩ := hfull.resolve_left (by simp [decInputHold, he])
  exact .inr ⟨hp, (outqFull_iff s).mp hf, ha, hh, (engineHoldsExactlyAsTheTablesSay s h).mpr hh⟩

/-- With the end marked a decode job comes to its end or to a full OUTQ by one turn more than there are bits. -/
theorem engineRun_endedOrFull (s : State) (h : StateInv s) (hp : s.phase = .decWalk) (hpend : s.pending = []) (he : s.iend = true) :
    ∃ n t, n ≤ (inputBits s).length + 1 ∧ engineRun n s = .next t ∧ EndedOrFull t ∧
      (s.outq.length + (inputBits s).length ≤ 16 → busy t = false) := by
  cases hh : engineHeld s with
  | true =>
    have hend := endedOrFull_of_held h hp he hh
    refine ⟨0, s, Nat.zero_le _, rfl, hend, fun hroom => ?_⟩
    rcases hend with ⟨hidle, -⟩ | ⟨-, hfull, ha, -⟩
    · exact hidle
    · have hbit := congrArg List.length (inputBits_eq_cons ha h.icntBound)
      rw [List.length_cons] at hbit
      omega
  | false =>
    obtain ⟨t, hstep, ht, ⟨hidle, -, hout⟩ | ⟨x, hx, hq⟩⟩ := engineStep_walks h hp hh
    · have hb := (busy_eq_false_iff t).mpr hidle
      exact ⟨1, t, by omega, engineRun_succ 0 s t hpend hstep, .inl ⟨hb, hout⟩, fun _ => hb⟩
    · have hlen : (inputBits s).length = (inputBits t).length + 1 := congrArg List.length hx.input
      obtain ⟨n, u, hn, hrun, hend, hroom⟩ := engineRun_endedOrFull t ht (hx.phase.trans hp) (hx.pending.trans hpend) (hx.iend.trans he)
      exact ⟨n + 1, u, by omega, (engineRun_succ n s t hpend hstep).trans hrun, hend, fun hle => hroom (by omega)⟩
termination_by (inputBits s).length
decreasing_by omega

/-! ### The paths of a tree in NODE (R249) -/

/-- In NODE the bits `p` lead from the node `idx` to a LEAF of `sym`. -/
inductive PathTo (s : State) (sym : Symbol) : NodeIdx → List Bool → Prop
  | here {idx : NodeIdx} (hi : idx.toNat < Config.nodeCount) (hv : nodeView (nodeWord s idx) = .leaf sym) : PathTo s sym idx []
  | down {idx zero one : NodeIdx} {b : Bool} {p : List Bool} (hi : idx.toNat < Config.nodeCount)
      (hv : nodeView (nodeWord s idx) = .internal zero one) (hp : PathTo s sym (if b then one else zero) p) : PathTo s sym idx (b :: p)

/-- The paths of a tree that NODE holds lead to its leaves (R286, R290). -/
theorem pathTo_of_mem_paths {s : State} {tree : CodeTree} {idx : NodeIdx} {sym : Symbol} {p : List Bool}
    (h : HoldsTree s tree idx) (hm : (sym, p) ∈ tree.paths) : PathTo s sym idx p := by
  induction tree generalizing idx p with
  | leaf sym' w =>
    obtain ⟨rfl, rfl⟩ : sym = sym' ∧ p = [] := by simpa [CodeTree.paths] using hm
    exact .here h.1 h.2
  | node w zero one ihz iho =>
    obtain ⟨hi, z, o, hv, hz, ho⟩ := h
    simp only [CodeTree.paths, List.mem_append, List.mem_map, Prod.mk.injEq] at hm
    rcases hm with ⟨⟨_, q⟩, hq, rfl, rfl⟩ | ⟨⟨_, q⟩, hq, rfl, rfl⟩
    · exact .down hi hv (ihz hz hq)
    · exact .down hi hv (iho ho hq)

/-- Before the end of a path the walk goes on at the node reached. -/
theorem PathTo.walkTo_eq {s : State} {sym : Symbol} {idx : NodeIdx} {p : List Bool} (h : PathTo s sym idx p) (hne : p ≠ []) :
    walkTo idx s = .next { consumeBit s with ptr := idx } := by
  cases h with
  | here => exact absurd rfl hne
  | down hi hv _ => exact walkTo_of_internal hi hv

theorem PathTo.congr {s t : State} (h : t.node = s.node) {sym : Symbol} {idx : NodeIdx} {p : List Bool} (k : PathTo s sym idx p) :
    PathTo t sym idx p := by
  induction k with
  | here hi hv => exact .here hi (by rwa [nodeWord_congr h])
  | down hi hv _ ih => exact .down hi (by rwa [nodeWord_congr h]) ih

theorem HoldsTree.congr {s t : State} (h : t.node = s.node) {tree : CodeTree} {idx : NodeIdx} (k : HoldsTree s tree idx) :
    HoldsTree t tree idx := by
  induction tree generalizing idx with
  | leaf sym w => simpa only [HoldsTree, nodeWord_congr h] using k
  | node w zero one ihz iho =>
    obtain ⟨hi, z, o, hv, hz, ho⟩ := k
    exact ⟨hi, z, o, by rwa [nodeWord_congr h], ihz hz, iho ho⟩

/-- `p` is what is left at PTR of a code of `sym`: a path that is not empty, or the bit 0 before a LEAF (R245, R286). -/
def CodeAhead (s : State) (sym : Symbol) (p : List Bool) : Prop :=
  (p ≠ [] ∧ PathTo s sym s.ptr p) ∨ (p = [false] ∧ PathTo s sym s.ptr [])

theorem CodeAhead.ne_nil {s : State} {sym : Symbol} {p : List Bool} (h : CodeAhead s sym p) : p ≠ [] := by
  rcases h with ⟨h, -⟩ | ⟨rfl, -⟩
  · exact h
  · simp

/-- At the root of a tree that NODE holds every code of the tree is ahead (R286). -/
theorem codeAhead_of_mem_codes {s : State} {tree : CodeTree} {sym : Symbol} {p : List Bool} (hptr : s.ptr = s.root)
    (h : HoldsTree s tree s.root) (hm : (sym, p) ∈ tree.codes) : CodeAhead s sym p := by
  rw [← hptr] at h
  cases tree with
  | leaf sym' w =>
    obtain ⟨rfl, rfl⟩ : sym = sym' ∧ p = [false] := by simpa [CodeTree.codes] using hm
    exact .inr ⟨rfl, .here h.1 h.2⟩
  | node w zero one =>
    have hpath := pathTo_of_mem_paths h hm
    obtain ⟨-, z, o, hv, -⟩ := h
    refine .inl ⟨?_, hpath⟩
    rintro rfl
    cases hpath with
    | here _ hv' => simp [hv] at hv'

/-! ### Runs of the decoder (R249) -/

/-- A decode job goes on at `s`: the walk is on, no event is coming, and the unpacker holds at most a byte. -/
structure Decoding (s : State) : Prop where
  phase   : s.phase = .decWalk
  pending : s.pending = []
  icnt    : s.icnt.toNat ≤ 8

theorem Unpacks.decoding {s t : State} {xs : List Bool} (h : Unpacks s t xs) (hd : Decoding s) : Decoding t :=
  ⟨h.phase.trans hd.phase, h.pending.trans hd.pending, h.icnt⟩

section
variable {s : State} (hd : Decoding s)
include hd

/-- The first bit of the stream is there, and PeekBit shows it. -/
theorem Decoding.first_bit {b : Bool} {rest : List Bool} (hin : inputBits s = b :: rest) : avail s = true ∧ peekBit s = b := by
  have ha := avail_of_inputBits_ne_nil hd.icnt (by simp [hin])
  rw [inputBits_eq_cons ha hd.icnt] at hin
  exact ⟨ha, (List.cons.inj hin).1⟩

/-- A bit of a path chooses the child by which the path goes on. -/
theorem engineStep_of_path {sym : Symbol} {b : Bool} {p rest : List Bool} (h : PathTo s sym s.ptr (b :: p))
    (hin : inputBits s = b :: rest) : ∃ idx, PathTo s sym idx p ∧ engineStep s = walkTo idx s := by
  obtain ⟨ha, rfl⟩ := hd.first_bit hin
  cases h with
  | down hi hv hp => exact ⟨_, hp, engineStep_of_internal hd.phase ha hd.icnt hi hv⟩

/-- The last bit of a code reaches its leaf. -/
theorem engineStep_of_last_bit {sym : Symbol} {b : Bool} {rest : List Bool} (h : CodeAhead s sym [b]) (hin : inputBits s = b :: rest) :
    ∃ idx, PathTo s sym idx [] ∧ engineStep s = walkTo idx s := by
  rcases h with ⟨-, hpath⟩ | ⟨hb, hpath⟩
  · exact engineStep_of_path hd hpath hin
  · obtain ⟨ha, hx⟩ := hd.first_bit hin
    cases hpath with
    | here hi hv => exact ⟨_, .here hi hv, engineStep_of_leaf hd.phase ha hd.icnt hi hv (hx.trans (List.cons.inj hb).1)⟩

end

/-- The walk follows a part of a code that is not the whole. -/
theorem engineRun_part_of_code {xs ys rest : List Bool} {s : State} {sym : Symbol} (hd : Decoding s) (h : CodeAhead s sym (xs ++ ys))
    (hys : ys ≠ []) (hin : inputBits s = xs ++ rest) :
    ∃ t, engineRun xs.length s = .next t ∧ Unpacks s t xs ∧ t.outq = s.outq ∧ CodeAhead t sym ys := by
  induction xs generalizing s with
  | nil => exact ⟨s, rfl, .refl hd.icnt, rfl, h⟩
  | cons x xs ih =>
    rcases h with ⟨-, hpath⟩ | ⟨heq, -⟩
    · obtain ⟨idx, hidx, hstep⟩ := engineStep_of_path hd hpath hin
      have hne : xs ++ ys ≠ [] := by simp [hys]
      rw [hidx.walkTo_eq hne] at hstep
      obtain ⟨ha, rfl⟩ := hd.first_bit hin
      have hu : Unpacks s { consumeBit s with ptr := idx } [peekBit s] := Unpacks.of_consumeBit ha hd.icnt idx _
      obtain ⟨t, hrun, ht, hq, hcode⟩ := ih (hu.decoding hd) (.inl ⟨hne, hidx.congr hu.node⟩)
        (List.cons.inj (hu.input.symm.trans hin)).2
      exact ⟨t, (engineRun_succ _ _ _ hd.pending hstep).trans hrun, hu.trans ht, hq.trans (consumeBit_outq s), hcode⟩
    · exact absurd heq (by simp [hys])

/-- The walk follows a code up to its last bit, which reaches the leaf. -/
theorem engineRun_code_to_leaf {s : State} {sym : Symbol} {p rest : List Bool} (hd : Decoding s) (h : CodeAhead s sym p)
    (hin : inputBits s = p ++ rest) :
    ∃ xs b t idx, p = xs ++ [b] ∧ engineRun xs.length s = .next t ∧ Unpacks s t xs ∧ t.outq = s.outq ∧ inputBits t = b :: rest ∧
      PathTo t sym idx [] ∧ engineStep t = walkTo idx t := by
  obtain ⟨xs, b, rfl⟩ := (List.eq_nil_or_concat' p).resolve_left h.ne_nil
  rw [List.append_assoc] at hin
  obtain ⟨t, hrun, ht, hq, hcode⟩ := engineRun_part_of_code hd h (by simp) hin
  have hrest : inputBits t = b :: rest := List.append_cancel_left (ht.input.symm.trans hin)
  obtain ⟨idx, hleaf, hstep⟩ := engineStep_of_last_bit (ht.decoding hd) hcode hrest
  exact ⟨xs, b, t, idx, rfl, hrun, ht, hq, hrest, hleaf, hstep⟩

/-- The walk follows the code of a byte, whose symbol is pushed, back to the root. -/
theorem engineRun_code_of_byte {s : State} {sym : Symbol} {p rest : List Bool} (hd : Decoding s) (h : CodeAhead s sym p)
    (heof : sym ≠ Config.pseudoEof) (hin : inputBits s = p ++ rest) (hroom : s.outq.length < 16) :
    ∃ t, engineRun p.length s = .next t ∧ Unpacks s t p ∧ t.ptr = s.root ∧ t.outq = s.outq ++ [sym.extractLsb' 0 8] := by
  obtain ⟨xs, b, u, idx, rfl, hrun, hu, hq, hrest, hleaf, hstep⟩ := engineRun_code_to_leaf hd h hin
  obtain ⟨ha, rfl⟩ := (hu.decoding hd).first_bit hrest
  cases hleaf with
  | here hi hv =>
    rw [walkTo_of_byte hi hv heof (by rw [hq]; omega), hq] at hstep
    refine ⟨_, ?_, hu.trans (Unpacks.of_consumeBit ha hu.icnt u.root (s.outq ++ [sym.extractLsb' 0 8])), hu.root, rfl⟩
    rw [List.length_append, engineRun_add _ _ s u hrun]
    exact engineRun_succ 0 _ _ (hu.decoding hd).pending hstep

/-- The walk follows the code of PSEUDO_EOF, which completes the job; the bits left of the byte are discarded. -/
theorem engineRun_code_of_eof {s : State} {p rest : List Bool} (hd : Decoding s) (h : CodeAhead s Config.pseudoEof p)
    (hin : inputBits s = p ++ rest) :
    ∃ t, engineRun p.length s = .next { t with icnt := 0#4, done := true, phase := .idle, iend := false } ∧ Unpacks s t p ∧
      t.outq = s.outq ∧ t.icnt.toNat ≤ 7 := by
  obtain ⟨xs, b, u, idx, rfl, hrun, hu, hq, hrest, hleaf, hstep⟩ := engineRun_code_to_leaf hd h hin
  obtain ⟨ha, rfl⟩ := (hu.decoding hd).first_bit hrest
  cases hleaf with
  | here hi hv =>
    rw [walkTo_of_eof hi hv] at hstep
    refine ⟨consumeBit u, ?_, hu.trans (Unpacks.of_consumeBit ha hu.icnt _ _), (consumeBit_outq u).trans hq,
      consumeBit_icnt_le ha hu.icnt⟩
    rw [List.length_append, engineRun_add _ _ s u hrun]
    exact engineRun_succ 0 _ _ (hu.decoding hd).pending hstep

/-- The walk follows the codes of bytes one after the other. -/
theorem engineRun_codes {tree : CodeTree} {parsed : List (Symbol × List Bool)} {rest : List Bool} {s : State} (hd : Decoding s)
    (hptr : s.ptr = s.root) (htree : HoldsTree s tree s.root) (hcodes : ∀ c ∈ parsed, c ∈ tree.codes ∧ c.1 ≠ Config.pseudoEof)
    (hin : inputBits s = parsed.flatMap Prod.snd ++ rest) (hroom : s.outq.length + parsed.length ≤ 16) :
    ∃ t, engineRun (parsed.flatMap Prod.snd).length s = .next t ∧ Unpacks s t (parsed.flatMap Prod.snd) ∧ t.ptr = t.root ∧
      t.outq = s.outq ++ parsed.map (fun c => c.1.extractLsb' 0 8) := by
  induction parsed generalizing s with
  | nil => exact ⟨s, rfl, .refl hd.icnt, hptr, by simp⟩
  | cons c parsed ih =>
    obtain ⟨⟨hc, heof⟩, hcodes⟩ := List.forall_mem_cons.mp hcodes
    rw [List.flatMap_cons] at hin ⊢
    rw [List.append_assoc] at hin
    rw [List.length_cons] at hroom
    obtain ⟨u, hrun, hu, hptru, hqu⟩ := engineRun_code_of_byte hd (codeAhead_of_mem_codes hptr htree hc) heof hin (by omega)
    rw [← hu.root] at hptru htree
    obtain ⟨t, hrun', ht, hptrt, hqt⟩ := ih (hu.decoding hd) hptru (htree.congr hu.node) hcodes
      (List.append_cancel_left (hu.input.symm.trans hin)) (by rw [hqu, List.length_append, List.length_singleton]; omega)
    exact ⟨t, by rw [List.length_append, engineRun_add _ _ s u hrun, hrun'], hu.trans ht, hptrt, by simp [hqt, hqu]⟩

/-! ### The obligations -/

/-- Settles O42: by the two ways a bit is consumed. -/
theorem unpackerTakesTheFirstBit : Obligations.UnpackerTakesTheFirstBit := by
  intro s ha h8
  refine ⟨peekBit s, inputBits (consumeBit s), inputBits_eq_cons ha h8, rfl, nextBit_fst_eq_peekBit s, rfl, consumeBit_icnt_le ha h8,
    consumeBit_frame s, ?_⟩
  rcases consumeBit_cases s ha with ⟨h0, -, hbit⟩ | ⟨b, rest, h0, hq, -, hbit⟩
  · exact ⟨fun _ => hbit, fun h => absurd h h0⟩
  · refine ⟨fun h => absurd h0 h, fun _ x rest' hx => ?_⟩
    obtain ⟨rfl, -⟩ := List.cons.inj (hq.symm.trans hx)
    exact hbit

/-- Settles O43: the bit chooses the child, and there is one turn for each kind of child. -/
theorem decoderStepFollowsTheBit : Obligations.DecoderStepFollowsTheBit := by
  intro s z o hp ha h8 hptr hv hz ho
  rw [engineStep_of_internal hp ha h8 (Nat.lt_succ_of_le hptr) hv]
  have hi : (if peekBit s then o else z).toNat < Config.nodeCount := Nat.lt_succ_of_le (by split_ifs <;> assumption)
  exact ⟨fun _ _ => walkTo_of_internal hi, fun _ => walkTo_of_byte hi, walkTo_of_eof hi, walkTo_of_empty hp hi⟩

/-- Settles O46: an idle state or one bit consumed is all that a turn without a hold can lead to. -/
theorem eachWalkStepStopsOrConsumesABit : Obligations.EachWalkStepStopsOrConsumesABit := by
  intro s h hp hh
  obtain ⟨t, hstep, -, ⟨hidle, -⟩ | ⟨x, hx, -⟩⟩ := engineStep_walks h hp hh
  · exact ⟨t, hstep, .inl hidle⟩
  · exact ⟨t, hstep, .inr ⟨hx.phase.trans hp, (congrArg List.length hx.input).symm, hx.bitsin⟩⟩

/-- Settles O47: each turn takes one of the bits there are, and the last finds none. -/
theorem decodeJobEndsInTime : Obligations.DecodeJobEndsInTime := by
  intro s h hp hpend he
  rw [← inputBits_length s h.icntBound]
  exact engineRun_endedOrFull s h hp hpend he

/-- Settles O48: the path is a code ahead at the root. -/
theorem decoderWalksAPathToItsSymbol : Obligations.DecoderWalksAPathToItsSymbol := by
  intro s tree sym p rest hp hpend hptr h8 htree hm heof hin hroom
  obtain ⟨t, hrun, ht, hptrt, hq⟩ :=
    engineRun_code_of_byte ⟨hp, hpend, h8⟩ (codeAhead_of_mem_codes hptr htree hm) heof hin hroom
  refine ⟨t, hrun, (List.append_cancel_left (hin.symm.trans ht.input)).symm, ht.icnt, ?_⟩
  have hframe := ht.frame
  rwa [walkedState, hptrt.trans hptr.symm, hq] at hframe

/-- Settles O49: the codes of the bytes, then the code of PSEUDO_EOF. -/
theorem decodeJobEmitsTheSymbols : Obligations.DecodeJobEmitsTheSymbols := by
  intro s tree parsed eofPath rest hp hpend hptr h8 htree hcodes heof hin hroom
  rw [List.append_assoc] at hin
  obtain ⟨u, hrunu, hu, hptru, hqu⟩ := engineRun_codes ⟨hp, hpend, h8⟩ hptr htree hcodes hin hroom
  have hdu := hu.decoding ⟨hp, hpend, h8⟩
  rw [← hu.root] at htree
  obtain ⟨v, hrunv, hv, hqv, h7⟩ := engineRun_code_of_eof hdu (codeAhead_of_mem_codes hptru (htree.congr hu.node) heof)
    (List.append_cancel_left (hu.input.symm.trans hin))
  have hall := hu.trans hv
  have hrun := (engineRun_add _ _ s u hrunu).trans hrunv
  rw [← List.length_append] at hrun ⊢
  exact ⟨_, hrun, rfl, rfl, hall.err, rfl, rfl, hall.inq_eq_drop h8 h7, hqv.trans hqu, hall.bitsin⟩

/-- Settles O50: the codes of the bytes, a part of one more, and then no bit. -/
theorem decodeJobTruncatesAnUnfinishedStream : Obligations.DecodeJobTruncatesAnUnfinishedStream := by
  intro s tree parsed tail unread last hp hpend hptr h8 he htree hcodes hlast hne hin hroom
  obtain ⟨u, hrunu, hu, hptru, hqu⟩ := engineRun_codes ⟨hp, hpend, h8⟩ hptr htree hcodes hin hroom
  have hdu := hu.decoding ⟨hp, hpend, h8⟩
  rw [← hu.root] at htree
  have hinu : inputBits u = tail ++ [] := by rw [List.append_nil]; exact List.append_cancel_left (hu.input.symm.trans hin)
  obtain ⟨v, hrunv, hv, hqv, -⟩ := engineRun_part_of_code hdu (codeAhead_of_mem_codes hptru (htree.congr hu.node) hlast) hne hinu
  have hall := hu.trans hv
  have hrun := (engineRun_add _ _ s u hrunu).trans hrunv
  rw [← List.length_append, ← hin] at hrun
  rw [← hin] at hall
  obtain ⟨hq, ha⟩ := avail_of_inputBits_nil hv.icnt (List.append_cancel_left (hv.input.symm.trans hinu))
  have hstep := engineStep_of_truncated (hall.phase.trans hp) ha (hall.iend.trans he)
  exact ⟨_, (engineRun_add _ 1 s v hrun).trans (engineRun_succ 0 v _ (hall.pending.trans hpend) hstep), rfl, rfl, rfl, hall.done, rfl, hq,
    hqv.trans hqu, hall.bitsin⟩

/-- Settles O23: the writes are those of the start, and STATUS shows the phase; an EMPTY root is the error stop. -/
theorem decodeStartsAJobUnlessTheRootIsEmpty : Obligations.DecodeStartsAJobUnlessTheRootIsEmpty := by
  intro s hroot
  have hn : nodeAt s s.root = some (nodeWord s s.root) := (nodeAt_eq_some_iff _ _ _).mpr ⟨Nat.lt_succ_of_le hroot, rfl⟩
  simp only [exec, execDecode, hn, nodeView_empty_iff]
  refine ⟨fun h => ⟨startDecode s, if_neg h, rfl, ?_, ?_⟩, fun h => ?_⟩
  · rw [(statusWord_flags _).1]
    rfl
  · rw [(statusWord_fields _).1]
    rfl
  · rw [if_pos h, raiseError_eq_of_phase]

/-- Settles O44: bit 1 is no code, and bit 0 reaches the leaf at the root again. -/
theorem singleLeafTreeHasTheCodeZero : Obligations.SingleLeafTreeHasTheCodeZero := by
  intro s sym hp ha h8 hroot hptr hv
  have hi : s.root.toNat < Config.nodeCount := Nat.lt_succ_of_le hroot
  have hv' : nodeView (nodeWord s s.ptr) = .leaf sym := by rwa [hptr]
  have hi' : s.ptr.toNat < Config.nodeCount := by rwa [hptr]
  refine ⟨fun hx => ?_, fun hx heof hq => ?_, fun hx heof => ?_⟩
  · rw [engineStep_of_leaf_one hp ha h8 hi' hv' hx, hptr]
  · rw [engineStep_of_leaf hp ha h8 hi' hv' hx, walkTo_of_byte hi' hv' heof hq, ← hptr, ← consumeBit_ptr s]
  · subst heof
    rw [engineStep_of_leaf hp ha h8 hi' hv' hx, walkTo_of_eof hi' hv']

/-- Settles O45: with no bit there, IEND decides. -/
theorem decoderTruncatesAtTheEnd : Obligations.DecoderTruncatesAtTheEnd := by
  intro s hp hc hq
  have ha : avail s = false := by simp [avail, hc, hq]
  exact ⟨engineStep_of_truncated hp ha, engineStep_of_bit_hold hp ha⟩

end Sys2Proof.Machine
end

section
/-! PROOFS of the family 44_host_reference: the codes of a tree, what the builder's queue keeps, the tree in NODE after its load, and the round
trip of an encode and a decode job. -/

namespace Sys2Proof.Machine

/-! ### The codes of a tree (R286, R287) -/

/-- Two leaves under a node part ways at a node above both, so neither path begins the other (R287). -/
theorem CodeTree.paths_prefixFree (t : CodeTree) : t.paths.Pairwise (fun c d => ¬c.2 <+: d.2 ∧ ¬d.2 <+: c.2) := by
  induction t with
  | leaf sym w => exact List.pairwise_singleton _ _
  | node w zero one ihz iho =>
    refine List.pairwise_append.mpr ⟨?_, ?_, ?_⟩
    · simpa [List.pairwise_map, List.cons_prefix_cons] using ihz
    · simpa [List.pairwise_map, List.cons_prefix_cons] using iho
    · simp only [List.forall_mem_map]
      intro c _ d _
      simp [List.cons_prefix_cons]

theorem CodeTree.code_ne_nil {t : CodeTree} {c : Symbol × List Bool} (h : c ∈ t.codes) : c.2 ≠ [] := by
  cases t with
  | leaf sym w =>
    obtain rfl := List.mem_singleton.mp h
    simp
  | node w zero one =>
    simp only [CodeTree.codes, CodeTree.paths, List.mem_append, List.mem_map] at h
    rcases h with ⟨c, -, rfl⟩ | ⟨c, -, rfl⟩ <;> simp

theorem CodeTree.mem_symbols_iff {t : CodeTree} {sym : Symbol} : sym ∈ t.symbols ↔ ∃ p, (sym, p) ∈ t.codes := by
  simp [← t.codes_map_fst]

/-! ### The builder's queue (R282-R285) -/

/-- The weighted leaves of every tree in the queue. -/
def queuedLeaves (q : List Queued) : List (Symbol × Nat) := q.flatMap fun x => x.tree.leafWeights

theorem queuedLeaves_queueInsert (x : Queued) (q : List Queued) :
    (queuedLeaves (queueInsert x q)).Perm (x.tree.leafWeights ++ queuedLeaves q) :=
  (queueInsert_perm x q).flatMap_right _

theorem queueInsert_length (x : Queued) (q : List Queued) : (queueInsert x q).length = q.length + 1 := (queueInsert_perm x q).length_eq

theorem forall_mem_queueInsert {P : Queued → Prop} {x : Queued} {q : List Queued} :
    (∀ y ∈ queueInsert x q, P y) ↔ P x ∧ ∀ y ∈ q, P y := by
  simp only [(queueInsert_perm x q).mem_iff, List.forall_mem_cons]

theorem queueLeaves_length (freq : List (Symbol × Nat)) (seq : Nat) : (queueLeaves freq seq).length = freq.length := by
  induction freq generalizing seq with
  | nil => rfl
  | cons c freq ih => rw [queueLeaves, queueInsert_length, ih, List.length_cons]

theorem queuedLeaves_queueLeaves (freq : List (Symbol × Nat)) (seq : Nat) : (queuedLeaves (queueLeaves freq seq)).Perm freq := by
  induction freq generalizing seq with
  | nil => exact List.Perm.refl _
  | cons c freq ih => exact (queuedLeaves_queueInsert _ _).trans ((ih (seq + 1)).cons c)

theorem queueLeaves_weightsAddUp (freq : List (Symbol × Nat)) (seq : Nat) : ∀ x ∈ queueLeaves freq seq, x.tree.weightsAddUp := by
  induction freq generalizing seq with
  | nil => simp [queueLeaves]
  | cons c freq ih => exact forall_mem_queueInsert.mpr ⟨trivial, ih (seq + 1)⟩

/-- Each merge leaves one tree less, so with that much fuel the merges fail on the empty queue alone (R284). -/
theorem mergeQueue_eq_none_iff {fuel seq : Nat} {q : List Queued} (h : q.length ≤ fuel + 1) : mergeQueue fuel seq q = none ↔ q = [] := by
  fun_induction mergeQueue fuel seq q with
  | case1 => simp
  | case2 => simp
  | case3 => simp at h
  | case4 fuel seq x y q ih =>
    simp only [List.length_cons] at h
    have hne : queueInsert ⟨seq, x.tree.merge y.tree⟩ q ≠ [] := by
      rw [← List.length_pos_iff, queueInsert_length]
      omega
    simpa [hne] using ih (by rw [queueInsert_length]; omega)

/-- The merges lose no leaf, and keep the sums of the weights (R282, R285). -/
theorem mergeQueue_leafWeights {fuel seq : Nat} {q : List Queued} {tree : CodeTree} (h : mergeQueue fuel seq q = some tree)
    (hq : ∀ x ∈ q, x.tree.weightsAddUp) : tree.leafWeights.Perm (queuedLeaves q) ∧ tree.weightsAddUp := by
  fun_induction mergeQueue fuel seq q with
  | case1 => cases h
  | case2 _ _ x =>
    cases h
    exact ⟨by simp [queuedLeaves], hq x List.mem_cons_self⟩
  | case3 => cases h
  | case4 fuel seq x y q ih =>
    obtain ⟨hx, hy, hq⟩ : x.tree.weightsAddUp ∧ y.tree.weightsAddUp ∧ ∀ z ∈ q, z.tree.weightsAddUp := by
      simpa only [List.forall_mem_cons] using hq
    obtain ⟨hperm, hsum⟩ := ih h (forall_mem_queueInsert.mpr ⟨CodeTree.merge_weightsAddUp hx hy, hq⟩)
    refine ⟨hperm.trans ((queuedLeaves_queueInsert _ _).trans ?_), hsum⟩
    simp [queuedLeaves, CodeTree.merge, CodeTree.leafWeights]

theorem buildTree_eq_none_iff (freq : List (Symbol × Nat)) : buildTree freq = none ↔ freq = [] := by
  rw [buildTree, mergeQueue_eq_none_iff (by rw [queueLeaves_length]; omega), ← List.length_eq_zero_iff, queueLeaves_length,
    List.length_eq_zero_iff]

theorem buildTree_leafWeights {freq : List (Symbol × Nat)} {tree : CodeTree} (h : buildTree freq = some tree) :
    tree.leafWeights.Perm freq ∧ tree.weightsAddUp := by
  obtain ⟨hperm, hsum⟩ := mergeQueue_leafWeights h (queueLeaves_weightsAddUp freq 0)
  exact ⟨hperm.trans (queuedLeaves_queueLeaves freq 0), hsum⟩

theorem buildTree_symbols {freq : List (Symbol × Nat)} {tree : CodeTree} (h : buildTree freq = some tree) :
    tree.symbols.Perm (freq.map Prod.fst) := by
  rw [← tree.leafWeights_map_fst]
  exact (buildTree_leafWeights h).1.map _

/-! ### The tree load (R289) -/

@[simp] theorem zeroChild_internalWord (z o : NodeIdx) : zeroChild (internalWord z o) = z := (eq_internalWord_iff.mp rfl).2.2.1

@[simp] theorem oneChild_internalWord (z o : NodeIdx) : oneChild (internalWord z o) = o := (eq_internalWord_iff.mp rfl).2.2.2

theorem treeLoaded_leaf_iff {s : State} {sym : Symbol} {w i : Nat} :
    TreeLoaded s (.leaf sym w) i ↔ nodeWord s (BitVec.ofNat 10 i) = leafWord sym := by
  simp [TreeLoaded, CodeTree.words]

/-- The root's word comes first, then the zero child's words and then the one child's. -/
theorem treeLoaded_node_iff {s : State} {w i : Nat} {zero one : CodeTree} :
    TreeLoaded s (.node w zero one) i ↔
      nodeWord s (BitVec.ofNat 10 i) = internalWord (BitVec.ofNat 10 (i + 1)) (BitVec.ofNat 10 (i + 1 + zero.size)) ∧
        TreeLoaded s zero (i + 1) ∧ TreeLoaded s one (i + 1 + zero.size) := by
  simp only [TreeLoaded, CodeTree.words, List.forall_mem_cons, List.forall_mem_append]

theorem toNat_nodeIdx_of_lt {i : Nat} (h : i < 513) : (BitVec.ofNat 10 i).toNat < Config.nodeCount := by
  rw [BitVec.toNat_ofNat, Nat.mod_eq_of_lt (by omega)]
  exact h

/-- A tree loaded from index `i` is held at `i`. -/
theorem TreeLoaded.holdsTree {s : State} {t : CodeTree} {i : Nat} (h : TreeLoaded s t i) (hsize : i + t.size ≤ 513) :
    HoldsTree s t (BitVec.ofNat 10 i) := by
  induction t generalizing i with
  | leaf sym w => exact ⟨toNat_nodeIdx_of_lt hsize, by rw [treeLoaded_leaf_iff.mp h, nodeView_leafWord]⟩
  | node w zero one ihz iho =>
    obtain ⟨hw, hz, ho⟩ := treeLoaded_node_iff.mp h
    rw [CodeTree.size] at hsize
    exact ⟨toNat_nodeIdx_of_lt (by omega), _, _, by rw [hw, nodeView_internalWord], ihz hz (by omega), iho ho (by omega)⟩

/-- A tree loaded from index `i` takes up the indices from `i` on, in pre-order. -/
theorem TreeLoaded.treeIndices_eq {s : State} {t : CodeTree} {i : Nat} (h : TreeLoaded s t i) :
    treeIndices s t (BitVec.ofNat 10 i) = (List.range' i t.size).map (BitVec.ofNat 10) := by
  induction t generalizing i with
  | leaf sym w => rfl
  | node w zero one ihz iho =>
    obtain ⟨hw, hz, ho⟩ := treeLoaded_node_iff.mp h
    rw [treeIndices, hw, zeroChild_internalWord, oneChild_internalWord, ihz hz, iho ho, ← List.map_append, List.range'_append_1,
      ← List.map_cons, ← List.range'_succ, CodeTree.size]
    congr 2
    omega

theorem nodup_nodeIndices {n : Nat} (h : n ≤ 513) : ((List.range n).map (BitVec.ofNat 10)).Nodup := by
  refine List.Nodup.map_on (fun i hi j hj heq => ?_) List.nodup_range
  rw [List.mem_range] at hi hj
  bv_omega

/-! ### The input as codes of the tree (R290) -/

theorem WFTable.mem_codes {s : State} {t : CodeTree} {m : List Byte} (h : WFTable s t m) {sym : Symbol} (hs : sym ∈ t.symbols) :
    (sym, codeBits (codeAt s sym)) ∈ t.codes := by
  obtain ⟨p, hp⟩ := CodeTree.mem_symbols_iff.mp hs
  rwa [(h.1 _ hp).2]

/-- A byte of the input has a code, so its symbol is at a leaf. -/
theorem WFTable.mem_symbols {s : State} {t : CodeTree} {m : List Byte} (h : WFTable s t m) (hc : InputCovered s m) {b : Byte}
    (hb : b ∈ m) : b.setWidth 9 ∈ t.symbols := by
  by_contra hs
  rcases h.2 _ hs with h0 | hno
  · exact hc.1 b hb h0
  · exact hno b hb rfl

/-- The bytes of an input as symbols, each with its code in CT. -/
def codedInput (s : State) (m : List Byte) : List (Symbol × List Bool) :=
  m.map fun b => (b.setWidth 9, codeBits (codeAt s (b.setWidth 9)))

theorem codedInput_bits (s : State) (m : List Byte) : (codedInput s m).flatMap Prod.snd = codesOf s m := List.flatMap_map _ _ _

theorem codedInput_length (s : State) (m : List Byte) : (codedInput s m).length = m.length := List.length_map _

theorem byte_of_symbol (b : Byte) : (b.setWidth 9).extractLsb' 0 8 = b := by
  rw [← BitVec.setWidth_eq_extractLsb' (by decide), BitVec.setWidth_setWidth_of_le _ (by decide), BitVec.setWidth_eq]

theorem codedInput_bytes (s : State) (m : List Byte) : (codedInput s m).map (fun c => c.1.extractLsb' 0 8) = m :=
  List.map_map.trans (List.map_id'' byte_of_symbol m)

/-- PSEUDO_EOF is no byte (R103). -/
theorem symbol_of_byte_ne_eof (b : Byte) : b.setWidth 9 ≠ Config.pseudoEof := by
  bv_omega

theorem WFTable.codedInput_mem {s : State} {t : CodeTree} {m : List Byte} (h : WFTable s t m) (hc : InputCovered s m) :
    ∀ c ∈ codedInput s m, c ∈ t.codes ∧ c.1 ≠ 0x100#9 :=
  List.forall_mem_map.mpr fun b hb => ⟨h.mem_codes (h.mem_symbols hc hb), symbol_of_byte_ne_eof b⟩

theorem endedWell_of_idle {s : State} (hp : s.phase = .idle) (hd : s.done = true) : endedWell s = true := by
  simp [endedWell, busy, hp, hd]

/-! ### The tables loaded from the input's own tree (R281, R288, R289) -/

theorem frequencyCount_length_le (m : List Byte) : (frequencyCount m).length ≤ 257 := by
  rw [frequencyCount, List.length_append]
  exact Nat.add_le_add_right ((List.length_filterMap_le _ _).trans_eq List.length_range) 1

theorem byte_mem_frequencyCount {m : List Byte} {b : Byte} (hb : b ∈ m) : b.setWidth 9 ∈ (frequencyCount m).map Prod.fst := by
  have hcount : m.count b ≠ 0 := (List.count_pos_iff.mpr hb).ne'
  refine List.mem_map.mpr ⟨(b.setWidth 9, m.count b), List.mem_append_left _ (List.mem_filterMap.mpr ?_), rfl⟩
  exact ⟨b.toNat, List.mem_range.mpr b.isLt, by simp [hcount, BitVec.ofNat_toNat]⟩

theorem eof_mem_frequencyCount (m : List Byte) : Config.pseudoEof ∈ (frequencyCount m).map Prod.fst := by simp [frequencyCount]

theorem IsFrequencyMap.nodup {freq : List (Symbol × Nat)} (h : IsFrequencyMap freq) : (freq.map Prod.fst).Nodup :=
  List.pairwise_map.mpr ((List.pairwise_map.mp h).imp fun hlt heq => hlt.ne (congrArg BitVec.toNat heq))

/-- A loaded code is present: its length is not 0 and fits LEN. -/
theorem TableLoaded.len_ne_zero {s : State} {t : CodeTree} (h : TableLoaded s t) {sym : Symbol} (hs : sym ∈ t.symbols) :
    (codeAt s sym).len ≠ 0#7 := by
  obtain ⟨p, hp⟩ := CodeTree.mem_symbols_iff.mp hs
  obtain ⟨h64, hcode⟩ : p.length ≤ 64 ∧ codeAt s sym = _ := h _ hp
  have hpos : 0 < p.length := List.length_pos_of_ne_nil (CodeTree.code_ne_nil hp)
  rw [hcode]
  bv_omega

theorem TableLoaded.codeBits_eq {s : State} {t : CodeTree} (h : TableLoaded s t) {c : Symbol × List Bool} (hc : c ∈ t.codes) :
    c.2.length ≤ Config.maxCodeLen ∧ codeBits (codeAt s c.1) = c.2 := by
  obtain ⟨h64, hcode⟩ := h c hc
  exact ⟨h64, by rw [hcode]; exact (aLoadedCodeSpellsItsString c.2 h64).1⟩

section
variable {m : List Byte} {tree : CodeTree} (hbuild : buildTree (frequencyCount m) = some tree)
include hbuild

theorem byte_mem_builtTree {b : Byte} (hb : b ∈ m) : b.setWidth 9 ∈ tree.symbols :=
  (buildTree_symbols hbuild).mem_iff.mpr (byte_mem_frequencyCount hb)

theorem eof_mem_builtTree : Config.pseudoEof ∈ tree.symbols :=
  (buildTree_symbols hbuild).mem_iff.mpr (eof_mem_frequencyCount m)

/-- The tree of at most 257 symbols fits NODE. -/
theorem builtTree_size_le : tree.size ≤ 513 := by
  have hsize := tree.size_add_one
  have hlen := (buildTree_symbols hbuild).length_eq
  have hle := frequencyCount_length_le m
  rw [List.length_map] at hlen
  omega

theorem TableLoaded.wfTable {s : State} (h : TableLoaded s tree) : WFTable s tree m :=
  ⟨fun _ => h.codeBits_eq, fun _ hs => .inr fun _ hb heq => hs (heq ▸ byte_mem_builtTree hbuild hb)⟩

theorem TableLoaded.inputCovered {s : State} (h : TableLoaded s tree) : InputCovered s m :=
  ⟨fun _ hb => h.len_ne_zero (byte_mem_builtTree hbuild hb), h.len_ne_zero (eof_mem_builtTree hbuild)⟩

theorem TreeLoaded.wfTree {s : State} (h : TreeLoaded s tree 0) (hroot : s.root = 0#10) : WFTree s tree := by
  have hsize := builtTree_size_le hbuild
  have hindices := h.treeIndices_eq
  rw [← List.range_eq_range'] at hindices
  unfold WFTree
  rw [hroot]
  exact ⟨h.holdsTree (by omega), hindices ▸ nodup_nodeIndices hsize,
    (buildTree_symbols hbuild).nodup_iff.mpr (frequencyCount_isFrequencyMap m).nodup, eof_mem_builtTree hbuild⟩

end

/-! ### The obligations -/

/-- Settles O53: the codes are the paths, or one code alone. -/
theorem codesOfATreeArePrefixFree : Obligations.CodesOfATreeArePrefixFree := by
  intro tree
  cases tree with
  | leaf sym w => exact List.pairwise_singleton _ _
  | node w zero one => exact (CodeTree.node w zero one).paths_prefixFree

/-- Settles O55: the queue's leaves are the map's entries, and no merge loses one. -/
theorem builtTreeHoldsEachSymbolOnce : Obligations.BuiltTreeHoldsEachSymbolOnce := fun freq =>
  ⟨buildTree_eq_none_iff freq, fun _ h => ⟨buildTree_symbols h, buildTree_leafWeights h⟩⟩

/-- Settles O56: the load from any index, at 0. -/
theorem treeLoadMakesTheTree : Obligations.TreeLoadMakesTheTree := by
  intro s tree hsize h
  rw [List.range_eq_range']
  exact ⟨h.holdsTree (by omega), h.treeIndices_eq⟩

/-- Settles O57: the bytes of the encode job carry the codes of the input and of PSEUDO_EOF, which are codes of the tree the decode job
walks. -/
theorem decodingTheEncodedInputGivesItBack : Obligations.DecodingTheEncodedInputGivesItBack := by
  intro e d tree htable hlegal hcov htree hpe hocnt hpende hiend hqe hin hbits hpd hptr hicnt hpendd hqd hmsbf
  obtain ⟨hholds, -, -, heof⟩ := htree
  obtain ⟨n, t, ys, -, hrun, hpt, hdt, -, -, -, hqt, -, hstream, -⟩ :=
    encodeJobPacksTheWholeInput e hpe hocnt hpende hiend hlegal hcov (by rw [hqe, List.length_nil]; omega)
  refine ⟨n, t, hrun, endedWell_of_idle hpt hdt, fun hq => ?_⟩
  have hinput : inputBits d = (codedInput e e.inq).flatMap Prod.snd ++ codeBits (codeAt e Config.pseudoEof) ++
      padBits (encodedBits e e.inq).length := by
    rw [codedInput_bits, ← encodedBits_eq, ← hstream, inputBits, hq, hqt, hqe, hmsbf]
    simp [heldBits, hicnt]
  obtain ⟨u, hrunu, hpu, hdu, -, -, -, -, hqu, -⟩ :=
    decodeJobEmitsTheSymbols d tree (codedInput e e.inq) _ _ hpd hpendd hptr (by simp [hicnt]) hholds (htable.codedInput_mem hcov)
      (htable.mem_codes heof) hinput (by rw [hqd, codedInput_length, List.length_nil]; omega)
  exact ⟨_, u, hrunu, endedWell_of_idle hpu hdu, by rw [hqu, hqd, codedInput_bytes, List.nil_append]⟩

/-- Settles O58: the loaded tables meet R290. -/
theorem theReferenceProcedureRoundTrips : Obligations.TheReferenceProcedureRoundTrips := by
  intro e d tree hbuild htable hlegal hload hroot hpe hocnt hpende hiend hqe hin hbits hpd hptr
  exact decodingTheEncodedInputGivesItBack e d tree (htable.wfTable hbuild) hlegal (htable.inputCovered hbuild)
    (hload.wfTree hbuild hroot) hpe hocnt hpende hiend hqe hin hbits hpd (hptr.trans hroot.symm)

end Sys2Proof.Machine
end

section
/-! PROOFS of the family 60_exceptions: the engine's four errors and what each has written before its raise (R322, R323). -/

namespace Sys2Proof.Machine

/-- An engine error: its code, its ERRINFO and the state that the writes before the raise have made of `s` (R320, R323). -/
inductive EngineRaise (s : State) : ErrCode → BitVec 10 → State → Prop
  | gapOfByte {b : Byte} {rest : List Byte} (hq : s.inq = b :: rest) :
      EngineRaise s .encGap ((b.setWidth 9).setWidth 10) { s with inq := rest }
  | gapOfEnd (hq : s.inq = []) : EngineRaise s .encGap (Config.pseudoEof.setWidth 10) s
  | truncated : EngineRaise s .truncated s.ptr s
  | badNode (ha : avail s = true) (idx : NodeIdx) : EngineRaise s .badNode idx (consumeBit s)
  | badCode (ha : avail s = true) : EngineRaise s .badCode s.ptr (consumeBit s)

section
variable {s t u : State} {code : ErrCode} {info : BitVec 10}

/-- A fetch sets ERR only where the code is absent. -/
theorem codeAt_len_eq_zero_of_fetchCode_err {sym : Symbol} {last : Bool} (he : s.err = false) (ht : (fetchCode sym last s).err = true) :
    (codeAt s sym).len = 0#7 := by
  by_contra h0
  rw [fetchCode_present sym last s h0] at ht
  simp [he] at ht

/-- A turn that sets ERR is the error stop at one of the engine's errors. -/
theorem EngineMove.raises (m : EngineMove s t) (he : s.err = false) (ht : t.err = true) :
    ∃ code info u, EngineRaise s code info u ∧ t = raiseError code info u := by
  cases m with
  | @fetchByte b rest hp hq =>
    have h0 := codeAt_len_eq_zero_of_fetchCode_err (s := { s with inq := rest }) he ht
    exact ⟨_, _, _, .gapOfByte hq, fetchCode_absent _ _ { s with inq := rest } h0⟩
  | fetchEnd hp hq _ =>
    exact ⟨_, _, _, .gapOfEnd hq, fetchCode_absent _ _ s (codeAt_len_eq_zero_of_fetchCode_err he ht)⟩
  | truncated => exact ⟨_, _, _, .truncated, rfl⟩
  | badNode idx hp ha => exact ⟨_, _, _, .badNode ha idx, rfl⟩
  | badCode hp ha => exact ⟨_, _, _, .badCode ha, rfl⟩
  | stay | emit | padded | pad | endOfStream | leaf | inner => simp [he, emitBit, jobDone] at ht

/-- Before its raise an engine error has written INQ, the unpacker and BITSIN at most. -/
theorem EngineRaise.frame (r : EngineRaise s code info u) :
    u = { s with inq := u.inq, iacc := u.iacc, icnt := u.icnt, bitsin := u.bitsin } := by
  cases r with
  | gapOfByte | gapOfEnd | truncated => rfl
  | badNode | badCode => rw [consumeBit_bitsin]; exact consumeBit_frame s

/-- What an engine error has consumed: the byte at the head of INQ, nothing, or the bit that failed. -/
theorem EngineRaise.consumed (r : EngineRaise s code info u) (h8 : s.icnt.toNat ≤ 8) :
    (code = .encGap ∧ u.bitsin = s.bitsin ∧ u.inq = s.inq.tail) ∨
      (code = .truncated ∧ u.bitsin = s.bitsin ∧ u.inq = s.inq ∧ info = s.ptr) ∨
      ((code = .badNode ∨ code = .badCode) ∧ u.bitsin = s.bitsin + 1#32 ∧ (inputBits u).length + 1 = (inputBits s).length) := by
  have hbit (ha : avail s = true) : (inputBits (consumeBit s)).length + 1 = (inputBits s).length :=
    (congrArg List.length (inputBits_eq_cons ha h8)).symm
  cases r with
  | gapOfByte hq => exact .inl ⟨rfl, rfl, by rw [hq, List.tail_cons]⟩
  | gapOfEnd hq => exact .inl ⟨rfl, rfl, by rw [hq, List.tail_nil]⟩
  | truncated => exact .inr (.inl ⟨rfl, rfl, rfl, rfl⟩)
  | badNode ha => exact .inr (.inr ⟨.inl rfl, consumeBit_bitsin s, hbit ha⟩)
  | badCode ha => exact .inr (.inr ⟨.inr rfl, consumeBit_bitsin s, hbit ha⟩)

end

/-- The error stop takes nothing from the stream to consume (R322). -/
@[simp] theorem inputBits_raiseError (code : ErrCode) (info : BitVec 10) (s : State) :
    inputBits (raiseError code info s) = inputBits s := by
  simp [inputBits, heldBits]

/-! ### The obligation -/

/-- Settles O52: the step is the error stop after what one of the four errors has consumed. -/
theorem engineErrorsArePrecise : Obligations.EngineErrorsArePrecise := by
  intro s t h hb hstep herr
  obtain ⟨hdone, he⟩ := h.undecided hb
  obtain ⟨code, info, u, hraise, rfl⟩ := (engineStep_move hstep).raises he herr
  have hconsumed := hraise.consumed h.icntBound
  have hframe := hraise.frame
  have hbusy : busy u = true := busy_of_phase_eq hb (congrArg State.phase hframe :)
  refine ⟨⟨raiseError_phase code info u, by simp [hbusy], ?_⟩, ?_, by simpa using hconsumed⟩
  · rw [raiseError_done, hframe, hdone]
  · rw [hframe]
    simp

end Sys2Proof.Machine
end

section
/-! PROOFS of the family 70_reset_and_hazards: what is read of the block after the reset event (R360, R50). -/

namespace Sys2Proof.Machine

/-- After reset STATUS shows an idle block with both FIFOs empty, and nothing else (R23, R50). -/
theorem statusWord_resetBlock (s : State) : statusWord (resetBlock s) = 0x00000140#32 := by
  simp [statusWord, errBits, modeBits, inqFull, outqFull, busy, Config.inqDepth, Config.outqDepth]

/-- After reset no outcome is there to interrupt for. -/
theorem irq_resetBlock (s : State) : irq (resetBlock s) = false := by simp [irq]

/-- After reset every entry of CT is absent. -/
theorem codeAt_resetBlock (s : State) (sym : Symbol) : codeAt (resetBlock s) sym = absentEntry := by simp [codeAt, tableRead]

/-- After reset every word of NODE is EMPTY. -/
theorem nodeWord_resetBlock (s : State) (idx : NodeIdx) : nodeWord (resetBlock s) idx = emptyNode := by simp [nodeWord, tableRead]

/-- The step that takes a reset event resets the block and keeps the other coming events. -/
theorem step_of_reset {s : State} {rest : List Event} (h : s.pending = .reset :: rest) :
    step s = .next (resetBlock (takeEvent rest s)) := by
  rw [step_of_pending h, eventStep]

/-! ### The obligation -/

/-- Settles O1: the step is the reset of the block, whose flags are read in STATUS and whose tables are read empty. -/
theorem resetEventRestoresEveryResetValue : Obligations.ResetEventRestoresEveryResetValue := by
  intro s rest h
  exact ⟨resetBlock (takeEvent rest s), step_of_reset h, ⟨statusWord_resetBlock _, by simp, irq_resetBlock _, by simp⟩, by simp,
    fun sym => congrArg CodeEntry.len (codeAt_resetBlock _ sym), nodeWord_resetBlock _, by simp⟩

end Sys2Proof.Machine
end
